-- ==== Sys2Proof/Word.lean ====
section
/-! DEFINITION. The word types of the core and its two operating widths. -/

namespace Sys2Proof

/-- One byte of memory (20_memory.md R50). -/
abbrev Byte := BitVec 8

/-- An instruction word (30_encoding.md R80). -/
abbrev Word := BitVec 32

/-- The content of a general register, a program counter or an effective address
(10_state.md R20, R26; 20_memory.md R67). -/
abbrev DWord := BitVec 64

/-- The operating width of an instruction, chosen by its width bit `sf`: `w32` for `sf` = 0,
`w64` for `sf` = 1 (00_scope.md R7, R12; 10_state.md R23). -/
inductive Width where
  | w32
  | w64
  deriving DecidableEq, Repr

/-- The operating width `W` in bits. -/
abbrev Width.bits : Width → Nat
  | .w32 => 32
  | .w64 => 64

/-- The size `n` in bytes of a memory access at this width (20_memory.md R58). -/
abbrev Width.bytes : Width → Nat
  | .w32 => 4
  | .w64 => 8

end Sys2Proof
end

