-- ==== Sys2Proof/Config.lean ====
section
/-! DEFINITION. The constants of this hardware (00_scope.md R7): what the spec fixes for the machine and is not state
(10_state.md R41). The spec leaves no value free, so there is no opaque constant here. -/

namespace Sys2Proof.Config

/-- `MEM_SIZE`: 2 MiB; the valid byte addresses are 0x000000 to 0x1FFFFF (00_scope.md R7, 20_memory.md R50). -/
def memSize : Nat := 0x200000

/-- `LOAD_BASE`: where the host copies the image (00_scope.md R7, 70_reset_and_hazards.md R301). -/
def loadBase : Nat := 0

/-- `RESET_PC` (00_scope.md R7, 70_reset_and_hazards.md R303). -/
def resetPc : DWord := 0x0#64

/-- The default the spec gives for the named parameter `HALT_WORD` (00_scope.md R7, 30_encoding.md R105).
DESIGN CHOICE, unsafe: the source gives no value (log entry 1). The decoder, the encoder and the
sequencer take the halt word as an argument; only `Sys2Proof.haltWord` reads this default. -/
def defaultHaltWord : Word := 0x8A000000#32

end Sys2Proof.Config
end

