-- ==== Sys2Proof/Syntax.lean ====
section
/-! DEFINITION. The instruction set as data: one constructor of `Instr` for every row of spec/opcode_table.json
(30_encoding.md R120), its operands in the order of the encoding from the high bits down. -/

namespace Sys2Proof

/-- What a 5-bit register field names: one of the 31 general registers, or (number 31) the zero register
(10_state.md R21, R22). -/
inductive Reg where
  | x (i : Fin 31)
  | zr
  deriving DecidableEq, Repr

/-- The four shifts of a shifted-register operand (30_encoding.md R112, 42_dp_register.md R182). -/
inductive ShiftType where
  | lsl
  | lsr
  | asr
  | ror
  deriving DecidableEq, Repr

/-- The seven supported condition codes of B.cond (43_branch.md R222). -/
inductive Cond where
  | eq
  | ne
  | ge
  | lt
  | gt
  | le
  | al
  deriving DecidableEq, Repr

/-- The instructions of the core. -/
inductive Instr where
  /-- HALT (40_step_and_halt.md R141). -/
  | halt
  /-- ADD (immediate) (41_dp_immediate.md R160). -/
  | addImm (w : Width) (sh : Bool) (imm12 : BitVec 12) (rn rd : Reg)
  /-- ADDS (immediate) (R161). -/
  | addsImm (w : Width) (sh : Bool) (imm12 : BitVec 12) (rn rd : Reg)
  /-- SUB (immediate) (R162). -/
  | subImm (w : Width) (sh : Bool) (imm12 : BitVec 12) (rn rd : Reg)
  /-- SUBS (immediate) (R163). -/
  | subsImm (w : Width) (sh : Bool) (imm12 : BitVec 12) (rn rd : Reg)
  /-- MOVN (R164). -/
  | movn (w : Width) (hw : BitVec 2) (imm16 : BitVec 16) (rd : Reg)
  /-- MOVZ (R165). -/
  | movz (w : Width) (hw : BitVec 2) (imm16 : BitVec 16) (rd : Reg)
  /-- MOVK (R166). -/
  | movk (w : Width) (hw : BitVec 2) (imm16 : BitVec 16) (rd : Reg)
  /-- ADD (shifted register) (42_dp_register.md R183). -/
  | addReg (w : Width) (shift : ShiftType) (rm : Reg) (imm6 : BitVec 6) (rn rd : Reg)
  /-- ADDS (shifted register) (R184). -/
  | addsReg (w : Width) (shift : ShiftType) (rm : Reg) (imm6 : BitVec 6) (rn rd : Reg)
  /-- SUB (shifted register) (R185). -/
  | subReg (w : Width) (shift : ShiftType) (rm : Reg) (imm6 : BitVec 6) (rn rd : Reg)
  /-- SUBS (shifted register) (R186). -/
  | subsReg (w : Width) (shift : ShiftType) (rm : Reg) (imm6 : BitVec 6) (rn rd : Reg)
  /-- AND (R187). -/
  | and (w : Width) (shift : ShiftType) (rm : Reg) (imm6 : BitVec 6) (rn rd : Reg)
  /-- BIC (R188). -/
  | bic (w : Width) (shift : ShiftType) (rm : Reg) (imm6 : BitVec 6) (rn rd : Reg)
  /-- ORR (R189). -/
  | orr (w : Width) (shift : ShiftType) (rm : Reg) (imm6 : BitVec 6) (rn rd : Reg)
  /-- ORN (R190). -/
  | orn (w : Width) (shift : ShiftType) (rm : Reg) (imm6 : BitVec 6) (rn rd : Reg)
  /-- EOR (R191). -/
  | eor (w : Width) (shift : ShiftType) (rm : Reg) (imm6 : BitVec 6) (rn rd : Reg)
  /-- EON (R192). -/
  | eon (w : Width) (shift : ShiftType) (rm : Reg) (imm6 : BitVec 6) (rn rd : Reg)
  /-- ANDS (R193). -/
  | ands (w : Width) (shift : ShiftType) (rm : Reg) (imm6 : BitVec 6) (rn rd : Reg)
  /-- BICS (R194). -/
  | bics (w : Width) (shift : ShiftType) (rm : Reg) (imm6 : BitVec 6) (rn rd : Reg)
  /-- MADD (R195). -/
  | madd (w : Width) (rm ra rn rd : Reg)
  /-- MSUB (R196). -/
  | msub (w : Width) (rm ra rn rd : Reg)
  /-- B (43_branch.md R220). -/
  | b (simm26 : BitVec 26)
  /-- B.cond (R221). -/
  | bCond (simm19 : BitVec 19) (cond : Cond)
  /-- BR (R223). -/
  | br (xn : Reg)
  /-- STR (unsigned offset) (44_load_store.md R242). -/
  | strUnsigned (w : Width) (imm12 : BitVec 12) (xn rt : Reg)
  /-- LDR (unsigned offset) (R241). -/
  | ldrUnsigned (w : Width) (imm12 : BitVec 12) (xn rt : Reg)
  /-- STR (post-index) (R246). -/
  | strPost (w : Width) (simm9 : BitVec 9) (xn rt : Reg)
  /-- STR (pre-index) (R244). -/
  | strPre (w : Width) (simm9 : BitVec 9) (xn rt : Reg)
  /-- LDR (post-index) (R245). -/
  | ldrPost (w : Width) (simm9 : BitVec 9) (xn rt : Reg)
  /-- LDR (pre-index) (R243). -/
  | ldrPre (w : Width) (simm9 : BitVec 9) (xn rt : Reg)
  /-- STR (register offset) (R249). -/
  | strRegister (w : Width) (xm xn rt : Reg)
  /-- LDR (register offset) (R248). -/
  | ldrRegister (w : Width) (xm xn rt : Reg)
  /-- LDR (literal) (R250). -/
  | ldrLiteral (w : Width) (simm19 : BitVec 19) (rt : Reg)
  deriving DecidableEq, Repr

end Sys2Proof
end

