-- ==== Sys2Proof/WellFormed.lean ====
section
/-! DEFINITION. Which terms of `Instr` are instructions of the core: the four checks that its encoding formats make
beyond the fixed bits (30_encoding.md R120, column 'extra condition'). A term that fails one has a word,
and the core raises `UndefinedInstruction` on it (60_exceptions.md R275). -/

namespace Sys2Proof

/-- A wide move at 32 bits has two half-word slots only: `hw` >= 2 is illegal (30_encoding.md R88). -/
def halfWordLegal (w : Width) (hw : BitVec 2) : Bool :=
  w == .w64 || decide (hw.toNat < 2)

/-- At 32 bits a shift amount of 32 or more is illegal (30_encoding.md R112). -/
def shiftAmountLegal (w : Width) (imm6 : BitVec 6) : Bool :=
  w == .w64 || decide (imm6.toNat < 32)

/-- ROR is legal for the logical operations only (30_encoding.md R92). -/
def arithmeticShiftLegal (shift : ShiftType) : Bool :=
  shift != .ror

/-- A pre- or post-indexed access may not use one general register as base and as transfer register
(44_load_store.md R247); the zero register may stand in both places. -/
def writeBackLegal (xn rt : Reg) : Bool :=
  rt != xn || xn == .zr

/-- The instruction is one the decoder can give: its operands pass every check of its format. -/
def Instr.wellFormed : Instr → Bool
  | .halt => true
  | .addImm _ _ _ _ _ => true
  | .addsImm _ _ _ _ _ => true
  | .subImm _ _ _ _ _ => true
  | .subsImm _ _ _ _ _ => true
  | .movn w hw _ _ => halfWordLegal w hw
  | .movz w hw _ _ => halfWordLegal w hw
  | .movk w hw _ _ => halfWordLegal w hw
  | .addReg w shift _ imm6 _ _ => shiftAmountLegal w imm6 && arithmeticShiftLegal shift
  | .addsReg w shift _ imm6 _ _ => shiftAmountLegal w imm6 && arithmeticShiftLegal shift
  | .subReg w shift _ imm6 _ _ => shiftAmountLegal w imm6 && arithmeticShiftLegal shift
  | .subsReg w shift _ imm6 _ _ => shiftAmountLegal w imm6 && arithmeticShiftLegal shift
  | .and w _ _ imm6 _ _ => shiftAmountLegal w imm6
  | .bic w _ _ imm6 _ _ => shiftAmountLegal w imm6
  | .orr w _ _ imm6 _ _ => shiftAmountLegal w imm6
  | .orn w _ _ imm6 _ _ => shiftAmountLegal w imm6
  | .eor w _ _ imm6 _ _ => shiftAmountLegal w imm6
  | .eon w _ _ imm6 _ _ => shiftAmountLegal w imm6
  | .ands w _ _ imm6 _ _ => shiftAmountLegal w imm6
  | .bics w _ _ imm6 _ _ => shiftAmountLegal w imm6
  | .madd _ _ _ _ _ => true
  | .msub _ _ _ _ _ => true
  | .b _ => true
  | .bCond _ _ => true
  | .br _ => true
  | .strUnsigned _ _ _ _ => true
  | .ldrUnsigned _ _ _ _ => true
  | .strPost _ _ xn rt => writeBackLegal xn rt
  | .strPre _ _ xn rt => writeBackLegal xn rt
  | .ldrPost _ _ xn rt => writeBackLegal xn rt
  | .ldrPre _ _ xn rt => writeBackLegal xn rt
  | .strRegister _ _ _ _ => true
  | .ldrRegister _ _ _ _ => true
  | .ldrLiteral _ _ _ => true

end Sys2Proof
end

