-- ==== Sys2Proof/Decode.lean ====
section
/-! DEFINITION. The decoder, total on any word and rejecting by name, and after it the encoder, both written from
30_encoding.md. The halt word is an argument of both (`...With`); `haltWord` is the value the machine runs with. -/

namespace Sys2Proof

/-- The halt word the machine runs with: the spec's default (00_scope.md R7; log entry 1). -/
def haltWord : Word := Config.defaultHaltWord

/-! ### Fields of a word (30_encoding.md R81, 00_scope.md R9) -/

/-- `w[lo+n-1:lo]`. -/
def field (w : Word) (lo n : Nat) : BitVec n := w.extractLsb' lo n

/-- `w[i]`. -/
def bit (w : Word) (i : Nat) : Bool := w.getLsbD i

/-- The register that a 5-bit field names (10_state.md R21, R22). -/
def Reg.ofField (f : BitVec 5) : Reg :=
  if h : f.toNat < 31 then .x ⟨f.toNat, h⟩ else .zr

/-- The register field's value for a register. -/
def Reg.toField : Reg → BitVec 5
  | .x i => BitVec.ofNat 5 i.val
  | .zr => 31#5

/-- The operating width that a width bit `sf` selects. -/
def Width.ofBit : Bool → Width
  | false => .w32
  | true => .w64

/-- The width bit `sf` as a one-bit field. -/
def Width.toField : Width → BitVec 1
  | .w32 => 0#1
  | .w64 => 1#1

/-- The shift that the field `shift` selects (30_encoding.md R112). -/
def ShiftType.ofField (f : BitVec 2) : ShiftType :=
  if f = 0b00#2 then .lsl
  else if f = 0b01#2 then .lsr
  else if f = 0b10#2 then .asr
  else .ror

/-- The field `shift` of a shift. -/
def ShiftType.toField : ShiftType → BitVec 2
  | .lsl => 0b00#2
  | .lsr => 0b01#2
  | .asr => 0b10#2
  | .ror => 0b11#2

/-- The supported condition that a `cond` field names, if any (43_branch.md R222). -/
def Cond.ofField (f : BitVec 4) : Option Cond :=
  if f = 0b0000#4 then some .eq
  else if f = 0b0001#4 then some .ne
  else if f = 0b1010#4 then some .ge
  else if f = 0b1011#4 then some .lt
  else if f = 0b1100#4 then some .gt
  else if f = 0b1101#4 then some .le
  else if f = 0b1110#4 then some .al
  else none

/-- The `cond` field of a condition (43_branch.md R222). -/
def Cond.toField : Cond → BitVec 4
  | .eq => 0b0000#4
  | .ne => 0b0001#4
  | .ge => 0b1010#4
  | .lt => 0b1011#4
  | .gt => 0b1100#4
  | .le => 0b1101#4
  | .al => 0b1110#4

/-! ### Rejection by name -/

/-- Why a word of a recognised class is no instruction: the places of 60_exceptions.md R275. -/
inductive Undefined where
  /-- `opi` is neither `010` nor `101` (30_encoding.md R86). -/
  | subClass
  /-- Wide move with `opc` = `01` (R88). -/
  | wideMoveOpc
  /-- Wide move with `sf` = 0 and `hw` >= 2 (R88). -/
  | halfWord
  /-- `sf` = 0 with a shift amount of 32 or more (R112). -/
  | shiftAmount
  /-- Arithmetic with bit 21 = 1 (R91). -/
  | extendedRegister
  /-- Arithmetic with ROR (R92). -/
  | arithmeticRor
  /-- Mode bit 1 with another `opr` than `1000` or another `opc` than `00` (R91). -/
  | multiplyForm
  /-- A branch word that matches none of B, B.cond, BR (R98). -/
  | branchForm
  /-- B.cond with an unsupported condition (43_branch.md R222). -/
  | condition
  /-- A load/store word that matches none of the forms (R104). -/
  | loadStoreForm
  /-- Write-back with the transfer register as base (44_load_store.md R247). -/
  | writeBack
  deriving DecidableEq, Repr

/-- How the decoder rejects a word (30_encoding.md R124). -/
inductive Reject where
  /-- The class field selects no class (R82): `UnknownClass`. -/
  | unknownClass
  /-- The class is recognised, the word is not (R124): `UndefinedInstruction`. -/
  | undefinedInstruction (why : Undefined)
  deriving DecidableEq, Repr

/-- Rejection of a word of a recognised class. -/
def undef (why : Undefined) : Except Reject Instr := .error (.undefinedInstruction why)

/-! ### The four classes -/

/-- `ExecDPImmediate`'s decoding (41_dp_immediate.md R158; 30_encoding.md R86 to R88, R106, R107). -/
def decodeDpImmediate (w : Word) : Except Reject Instr :=
  let sf := Width.ofBit (bit w 31)
  let opc := field w 29 2
  let opi := field w 23 3
  let rd := Reg.ofField (field w 0 5)
  if opi = 0b010#3 then
    let sh := bit w 22
    let imm12 := field w 10 12
    let rn := Reg.ofField (field w 5 5)
    if opc = 0b00#2 then .ok (.addImm sf sh imm12 rn rd)
    else if opc = 0b01#2 then .ok (.addsImm sf sh imm12 rn rd)
    else if opc = 0b10#2 then .ok (.subImm sf sh imm12 rn rd)
    else .ok (.subsImm sf sh imm12 rn rd)
  else if opi = 0b101#3 then
    let hw := field w 21 2
    let imm16 := field w 5 16
    if opc = 0b01#2 then undef .wideMoveOpc
    else if halfWordLegal sf hw = false then undef .halfWord
    else if opc = 0b00#2 then .ok (.movn sf hw imm16 rd)
    else if opc = 0b10#2 then .ok (.movz sf hw imm16 rd)
    else .ok (.movk sf hw imm16 rd)
  else undef .subClass

/-- `ExecDPRegister`'s decoding (42_dp_register.md R180; 30_encoding.md R91 to R94, R112). -/
def decodeDpRegister (w : Word) : Except Reject Instr :=
  let sf := Width.ofBit (bit w 31)
  let opc := field w 29 2
  let rm := Reg.ofField (field w 16 5)
  let rn := Reg.ofField (field w 5 5)
  let rd := Reg.ofField (field w 0 5)
  if bit w 28 = false then
    let shift := ShiftType.ofField (field w 22 2)
    let imm6 := field w 10 6
    if shiftAmountLegal sf imm6 = false then undef .shiftAmount
    else if bit w 24 = true then
      if bit w 21 = true then undef .extendedRegister
      else if arithmeticShiftLegal shift = false then undef .arithmeticRor
      else if opc = 0b00#2 then .ok (.addReg sf shift rm imm6 rn rd)
      else if opc = 0b01#2 then .ok (.addsReg sf shift rm imm6 rn rd)
      else if opc = 0b10#2 then .ok (.subReg sf shift rm imm6 rn rd)
      else .ok (.subsReg sf shift rm imm6 rn rd)
    else if bit w 21 = false then
      if opc = 0b00#2 then .ok (.and sf shift rm imm6 rn rd)
      else if opc = 0b01#2 then .ok (.orr sf shift rm imm6 rn rd)
      else if opc = 0b10#2 then .ok (.eor sf shift rm imm6 rn rd)
      else .ok (.ands sf shift rm imm6 rn rd)
    else
      if opc = 0b00#2 then .ok (.bic sf shift rm imm6 rn rd)
      else if opc = 0b01#2 then .ok (.orn sf shift rm imm6 rn rd)
      else if opc = 0b10#2 then .ok (.eon sf shift rm imm6 rn rd)
      else .ok (.bics sf shift rm imm6 rn rd)
  else
    if field w 21 4 = 0b1000#4 ∧ opc = 0b00#2 then
      let ra := Reg.ofField (field w 10 5)
      if bit w 15 = false then .ok (.madd sf rm ra rn rd)
      else .ok (.msub sf rm ra rn rd)
    else undef .multiplyForm

/-- `ExecBranch`'s decoding (43_branch.md R219, R221; 30_encoding.md R95 to R98, R108, R109). -/
def decodeBranch (w : Word) : Except Reject Instr :=
  if field w 26 6 = 0b000101#6 then .ok (.b (field w 0 26))
  else if field w 10 22 = 0b1101011000011111000000#22 ∧ field w 0 5 = 0b00000#5 then
    .ok (.br (Reg.ofField (field w 5 5)))
  else if field w 24 8 = 0b01010100#8 ∧ bit w 4 = false then
    match Cond.ofField (field w 0 4) with
    | some cond => .ok (.bCond (field w 5 19) cond)
    | none => undef .condition
  else undef .branchForm

/-- `ExecLoadStore`'s decoding (44_load_store.md R240, R247; 30_encoding.md R99 to R104, R109 to R111). -/
def decodeLoadStore (w : Word) : Except Reject Instr :=
  let sf := Width.ofBit (bit w 30)
  let rt := Reg.ofField (field w 0 5)
  if bit w 31 = false then
    if field w 24 6 = 0b011000#6 then .ok (.ldrLiteral sf (field w 5 19) rt)
    else undef .loadStoreForm
  else if field w 25 5 = 0b11100#5 ∧ bit w 23 = false then
    let load := bit w 22
    let xn := Reg.ofField (field w 5 5)
    if bit w 24 = true then
      let imm12 := field w 10 12
      if load = true then .ok (.ldrUnsigned sf imm12 xn rt) else .ok (.strUnsigned sf imm12 xn rt)
    else if bit w 21 = true then
      let xm := Reg.ofField (field w 16 5)
      if field w 10 6 = 0b011010#6 then
        if load = true then .ok (.ldrRegister sf xm xn rt) else .ok (.strRegister sf xm xn rt)
      else undef .loadStoreForm
    else
      let simm9 := field w 12 9
      if bit w 10 = false then undef .loadStoreForm
      else if writeBackLegal xn rt = false then undef .writeBack
      else if bit w 11 = true then
        if load = true then .ok (.ldrPre sf simm9 xn rt) else .ok (.strPre sf simm9 xn rt)
      else
        if load = true then .ok (.ldrPost sf simm9 xn rt) else .ok (.strPost sf simm9 xn rt)
  else undef .loadStoreForm

/-! ### The decoder -/

/-- The class of a word whose class field `w[28:25]` is recognised (30_encoding.md R82). -/
inductive InstrClass where
  | dpImmediate
  | dpRegister
  | loadStore
  | branch
  deriving DecidableEq, Repr

/-- The class that the class field selects: `100x`, `x101`, `x1x0`, `101x`, or none (30_encoding.md R82). -/
def classOf (w : Word) : Option InstrClass :=
  if field w 26 3 = 0b100#3 then some .dpImmediate
  else if field w 25 3 = 0b101#3 then some .dpRegister
  else if bit w 27 = true ∧ bit w 25 = false then some .loadStore
  else if field w 26 3 = 0b101#3 then some .branch
  else none

/-- The decoder for a given halt word: first the halt test, then the class, then the format
(30_encoding.md R83, R120; 40_step_and_halt.md R140). -/
def decodeWith (halt w : Word) : Except Reject Instr :=
  if w = halt then .ok .halt
  else
    match classOf w with
    | some .dpImmediate => decodeDpImmediate w
    | some .dpRegister => decodeDpRegister w
    | some .loadStore => decodeLoadStore w
    | some .branch => decodeBranch w
    | none => .error .unknownClass

/-- The decoder of the machine. -/
def decode (w : Word) : Except Reject Instr := decodeWith haltWord w

/-- The 32-bit word of four bytes in memory order, least significant first (30_encoding.md R80, 20_memory.md R57). -/
def wordOfBytes (b0 b1 b2 b3 : Byte) : Word := b3 ++ b2 ++ b1 ++ b0

/-- The decoder on bytes in memory order: what the first four bytes decode to, with the bytes after them,
or `none` if there are fewer than four. -/
def decodeBytes : List Byte → Option (Except Reject Instr × List Byte)
  | b0 :: b1 :: b2 :: b3 :: rest => some (decode (wordOfBytes b0 b1 b2 b3), rest)
  | _ => none

/-- The four bytes of a word in memory order (20_memory.md R52). -/
def bytesOfWord (w : Word) : List Byte := [field w 0 8, field w 8 8, field w 16 8, field w 24 8]

/-- The instruction the decoder reads from an instruction whose bits are `w` (bit 0 the least significant
bit of the word; every bit from `nbits` on is 0). Fixed by the host. -/
def decodeTableWord (nbits w : Nat) : Option Instr :=
  match decodeBytes (bytesOfWord (BitVec.ofNat 32 (w % 2 ^ nbits))) with
  | some (.ok i, _) => some i
  | _ => none

/-! ### The encoder -/

/-- A word that holds the field `f` from bit `lo` up, and zeros elsewhere. -/
def place {n : Nat} (lo : Nat) (f : BitVec n) : Word := f.setWidth 32 <<< lo

/-- The arithmetic immediate format (30_encoding.md R87). -/
def arithmeticImmediateWord (opc : BitVec 2) (w : Width) (sh : Bool) (imm12 : BitVec 12) (rn rd : Reg) : Word :=
  place 31 w.toField ||| place 29 opc ||| place 23 0b100010#6 ||| place 22 (BitVec.ofBool sh) ||| place 10 imm12
    ||| place 5 rn.toField ||| place 0 rd.toField

/-- The wide-move format (30_encoding.md R88). -/
def wideMoveWord (opc : BitVec 2) (w : Width) (hw : BitVec 2) (imm16 : BitVec 16) (rd : Reg) : Word :=
  place 31 w.toField ||| place 29 opc ||| place 23 0b100101#6 ||| place 21 hw ||| place 5 imm16 ||| place 0 rd.toField

/-- The arithmetic shifted-register format (30_encoding.md R92). -/
def arithmeticRegisterWord (opc : BitVec 2) (w : Width) (shift : ShiftType) (rm : Reg) (imm6 : BitVec 6)
    (rn rd : Reg) : Word :=
  place 31 w.toField ||| place 29 opc ||| place 24 0b01011#5 ||| place 22 shift.toField ||| place 21 0b0#1
    ||| place 16 rm.toField ||| place 10 imm6 ||| place 5 rn.toField ||| place 0 rd.toField

/-- The logical shifted-register format (30_encoding.md R93). -/
def logicalRegisterWord (opc : BitVec 2) (n : BitVec 1) (w : Width) (shift : ShiftType) (rm : Reg) (imm6 : BitVec 6)
    (rn rd : Reg) : Word :=
  place 31 w.toField ||| place 29 opc ||| place 24 0b01010#5 ||| place 22 shift.toField ||| place 21 n
    ||| place 16 rm.toField ||| place 10 imm6 ||| place 5 rn.toField ||| place 0 rd.toField

/-- The multiply format (30_encoding.md R94). -/
def multiplyWord (x : BitVec 1) (w : Width) (rm ra rn rd : Reg) : Word :=
  place 31 w.toField ||| place 29 0b00#2 ||| place 24 0b11011#5 ||| place 21 0b000#3 ||| place 16 rm.toField
    ||| place 15 x ||| place 10 ra.toField ||| place 5 rn.toField ||| place 0 rd.toField

/-- The format of B (30_encoding.md R95). -/
def branchWord (simm26 : BitVec 26) : Word := place 26 0b000101#6 ||| place 0 simm26

/-- The format of B.cond (30_encoding.md R96). -/
def branchCondWord (simm19 : BitVec 19) (cond : Cond) : Word :=
  place 24 0b01010100#8 ||| place 5 simm19 ||| place 4 0b0#1 ||| place 0 cond.toField

/-- The format of BR (30_encoding.md R97). -/
def branchRegisterWord (xn : Reg) : Word :=
  place 10 0b1101011000011111000000#22 ||| place 5 xn.toField ||| place 0 0b00000#5

/-- The unsigned-offset load/store format (30_encoding.md R99, R100). -/
def unsignedOffsetWord (load : BitVec 1) (w : Width) (imm12 : BitVec 12) (xn rt : Reg) : Word :=
  place 31 0b1#1 ||| place 30 w.toField ||| place 25 0b11100#5 ||| place 24 0b1#1 ||| place 23 0b0#1
    ||| place 22 load ||| place 10 imm12 ||| place 5 xn.toField ||| place 0 rt.toField

/-- The pre- and post-indexed load/store format (30_encoding.md R99, R101). -/
def indexedWord (load pre : BitVec 1) (w : Width) (simm9 : BitVec 9) (xn rt : Reg) : Word :=
  place 31 0b1#1 ||| place 30 w.toField ||| place 25 0b11100#5 ||| place 24 0b0#1 ||| place 23 0b0#1
    ||| place 22 load ||| place 21 0b0#1 ||| place 12 simm9 ||| place 11 pre ||| place 10 0b1#1
    ||| place 5 xn.toField ||| place 0 rt.toField

/-- The register-offset load/store format (30_encoding.md R99, R102). -/
def registerOffsetWord (load : BitVec 1) (w : Width) (xm xn rt : Reg) : Word :=
  place 31 0b1#1 ||| place 30 w.toField ||| place 25 0b11100#5 ||| place 24 0b0#1 ||| place 23 0b0#1
    ||| place 22 load ||| place 21 0b1#1 ||| place 16 xm.toField ||| place 10 0b011010#6
    ||| place 5 xn.toField ||| place 0 rt.toField

/-- The load-literal format (30_encoding.md R103). -/
def literalWord (w : Width) (simm19 : BitVec 19) (rt : Reg) : Word :=
  place 31 0b0#1 ||| place 30 w.toField ||| place 24 0b011000#6 ||| place 5 simm19 ||| place 0 rt.toField

/-- The word of an instruction, for a given halt word (30_encoding.md R87 to R105). -/
def encodeWith (halt : Word) : Instr → Word
  | .halt => halt
  | .addImm w sh imm12 rn rd => arithmeticImmediateWord 0b00#2 w sh imm12 rn rd
  | .addsImm w sh imm12 rn rd => arithmeticImmediateWord 0b01#2 w sh imm12 rn rd
  | .subImm w sh imm12 rn rd => arithmeticImmediateWord 0b10#2 w sh imm12 rn rd
  | .subsImm w sh imm12 rn rd => arithmeticImmediateWord 0b11#2 w sh imm12 rn rd
  | .movn w hw imm16 rd => wideMoveWord 0b00#2 w hw imm16 rd
  | .movz w hw imm16 rd => wideMoveWord 0b10#2 w hw imm16 rd
  | .movk w hw imm16 rd => wideMoveWord 0b11#2 w hw imm16 rd
  | .addReg w shift rm imm6 rn rd => arithmeticRegisterWord 0b00#2 w shift rm imm6 rn rd
  | .addsReg w shift rm imm6 rn rd => arithmeticRegisterWord 0b01#2 w shift rm imm6 rn rd
  | .subReg w shift rm imm6 rn rd => arithmeticRegisterWord 0b10#2 w shift rm imm6 rn rd
  | .subsReg w shift rm imm6 rn rd => arithmeticRegisterWord 0b11#2 w shift rm imm6 rn rd
  | .and w shift rm imm6 rn rd => logicalRegisterWord 0b00#2 0b0#1 w shift rm imm6 rn rd
  | .bic w shift rm imm6 rn rd => logicalRegisterWord 0b00#2 0b1#1 w shift rm imm6 rn rd
  | .orr w shift rm imm6 rn rd => logicalRegisterWord 0b01#2 0b0#1 w shift rm imm6 rn rd
  | .orn w shift rm imm6 rn rd => logicalRegisterWord 0b01#2 0b1#1 w shift rm imm6 rn rd
  | .eor w shift rm imm6 rn rd => logicalRegisterWord 0b10#2 0b0#1 w shift rm imm6 rn rd
  | .eon w shift rm imm6 rn rd => logicalRegisterWord 0b10#2 0b1#1 w shift rm imm6 rn rd
  | .ands w shift rm imm6 rn rd => logicalRegisterWord 0b11#2 0b0#1 w shift rm imm6 rn rd
  | .bics w shift rm imm6 rn rd => logicalRegisterWord 0b11#2 0b1#1 w shift rm imm6 rn rd
  | .madd w rm ra rn rd => multiplyWord 0b0#1 w rm ra rn rd
  | .msub w rm ra rn rd => multiplyWord 0b1#1 w rm ra rn rd
  | .b simm26 => branchWord simm26
  | .bCond simm19 cond => branchCondWord simm19 cond
  | .br xn => branchRegisterWord xn
  | .strUnsigned w imm12 xn rt => unsignedOffsetWord 0b0#1 w imm12 xn rt
  | .ldrUnsigned w imm12 xn rt => unsignedOffsetWord 0b1#1 w imm12 xn rt
  | .strPost w simm9 xn rt => indexedWord 0b0#1 0b0#1 w simm9 xn rt
  | .strPre w simm9 xn rt => indexedWord 0b0#1 0b1#1 w simm9 xn rt
  | .ldrPost w simm9 xn rt => indexedWord 0b1#1 0b0#1 w simm9 xn rt
  | .ldrPre w simm9 xn rt => indexedWord 0b1#1 0b1#1 w simm9 xn rt
  | .strRegister w xm xn rt => registerOffsetWord 0b0#1 w xm xn rt
  | .ldrRegister w xm xn rt => registerOffsetWord 0b1#1 w xm xn rt
  | .ldrLiteral w simm19 rt => literalWord w simm19 rt

/-- The word of an instruction for the machine. -/
def encode (i : Instr) : Word := encodeWith haltWord i

end Sys2Proof
end

