-- ==== Sys2Proof/Machine/State.lean ====
section
/-! DEFINITION. The machine state, all of it (10_state.md R20, R36, R40), the reasons a step can stop, and the state after
reset (R42, 70_reset_and_hazards.md R300). -/

namespace Sys2Proof.Machine

/-- The four condition flags (10_state.md R29). They are single bits, never packed into an addressable word (R37). -/
structure Flags where
  /-- Negative. -/
  n : Bool
  /-- Zero. -/
  z : Bool
  /-- Carry. -/
  c : Bool
  /-- Overflow. -/
  v : Bool
  deriving DecidableEq, Repr

/-- What kind of access left the memory bound (20_memory.md R53, 60_exceptions.md R272). -/
inductive AccessKind where
  | fetch
  | load
  | store
  deriving DecidableEq, Repr

/-- The three causes of an exception with the information each records (60_exceptions.md R270). -/
inductive Cause where
  /-- An access of `n` bytes at the effective address `addr` that is not wholly inside memory (R272). -/
  | memoryBoundViolation (addr : DWord) (n : Nat) (kind : AccessKind)
  /-- A word whose class field selects no class (R271). -/
  | unknownClass (w : Word)
  /-- A word of a recognised class that fits no supported format (R275). -/
  | undefinedInstruction (w : Word)
  deriving DecidableEq, Repr

/-- The fault record: the cause with its information, and the `pc` of the abandoned cycle
(10_state.md R36, 60_exceptions.md R270, R273). -/
structure FaultRecord where
  cause : Cause
  pc : DWord
  deriving DecidableEq, Repr

/-- Memory: a list of (address, byte), addresses strictly rising, no entry equal to `unlistedByte`, every address
below `MEM_SIZE` (`Memory.wf` in Machine/Ops.lean). -/
abbrev Memory := List Host.Cell

/-- What an address that is not listed reads as: the spec resets every byte outside the image to 0
(10_state.md R39, R42). -/
def unlistedByte : Byte := 0x00#8

/-- The whole architectural state of the core. -/
structure State where
  /-- `x[0]` .. `x[30]` (10_state.md R21). -/
  x : Vector DWord 31
  /-- The program counter (R26). -/
  pc : DWord
  /-- N, Z, C, V (R29). -/
  flags : Flags
  /-- The byte memory, program and data (R39, 20_memory.md R50). -/
  mem : Memory
  /-- The halted flag (R35). -/
  halted : Bool
  /-- The fault record, `none` until the first `raise` (R36). -/
  fault : Option FaultRecord
  deriving DecidableEq, Repr

/-- Why a step gives no next state. Both are the end of the run of 40_step_and_halt.md R144 ("there is no further
step: the state is terminal"); an exception itself is taken, into a next state whose `fault` holds it. -/
inductive Fault where
  /-- Raised by the sequencer in a state with `halted` = 1: the run has ended normally (R144, R145). Safe: the model
  stops where the core has no further cycle. -/
  | halted
  /-- Raised by the sequencer in a state whose fault record is `r`: the run has ended in error (R144, R145). Safe: the
  model stops where the core has no further cycle. -/
  | faulted (r : FaultRecord)
  deriving DecidableEq, Repr

/-- Why the model gives no meaning. -/
inductive Refusal where
  /-- Raised by `exec` for an instruction that has no meaning yet, with its mnemonic in spec/opcode_table.json. No arm
  does. Safe: nothing can be proved of such an instruction. -/
  | notModelled (mnemonic : String)
  /-- Raised by `loadImage` for an image of `length` bytes, more than `MEM_SIZE`: the host refuses it and no run starts
  (70_reset_and_hazards.md R302). No step raises it. Safe: the spec itself refuses. -/
  | imageTooLong (length : Nat)
  deriving DecidableEq, Repr

/-- The flags after reset, `-Z--` (10_state.md R29, R42). -/
def Flags.reset : Flags := { n := false, z := true, c := false, v := false }

/-- The machine right after reset with an empty image (70_reset_and_hazards.md R300; 10_state.md R42). A program is
placed by `loadImage` (R301), which the host performs as part of reset. -/
def State.reset : State where
  x := Vector.replicate 31 0x0#64
  pc := Config.resetPc
  flags := Flags.reset
  mem := []
  halted := false
  fault := none

end Sys2Proof.Machine
end

