-- ==== Sys2Proof/Machine/Ops.lean ====
section
/-! DEFINITION. The named operations over registers, program counter, flags and memory (00_scope.md R10), and taking an
exception (60_exceptions.md R273). There is no return from an exception: only reset leaves the faulted
state (60_exceptions.md R278). -/

namespace Sys2Proof.Machine

/-! ### Registers -/

/-- `x[i]`; register number 31 reads as 0 (00_scope.md R10, 10_state.md R22). -/
def State.readReg (s : State) : Reg → DWord
  | .x i => s.x[i]
  | .zr => 0x0#64

/-- `x[i] <- v`; a write to register number 31 does nothing (00_scope.md R10, 10_state.md R22). -/
def State.writeReg (s : State) (r : Reg) (v : DWord) : State :=
  match r with
  | .x i => { s with x := s.x.set i v }
  | .zr => s

/-- `reg(i, W)`: the register seen at operating width `W` (00_scope.md R10, 10_state.md R23). -/
def State.readRegAt (s : State) (w : Width) (r : Reg) : BitVec w.bits :=
  (s.readReg r).setWidth w.bits

/-- `setreg(i, W, v)`: at 32 bits the upper half of the register becomes 0 (00_scope.md R10, 10_state.md R23). -/
def State.writeRegAt (s : State) (w : Width) (r : Reg) (v : BitVec w.bits) : State :=
  s.writeReg r (v.setWidth 64)

/-! ### Program counter, flags, halted -/

/-- `pc <- t` (00_scope.md R10). -/
def State.setPc (s : State) (t : DWord) : State := { s with pc := t }

/-- `pc <- (pc + 4) mod 2^64` (40_step_and_halt.md R142). -/
def State.advance (s : State) : State := s.setPc (s.pc + 4#64)

/-- Write all four flags (10_state.md R30). -/
def State.setFlags (s : State) (f : Flags) : State := { s with flags := f }

/-- Replace the memory, nothing else. -/
def State.setMem (s : State) (m : Memory) : State := { s with mem := m }

/-- `halted <- 1` (40_step_and_halt.md R141). -/
def State.setHalted (s : State) : State := { s with halted := true }

/-! ### Taking an exception -/

/-- `raise E(info)`: the cycle is abandoned, the fault record is written, nothing else changes
(60_exceptions.md R273, R274). To be applied to the state before the cycle. -/
def State.raise (s : State) (c : Cause) : State :=
  { s with fault := some { cause := c, pc := s.pc } }

/-- The numeric code of a cause (60_exceptions.md R270). -/
def Cause.code : Cause → Nat
  | .memoryBoundViolation _ _ _ => 1
  | .unknownClass _ => 2
  | .undefinedInstruction _ => 3

/-- The exception that a rejected word raises (30_encoding.md R124). -/
def rejectCause (w : Word) : Reject → Cause
  | .unknownClass => .unknownClass w
  | .undefinedInstruction _ => .undefinedInstruction w

/-- Run a meaning on operands its format allows; on others take `UndefinedInstruction` with the instruction's word, as
the execute units do before any access (41_dp_immediate.md R158, 42_dp_register.md R180,
44_load_store.md R240; 60_exceptions.md R276). The decoder never gives such an instruction (log entry 3). -/
def ifLegal (i : Instr) (s : State) (meaning : Host.Outcome State Fault Refusal) : Host.Outcome State Fault Refusal :=
  if i.wellFormed then meaning else .next (s.raise (.undefinedInstruction (encode i)))

/-! ### Bytes of memory -/

/-- `mem[a]`. -/
def Memory.byte : Memory → Nat → Byte
  | [], _ => unlistedByte
  | (b, u) :: m, a => if a = b then u else Memory.byte m a

/-- `mem[a] <- v`, keeping the canonical form: writing what an unlisted address reads as removes the entry. -/
def Memory.setByte : Memory → Nat → Byte → Memory
  | [], a, v => if v = unlistedByte then [] else [(a, v)]
  | (b, u) :: m, a, v =>
    if a < b then (if v = unlistedByte then (b, u) :: m else (a, v) :: (b, u) :: m)
    else if a = b then (if v = unlistedByte then m else (a, v) :: m)
    else (b, u) :: Memory.setByte m a v

/-- The canonical form of a memory all of whose addresses are at least `lo`. -/
def Memory.wfFrom : Nat → Memory → Bool
  | _, [] => true
  | lo, (a, v) :: m =>
    decide (lo ≤ a) && (decide (a < Config.memSize) && (v != unlistedByte)) && Memory.wfFrom (a + 1) m

/-- The canonical form: addresses strictly rising and below `MEM_SIZE`, no entry equal to what an unlisted address
reads as. -/
def Memory.wf (m : Memory) : Bool := Memory.wfFrom 0 m

/-- The little-endian value of the `n` bytes from address `a` on (20_memory.md R52, R54), at width `k`. -/
def Memory.readBytes (m : Memory) (a k : Nat) : Nat → BitVec k
  | 0 => 0#k
  | n + 1 => Memory.readBytes m a k n ||| ((Memory.byte m (a + n)).setWidth k <<< (8 * n))

/-- `mem[a+k] <- v[8k+7:8k]` for `k` in 0..n-1 (20_memory.md R55). -/
def Memory.writeBytes (m : Memory) (a : Nat) {k : Nat} (v : BitVec k) : Nat → Memory
  | 0 => m
  | n + 1 => Memory.setByte (Memory.writeBytes m a v n) (a + n) (v.extractLsb' (8 * n) 8)

/-! ### Memory accesses -/

/-- Every byte `addr` .. `addr+n-1` is below `MEM_SIZE` (20_memory.md R53). -/
def inBounds (addr : DWord) (n : Nat) : Bool := decide (addr.toNat + n ≤ Config.memSize)

/-- `MemRead(addr, n)` with `n` the size of the width: bound check, then the little-endian value
(20_memory.md R54, R56). -/
def State.memRead (s : State) (addr : DWord) (w : Width) (kind : AccessKind) : Except Cause (BitVec w.bits) :=
  if inBounds addr w.bytes then .ok (s.mem.readBytes addr.toNat w.bits w.bytes)
  else .error (.memoryBoundViolation addr w.bytes kind)

/-- `MemWrite(addr, n, v)` with `n` the size of the width: bound check of the whole access, then its bytes
(20_memory.md R55, R56). -/
def State.memWrite (s : State) (addr : DWord) (w : Width) (v : BitVec w.bits) : Except Cause State :=
  if inBounds addr w.bytes then .ok (s.setMem (s.mem.writeBytes addr.toNat v w.bytes))
  else .error (.memoryBoundViolation addr w.bytes .store)

/-- `Fetch()`: the 32-bit word at `pc`, whatever its alignment (20_memory.md R57, 10_state.md R28). -/
def State.fetch (s : State) : Except Cause Word := s.memRead s.pc .w32 .fetch

end Sys2Proof.Machine
end

