-- ==== Sys2Proof/Machine/Flags.lean ====
section
/-! DEFINITION. Every flag computation of the spec: the arithmetic core `AddSub`, the flags of the logical flag-setters, and
the conditions that B.cond evaluates. -/

namespace Sys2Proof.Machine

/-- What the arithmetic core returns: the result and the four flags (10_state.md R33). -/
structure AddSubResult (n : Nat) where
  result : BitVec n
  flags : Flags
  deriving DecidableEq, Repr

/-- The addition half of `AddSub`: C is the unsigned carry out, V the signed overflow (10_state.md R33). -/
def addWithFlags {n : Nat} (a b : BitVec n) : AddSubResult n :=
  let r := a + b
  { result := r
    flags :=
      { n := r.msb
        z := decide (r = 0#n)
        c := decide (2 ^ n ≤ a.toNat + b.toNat)
        v := (a.msb == b.msb) && (r.msb != a.msb) } }

/-- The subtraction half of `AddSub`: C = 1 means no borrow, V is the signed overflow (10_state.md R33). -/
def subWithFlags {n : Nat} (a b : BitVec n) : AddSubResult n :=
  let r := a - b
  { result := r
    flags :=
      { n := r.msb
        z := decide (r = 0#n)
        c := decide (b.toNat ≤ a.toNat)
        v := (a.msb != b.msb) && (r.msb != a.msb) } }

/-- `AddSub(W, a, b, is_sub)` (10_state.md R33). -/
def addSub {n : Nat} (a b : BitVec n) (isSub : Bool) : AddSubResult n :=
  if isSub then subWithFlags a b else addWithFlags a b

/-- The flags of ANDS and BICS: N and Z from the result, C and V cleared (10_state.md R32, R34). -/
def logicalFlags {n : Nat} (r : BitVec n) : Flags :=
  { n := r.msb, z := decide (r = 0#n), c := false, v := false }

/-- `CondHolds(cond)` (43_branch.md R222). LT holds when N and V differ (90_conflicts.md C1). -/
def condHolds (f : Flags) : Cond → Bool
  | .eq => f.z
  | .ne => !f.z
  | .ge => f.n == f.v
  | .lt => f.n != f.v
  | .gt => !f.z && (f.n == f.v)
  | .le => !(!f.z && (f.n == f.v))
  | .al => true

end Sys2Proof.Machine
end

