-- ==== Sys2Proof/Machine/Operands.lean ====
section
/-! DEFINITION. Every operand form of the spec: immediates (30_encoding.md R106 to R111), the shift primitive and the shifted
second operand (42_dp_register.md R180, R182), and the effective addresses (44_load_store.md R251). -/

namespace Sys2Proof.Machine

/-- The immediate of the four arithmetic instructions: unsigned, shifted left by 12 if `sh`
(30_encoding.md R106, 41_dp_immediate.md R159). -/
def arithmeticImmediate (w : Width) (sh : Bool) (imm12 : BitVec 12) : BitVec w.bits :=
  imm12.setWidth w.bits <<< (if sh then 12 else 0)

/-- The wide-move operand: the immediate in half-word slot `hw` (30_encoding.md R107). -/
def wideImmediate (hw : BitVec 2) (imm16 : BitVec 16) : DWord :=
  imm16.setWidth 64 <<< (16 * hw.toNat)

/-- The half-word slot that MOVK overwrites, as a mask at the operating width (41_dp_immediate.md R166). -/
def wideMask (w : Width) (hw : BitVec 2) : BitVec w.bits :=
  (0xFFFF#64 <<< (16 * hw.toNat)).setWidth w.bits

/-- `ShiftOp(W, v, type, amount)` for an amount below the width (42_dp_register.md R182). -/
def shiftOp {n : Nat} (v : BitVec n) (shift : ShiftType) (amount : Nat) : BitVec n :=
  match shift with
  | .lsl => v <<< amount
  | .lsr => v >>> amount
  | .asr => v.sshiftRight amount
  | .ror => (v >>> amount) ||| (v <<< (n - amount))

/-- The shifted second operand `op2` of a data-processing (register) instruction (42_dp_register.md R180). -/
def State.shiftedReg (s : State) (w : Width) (rm : Reg) (shift : ShiftType) (imm6 : BitVec 6) : BitVec w.bits :=
  shiftOp (s.readRegAt w rm) shift imm6.toNat

/-- `4 * sext_64(v)`, the byte offset of a word offset (30_encoding.md R108, R109). -/
def wordOffset {n : Nat} (v : BitVec n) : DWord := 4#64 * v.signExtend 64

/-- The address `pc` plus a word offset, relative to the instruction's own address
(10_state.md R26, 20_memory.md R67). -/
def State.pcRelative (s : State) {n : Nat} (v : BitVec n) : DWord := s.pc + wordOffset v

/-- The scaled byte offset of the unsigned-offset form (30_encoding.md R111). -/
def scaledOffset (w : Width) (imm12 : BitVec 12) : DWord := imm12.setWidth 64 * BitVec.ofNat 64 w.bytes

/-- The byte offset of the pre- and post-indexed forms (30_encoding.md R110). -/
def byteOffset (simm9 : BitVec 9) : DWord := simm9.signExtend 64

/-- The address of the unsigned-offset form (44_load_store.md R241, R242). -/
def State.unsignedAddress (s : State) (w : Width) (xn : Reg) (imm12 : BitVec 12) : DWord :=
  s.readReg xn + scaledOffset w imm12

/-- The base plus the signed byte offset: the address of the pre-indexed form, and the base after either indexed form
(44_load_store.md R243 to R246). -/
def State.indexedAddress (s : State) (xn : Reg) (simm9 : BitVec 9) : DWord :=
  s.readReg xn + byteOffset simm9

/-- The address of the register-offset form (44_load_store.md R248, R249). -/
def State.registerAddress (s : State) (xn xm : Reg) : DWord := s.readReg xn + s.readReg xm

end Sys2Proof.Machine
end

