-- ==== Sys2Proof/Machine/Branch.lean ====
section
/-! DEFINITION. Branches: B, B.cond, BR (43_branch.md). They set `pc` themselves; no register and no flag is written. -/

namespace Sys2Proof.Machine

/-- B: `pc` plus the word offset (43_branch.md R220). -/
def execB (simm26 : BitVec 26) (s : State) : Host.Outcome State Fault Refusal :=
  .next (s.setPc (s.pcRelative simm26))

/-- B.cond: to `pc` plus the word offset if the condition holds, else to `pc + 4` (43_branch.md R221). -/
def execBCond (simm19 : BitVec 19) (cond : Cond) (s : State) : Host.Outcome State Fault Refusal :=
  .next (if condHolds s.flags cond then s.setPc (s.pcRelative simm19) else s.advance)

/-- BR: `pc <- x[Xn]`, all 64 bits, not checked for alignment or bound (43_branch.md R223). -/
def execBr (xn : Reg) (s : State) : Host.Outcome State Fault Refusal :=
  .next (s.setPc (s.readReg xn))

end Sys2Proof.Machine
end

