-- ==== Sys2Proof/Machine/DpImmediate.lean ====
section
/-! DEFINITION. Data-processing (immediate): ADD, ADDS, SUB, SUBS, MOVN, MOVZ, MOVK (41_dp_immediate.md). -/

namespace Sys2Proof.Machine

/-- ADD and SUB on two operands already formed: the result to `rd`, no flag, `pc + 4`. -/
def finishArithmetic (w : Width) (rd : Reg) (r : AddSubResult w.bits) (s : State) : Host.Outcome State Fault Refusal :=
  .next (s.writeRegAt w rd r.result).advance

/-- ADDS and SUBS on two operands already formed: the four flags, the result to `rd`, `pc + 4`. -/
def finishArithmeticFlags (w : Width) (rd : Reg) (r : AddSubResult w.bits) (s : State) :
    Host.Outcome State Fault Refusal :=
  .next ((s.setFlags r.flags).writeRegAt w rd r.result).advance

/-- ADD (immediate) (41_dp_immediate.md R160). -/
def execAddImm (w : Width) (sh : Bool) (imm12 : BitVec 12) (rn rd : Reg) (s : State) :
    Host.Outcome State Fault Refusal :=
  finishArithmetic w rd (addSub (s.readRegAt w rn) (arithmeticImmediate w sh imm12) false) s

/-- ADDS (immediate) (41_dp_immediate.md R161). -/
def execAddsImm (w : Width) (sh : Bool) (imm12 : BitVec 12) (rn rd : Reg) (s : State) :
    Host.Outcome State Fault Refusal :=
  finishArithmeticFlags w rd (addSub (s.readRegAt w rn) (arithmeticImmediate w sh imm12) false) s

/-- SUB (immediate) (41_dp_immediate.md R162). -/
def execSubImm (w : Width) (sh : Bool) (imm12 : BitVec 12) (rn rd : Reg) (s : State) :
    Host.Outcome State Fault Refusal :=
  finishArithmetic w rd (addSub (s.readRegAt w rn) (arithmeticImmediate w sh imm12) true) s

/-- SUBS (immediate) (41_dp_immediate.md R163). -/
def execSubsImm (w : Width) (sh : Bool) (imm12 : BitVec 12) (rn rd : Reg) (s : State) :
    Host.Outcome State Fault Refusal :=
  finishArithmeticFlags w rd (addSub (s.readRegAt w rn) (arithmeticImmediate w sh imm12) true) s

/-- A wide move's end: the new value to `rd`, no flag, `pc + 4`. -/
def finishMove (w : Width) (rd : Reg) (v : BitVec w.bits) (s : State) : Host.Outcome State Fault Refusal :=
  .next (s.writeRegAt w rd v).advance

/-- MOVN: the complement, at the operating width, of the immediate in its slot (41_dp_immediate.md R164). -/
def execMovn (w : Width) (hw : BitVec 2) (imm16 : BitVec 16) (rd : Reg) (s : State) :
    Host.Outcome State Fault Refusal :=
  ifLegal (.movn w hw imm16 rd) s (finishMove w rd (~~~((wideImmediate hw imm16).setWidth w.bits)) s)

/-- MOVZ: the immediate in its slot, zero elsewhere (41_dp_immediate.md R165). -/
def execMovz (w : Width) (hw : BitVec 2) (imm16 : BitVec 16) (rd : Reg) (s : State) :
    Host.Outcome State Fault Refusal :=
  ifLegal (.movz w hw imm16 rd) s (finishMove w rd ((wideImmediate hw imm16).setWidth w.bits) s)

/-- MOVK: the immediate in its slot, the other half-words of `rd` kept (41_dp_immediate.md R166). -/
def execMovk (w : Width) (hw : BitVec 2) (imm16 : BitVec 16) (rd : Reg) (s : State) :
    Host.Outcome State Fault Refusal :=
  ifLegal (.movk w hw imm16 rd) s
    (finishMove w rd ((s.readRegAt w rd &&& ~~~(wideMask w hw)) ||| (wideImmediate hw imm16).setWidth w.bits) s)

end Sys2Proof.Machine
end

