-- ==== Sys2Proof/Machine/DpRegister.lean ====
section
/-! DEFINITION. Data-processing (register): arithmetic and logical with a shifted register, MADD, MSUB
(42_dp_register.md). -/

namespace Sys2Proof.Machine

/-- A logical operation's end without flags: the result to `rd`, `pc + 4`. -/
def finishLogical (w : Width) (rd : Reg) (r : BitVec w.bits) (s : State) : Host.Outcome State Fault Refusal :=
  .next (s.writeRegAt w rd r).advance

/-- The end of ANDS and BICS: N and Z from the result, C and V cleared, the result to `rd`, `pc + 4`. -/
def finishLogicalFlags (w : Width) (rd : Reg) (r : BitVec w.bits) (s : State) : Host.Outcome State Fault Refusal :=
  .next ((s.setFlags (logicalFlags r)).writeRegAt w rd r).advance

/-- ADD (shifted register) (42_dp_register.md R183). -/
def execAddReg (w : Width) (shift : ShiftType) (rm : Reg) (imm6 : BitVec 6) (rn rd : Reg) (s : State) :
    Host.Outcome State Fault Refusal :=
  ifLegal (.addReg w shift rm imm6 rn rd) s
    (finishArithmetic w rd (addSub (s.readRegAt w rn) (s.shiftedReg w rm shift imm6) false) s)

/-- ADDS (shifted register) (42_dp_register.md R184). -/
def execAddsReg (w : Width) (shift : ShiftType) (rm : Reg) (imm6 : BitVec 6) (rn rd : Reg) (s : State) :
    Host.Outcome State Fault Refusal :=
  ifLegal (.addsReg w shift rm imm6 rn rd) s
    (finishArithmeticFlags w rd (addSub (s.readRegAt w rn) (s.shiftedReg w rm shift imm6) false) s)

/-- SUB (shifted register) (42_dp_register.md R185). -/
def execSubReg (w : Width) (shift : ShiftType) (rm : Reg) (imm6 : BitVec 6) (rn rd : Reg) (s : State) :
    Host.Outcome State Fault Refusal :=
  ifLegal (.subReg w shift rm imm6 rn rd) s
    (finishArithmetic w rd (addSub (s.readRegAt w rn) (s.shiftedReg w rm shift imm6) true) s)

/-- SUBS (shifted register) (42_dp_register.md R186). -/
def execSubsReg (w : Width) (shift : ShiftType) (rm : Reg) (imm6 : BitVec 6) (rn rd : Reg) (s : State) :
    Host.Outcome State Fault Refusal :=
  ifLegal (.subsReg w shift rm imm6 rn rd) s
    (finishArithmeticFlags w rd (addSub (s.readRegAt w rn) (s.shiftedReg w rm shift imm6) true) s)

/-- AND (42_dp_register.md R187). -/
def execAnd (w : Width) (shift : ShiftType) (rm : Reg) (imm6 : BitVec 6) (rn rd : Reg) (s : State) :
    Host.Outcome State Fault Refusal :=
  ifLegal (.and w shift rm imm6 rn rd) s
    (finishLogical w rd (s.readRegAt w rn &&& s.shiftedReg w rm shift imm6) s)

/-- BIC (42_dp_register.md R188). The complement is taken after the shift, at the operating width. -/
def execBic (w : Width) (shift : ShiftType) (rm : Reg) (imm6 : BitVec 6) (rn rd : Reg) (s : State) :
    Host.Outcome State Fault Refusal :=
  ifLegal (.bic w shift rm imm6 rn rd) s
    (finishLogical w rd (s.readRegAt w rn &&& ~~~(s.shiftedReg w rm shift imm6)) s)

/-- ORR (42_dp_register.md R189). -/
def execOrr (w : Width) (shift : ShiftType) (rm : Reg) (imm6 : BitVec 6) (rn rd : Reg) (s : State) :
    Host.Outcome State Fault Refusal :=
  ifLegal (.orr w shift rm imm6 rn rd) s
    (finishLogical w rd (s.readRegAt w rn ||| s.shiftedReg w rm shift imm6) s)

/-- ORN (42_dp_register.md R190). The complement is taken after the shift, at the operating width. -/
def execOrn (w : Width) (shift : ShiftType) (rm : Reg) (imm6 : BitVec 6) (rn rd : Reg) (s : State) :
    Host.Outcome State Fault Refusal :=
  ifLegal (.orn w shift rm imm6 rn rd) s
    (finishLogical w rd (s.readRegAt w rn ||| ~~~(s.shiftedReg w rm shift imm6)) s)

/-- EOR (42_dp_register.md R191). -/
def execEor (w : Width) (shift : ShiftType) (rm : Reg) (imm6 : BitVec 6) (rn rd : Reg) (s : State) :
    Host.Outcome State Fault Refusal :=
  ifLegal (.eor w shift rm imm6 rn rd) s
    (finishLogical w rd (s.readRegAt w rn ^^^ s.shiftedReg w rm shift imm6) s)

/-- EON (42_dp_register.md R192). The complement is taken after the shift, at the operating width. -/
def execEon (w : Width) (shift : ShiftType) (rm : Reg) (imm6 : BitVec 6) (rn rd : Reg) (s : State) :
    Host.Outcome State Fault Refusal :=
  ifLegal (.eon w shift rm imm6 rn rd) s
    (finishLogical w rd (s.readRegAt w rn ^^^ ~~~(s.shiftedReg w rm shift imm6)) s)

/-- ANDS (42_dp_register.md R193). -/
def execAnds (w : Width) (shift : ShiftType) (rm : Reg) (imm6 : BitVec 6) (rn rd : Reg) (s : State) :
    Host.Outcome State Fault Refusal :=
  ifLegal (.ands w shift rm imm6 rn rd) s
    (finishLogicalFlags w rd (s.readRegAt w rn &&& s.shiftedReg w rm shift imm6) s)

/-- BICS (42_dp_register.md R194). The complement is taken after the shift, at the operating width. -/
def execBics (w : Width) (shift : ShiftType) (rm : Reg) (imm6 : BitVec 6) (rn rd : Reg) (s : State) :
    Host.Outcome State Fault Refusal :=
  ifLegal (.bics w shift rm imm6 rn rd) s
    (finishLogicalFlags w rd (s.readRegAt w rn &&& ~~~(s.shiftedReg w rm shift imm6)) s)

/-- A multiply's end: the low `W` bits to `rd`, no flag, `pc + 4`. -/
def finishMultiply (w : Width) (rd : Reg) (r : BitVec w.bits) (s : State) : Host.Outcome State Fault Refusal :=
  .next (s.writeRegAt w rd r).advance

/-- MADD: the low `W` bits of `Ra + Rn * Rm` (42_dp_register.md R195). -/
def execMadd (w : Width) (rm ra rn rd : Reg) (s : State) : Host.Outcome State Fault Refusal :=
  finishMultiply w rd (s.readRegAt w ra + s.readRegAt w rn * s.readRegAt w rm) s

/-- MSUB: the low `W` bits of `Ra - Rn * Rm` (42_dp_register.md R196). -/
def execMsub (w : Width) (rm ra rn rd : Reg) (s : State) : Host.Outcome State Fault Refusal :=
  finishMultiply w rd (s.readRegAt w ra - s.readRegAt w rn * s.readRegAt w rm) s

end Sys2Proof.Machine
end

