-- ==== Sys2Proof/Machine/Halt.lean ====
section
/-! DEFINITION. HALT (40_step_and_halt.md R141). -/

namespace Sys2Proof.Machine

/-- HALT: `halted <- 1` and nothing else; `pc` keeps the address of the halt word (40_step_and_halt.md R141). -/
def execHalt (s : State) : Host.Outcome State Fault Refusal := .next s.setHalted

end Sys2Proof.Machine
end

