-- ==== Sys2Proof/Machine/LoadStore.lean ====
section
/-! DEFINITION. Loads and stores: LDR and STR in four addressing forms, LDR (literal) (44_load_store.md). -/

namespace Sys2Proof.Machine

/-- A load's end: read memory, write back the base (`base` after `back`), write `rt`, `pc + 4`; a bound violation
abandons all of it (44_load_store.md R251, 60_exceptions.md R274). `back` writes the base, or is `id` where the
form writes no base. -/
def loadThen (w : Width) (addr : DWord) (rt : Reg) (back : State → State) (s : State) :
    Host.Outcome State Fault Refusal :=
  match s.memRead addr w .load with
  | .ok v => .next ((back s).writeRegAt w rt v).advance
  | .error c => .next (s.raise c)

/-- A store's end: write the low `W` bits of `rt` to memory, write back the base with `back`, `pc + 4`; a bound violation
abandons all of it (44_load_store.md R251, 60_exceptions.md R274). -/
def storeThen (w : Width) (addr : DWord) (rt : Reg) (back : State → State) (s : State) :
    Host.Outcome State Fault Refusal :=
  match s.memWrite addr w (s.readRegAt w rt) with
  | .ok t => .next (back t).advance
  | .error c => .next (s.raise c)

/-- LDR (unsigned offset) (44_load_store.md R241). -/
def execLdrUnsigned (w : Width) (imm12 : BitVec 12) (xn rt : Reg) (s : State) : Host.Outcome State Fault Refusal :=
  loadThen w (s.unsignedAddress w xn imm12) rt id s

/-- STR (unsigned offset) (44_load_store.md R242). -/
def execStrUnsigned (w : Width) (imm12 : BitVec 12) (xn rt : Reg) (s : State) : Host.Outcome State Fault Refusal :=
  storeThen w (s.unsignedAddress w xn imm12) rt id s

/-- LDR (pre-indexed): access at the updated address, which stays in the base (44_load_store.md R243). -/
def execLdrPre (w : Width) (simm9 : BitVec 9) (xn rt : Reg) (s : State) : Host.Outcome State Fault Refusal :=
  ifLegal (.ldrPre w simm9 xn rt) s
    (loadThen w (s.indexedAddress xn simm9) rt (fun t => t.writeReg xn (s.indexedAddress xn simm9)) s)

/-- STR (pre-indexed) (44_load_store.md R244). -/
def execStrPre (w : Width) (simm9 : BitVec 9) (xn rt : Reg) (s : State) : Host.Outcome State Fault Refusal :=
  ifLegal (.strPre w simm9 xn rt) s
    (storeThen w (s.indexedAddress xn simm9) rt (fun t => t.writeReg xn (s.indexedAddress xn simm9)) s)

/-- LDR (post-indexed): access at the old base, then the offset is added to the base (44_load_store.md R245). -/
def execLdrPost (w : Width) (simm9 : BitVec 9) (xn rt : Reg) (s : State) : Host.Outcome State Fault Refusal :=
  ifLegal (.ldrPost w simm9 xn rt) s
    (loadThen w (s.readReg xn) rt (fun t => t.writeReg xn (s.indexedAddress xn simm9)) s)

/-- STR (post-indexed) (44_load_store.md R246). -/
def execStrPost (w : Width) (simm9 : BitVec 9) (xn rt : Reg) (s : State) : Host.Outcome State Fault Refusal :=
  ifLegal (.strPost w simm9 xn rt) s
    (storeThen w (s.readReg xn) rt (fun t => t.writeReg xn (s.indexedAddress xn simm9)) s)

/-- LDR (register offset) (44_load_store.md R248). -/
def execLdrRegister (w : Width) (xm xn rt : Reg) (s : State) : Host.Outcome State Fault Refusal :=
  loadThen w (s.registerAddress xn xm) rt id s

/-- STR (register offset) (44_load_store.md R249). -/
def execStrRegister (w : Width) (xm xn rt : Reg) (s : State) : Host.Outcome State Fault Refusal :=
  storeThen w (s.registerAddress xn xm) rt id s

/-- LDR (literal): the address is relative to the instruction's own (44_load_store.md R250). -/
def execLdrLiteral (w : Width) (simm19 : BitVec 19) (rt : Reg) (s : State) : Host.Outcome State Fault Refusal :=
  loadThen w (s.pcRelative simm19) rt id s

end Sys2Proof.Machine
end

