-- ==== Sys2Proof/Machine/Dispatch.lean ====
section
/-! DEFINITION. One arm for every constructor of `Instr`, each one direct call of its meaning. -/

namespace Sys2Proof.Machine

def exec (i : Instr) (s : State) : Host.Outcome State Fault Refusal :=
  match i with
  | .halt => Sys2Proof.Machine.execHalt s
  | .addImm w sh imm12 rn rd => Sys2Proof.Machine.execAddImm w sh imm12 rn rd s
  | .addsImm w sh imm12 rn rd => Sys2Proof.Machine.execAddsImm w sh imm12 rn rd s
  | .subImm w sh imm12 rn rd => Sys2Proof.Machine.execSubImm w sh imm12 rn rd s
  | .subsImm w sh imm12 rn rd => Sys2Proof.Machine.execSubsImm w sh imm12 rn rd s
  | .movn w hw imm16 rd => Sys2Proof.Machine.execMovn w hw imm16 rd s
  | .movz w hw imm16 rd => Sys2Proof.Machine.execMovz w hw imm16 rd s
  | .movk w hw imm16 rd => Sys2Proof.Machine.execMovk w hw imm16 rd s
  | .addReg w shift rm imm6 rn rd => Sys2Proof.Machine.execAddReg w shift rm imm6 rn rd s
  | .addsReg w shift rm imm6 rn rd => Sys2Proof.Machine.execAddsReg w shift rm imm6 rn rd s
  | .subReg w shift rm imm6 rn rd => Sys2Proof.Machine.execSubReg w shift rm imm6 rn rd s
  | .subsReg w shift rm imm6 rn rd => Sys2Proof.Machine.execSubsReg w shift rm imm6 rn rd s
  | .and w shift rm imm6 rn rd => Sys2Proof.Machine.execAnd w shift rm imm6 rn rd s
  | .bic w shift rm imm6 rn rd => Sys2Proof.Machine.execBic w shift rm imm6 rn rd s
  | .orr w shift rm imm6 rn rd => Sys2Proof.Machine.execOrr w shift rm imm6 rn rd s
  | .orn w shift rm imm6 rn rd => Sys2Proof.Machine.execOrn w shift rm imm6 rn rd s
  | .eor w shift rm imm6 rn rd => Sys2Proof.Machine.execEor w shift rm imm6 rn rd s
  | .eon w shift rm imm6 rn rd => Sys2Proof.Machine.execEon w shift rm imm6 rn rd s
  | .ands w shift rm imm6 rn rd => Sys2Proof.Machine.execAnds w shift rm imm6 rn rd s
  | .bics w shift rm imm6 rn rd => Sys2Proof.Machine.execBics w shift rm imm6 rn rd s
  | .madd w rm ra rn rd => Sys2Proof.Machine.execMadd w rm ra rn rd s
  | .msub w rm ra rn rd => Sys2Proof.Machine.execMsub w rm ra rn rd s
  | .b simm26 => Sys2Proof.Machine.execB simm26 s
  | .bCond simm19 cond => Sys2Proof.Machine.execBCond simm19 cond s
  | .br xn => Sys2Proof.Machine.execBr xn s
  | .strUnsigned w imm12 xn rt => Sys2Proof.Machine.execStrUnsigned w imm12 xn rt s
  | .ldrUnsigned w imm12 xn rt => Sys2Proof.Machine.execLdrUnsigned w imm12 xn rt s
  | .strPost w simm9 xn rt => Sys2Proof.Machine.execStrPost w simm9 xn rt s
  | .strPre w simm9 xn rt => Sys2Proof.Machine.execStrPre w simm9 xn rt s
  | .ldrPost w simm9 xn rt => Sys2Proof.Machine.execLdrPost w simm9 xn rt s
  | .ldrPre w simm9 xn rt => Sys2Proof.Machine.execLdrPre w simm9 xn rt s
  | .strRegister w xm xn rt => Sys2Proof.Machine.execStrRegister w xm xn rt s
  | .ldrRegister w xm xn rt => Sys2Proof.Machine.execLdrRegister w xm xn rt s
  | .ldrLiteral w simm19 rt => Sys2Proof.Machine.execLdrLiteral w simm19 rt s

end Sys2Proof.Machine
end

