-- ==== Sys2Proof/Machine/Sequencer.lean ====
section
/-! DEFINITION. One cycle of the sequencer for a given halt word (40_step_and_halt.md R140, R144), and a run of cycles. -/

namespace Sys2Proof.Machine

/-- Decode a fetched word and run it; a rejected word raises its exception (40_step_and_halt.md R140,
30_encoding.md R124). -/
def execWord (halt w : Word) (s : State) : Host.Outcome State Fault Refusal :=
  match decodeWith halt w with
  | .ok i => exec i s
  | .error r => .next (s.raise (rejectCause w r))

/-- Fetch a word and run it; a fetch outside memory raises its exception (40_step_and_halt.md R140). -/
def cycle (halt : Word) (s : State) : Host.Outcome State Fault Refusal :=
  match s.fetch with
  | .ok w => execWord halt w s
  | .error c => .next (s.raise c)

/-- `Step()` for a given halt word. In a halted or faulted state there is no further step
(40_step_and_halt.md R140, R144). -/
def stepWith (halt : Word) (s : State) : Host.Outcome State Fault Refusal :=
  match s.fault with
  | some r => .fault (.faulted r)
  | none => if s.halted then .fault .halted else cycle halt s

/-- How far a run has come (40_step_and_halt.md R144, R145). -/
inductive RunEnd where
  /-- The run ended normally in this state: `halted` = 1. -/
  | normal (s : State)
  /-- The run ended in error in this state with this fault record. -/
  | error (s : State) (r : FaultRecord)
  /-- The run has not ended: the model's step count ran out, which is no event of the machine
  (92_eei_decisions.md D25). -/
  | running (s : State)
  deriving DecidableEq, Repr

/-- Whether a state ends the run, and how (40_step_and_halt.md R145). -/
def State.runEnd (s : State) : RunEnd :=
  match s.fault with
  | some r => .error s r
  | none => if s.halted then .normal s else .running s

/-- The run from a state, for at most `k` cycles (40_step_and_halt.md R144). -/
def runWith (halt : Word) : Nat → State → RunEnd
  | 0, s => s.runEnd
  | k + 1, s =>
    match stepWith halt s with
    | .next t => runWith halt k t
    | _ => s.runEnd

/-- The exit status the host reports: zero for a normal end, non-zero for an error (70_reset_and_hazards.md R305);
a run that never ends has none. -/
def RunEnd.exitZero : RunEnd → Option Bool
  | .normal _ => some true
  | .error _ _ => some false
  | .running _ => none

end Sys2Proof.Machine
end

