-- ==== Sys2Proof/Machine/Step.lean ====
section
/-! DEFINITION. The step of the machine and the placing of one word where it fetches next. Fixed names of the host. -/

namespace Sys2Proof.Machine

/-- `Step()` with the machine's halt word (40_step_and_halt.md R140). -/
def step (s : State) : Host.Outcome State Fault Refusal := stepWith haltWord s

/-- `s` with the instruction word `w` (bits from `nbits` on zero) stored at the `pc`, and ready to run it: not halted, no
fault recorded, and a `pc` that no fetch can use replaced by `RESET_PC`. It stands for the load of a program by
the host (70_reset_and_hazards.md R301; log entry 5). -/
def State.withFetchWord (s : State) (nbits w : Nat) : State :=
  let pc := if inBounds s.pc 4 then s.pc else Config.resetPc
  { s with
    pc := pc
    halted := false
    fault := none
    mem := s.mem.writeBytes pc.toNat (BitVec.ofNat 32 (w % 2 ^ nbits)) 4 }

end Sys2Proof.Machine
end

