-- ==== Sys2Proof/Machine/Toolchain.lean ====
section
/-! DEFINITION. Two parts of the toolchain's contract that 30_encoding.md section 11 records because they bound which words
an image holds: the aliases (R131) and the encoder's range checks (R132). The source lines they serve are in
Machine/Assembler.lean. Nothing in the core depends on either. -/

namespace Sys2Proof.Machine

/-! ### Aliases (30_encoding.md R131) -/

/-- `mul Rd, Rn, Rm` is `madd Rd, Rn, Rm, zr`. -/
def aliasMul (w : Width) (rd rn rm : Reg) : Instr := .madd w rm .zr rn rd

/-- `mneg Rd, Rn, Rm` is `msub Rd, Rn, Rm, zr`. -/
def aliasMneg (w : Width) (rd rn rm : Reg) : Instr := .msub w rm .zr rn rd

/-- `cmp Rn, Rm, shift #amount` is `subs zr, Rn, Rm, shift #amount`. -/
def aliasCmpReg (w : Width) (rn rm : Reg) (shift : ShiftType) (amount : BitVec 6) : Instr :=
  .subsReg w shift rm amount rn .zr

/-- `cmp Rn, #imm` is `subs zr, Rn, #imm`. -/
def aliasCmpImm (w : Width) (rn : Reg) (sh : Bool) (imm12 : BitVec 12) : Instr := .subsImm w sh imm12 rn .zr

/-- `cmn Rn, Rm, shift #amount` is `adds zr, Rn, Rm, shift #amount`. -/
def aliasCmnReg (w : Width) (rn rm : Reg) (shift : ShiftType) (amount : BitVec 6) : Instr :=
  .addsReg w shift rm amount rn .zr

/-- `cmn Rn, #imm` is `adds zr, Rn, #imm`. -/
def aliasCmnImm (w : Width) (rn : Reg) (sh : Bool) (imm12 : BitVec 12) : Instr := .addsImm w sh imm12 rn .zr

/-- `tst Rn, Rm, shift #amount` is `ands zr, Rn, Rm, shift #amount`. -/
def aliasTst (w : Width) (rn rm : Reg) (shift : ShiftType) (amount : BitVec 6) : Instr :=
  .ands w shift rm amount rn .zr

/-- `neg Rd, Rm, shift #amount` is `sub Rd, zr, Rm, shift #amount`. -/
def aliasNegReg (w : Width) (rd rm : Reg) (shift : ShiftType) (amount : BitVec 6) : Instr :=
  .subReg w shift rm amount .zr rd

/-- `neg Rd, #imm` is `sub Rd, zr, #imm`. -/
def aliasNegImm (w : Width) (rd : Reg) (sh : Bool) (imm12 : BitVec 12) : Instr := .subImm w sh imm12 .zr rd

/-- `negs Rd, Rm, shift #amount` is `subs Rd, zr, Rm, shift #amount`. -/
def aliasNegsReg (w : Width) (rd rm : Reg) (shift : ShiftType) (amount : BitVec 6) : Instr :=
  .subsReg w shift rm amount .zr rd

/-- `negs Rd, #imm` is `subs Rd, zr, #imm`. -/
def aliasNegsImm (w : Width) (rd : Reg) (sh : Bool) (imm12 : BitVec 12) : Instr := .subsImm w sh imm12 .zr rd

/-- `mvn Rd, Rm, shift #amount` is `orn Rd, zr, Rm, shift #amount`. -/
def aliasMvn (w : Width) (rd rm : Reg) (shift : ShiftType) (amount : BitVec 6) : Instr :=
  .orn w shift rm amount .zr rd

/-- `mov Rd, Rm` is `orr Rd, zr, Rm`. -/
def aliasMov (w : Width) (rd rm : Reg) : Instr := .orr w .lsl rm 0#6 .zr rd

/-! ### Range checks of the encoder (30_encoding.md R132)

A source immediate is an integer of either sign; a value that fails its check is a local error, `none`. -/

/-- An unsigned field of `n` bits holds the value, which is not negative (30_encoding.md R106: never sign-extended). -/
def checkUnsigned (n : Nat) (v : Int) : Option (BitVec n) :=
  if 0 ≤ v ∧ v < 2 ^ n then some (BitVec.ofInt n v) else none

/-- An arithmetic immediate fits 12 bits. -/
def checkArithmeticImmediate (v : Int) : Option (BitVec 12) := checkUnsigned 12 v

/-- A wide-move shift is a multiple of 16 from 0 to 48; it becomes the half-word index. -/
def checkWideMoveShift (shift : Int) : Option (BitVec 2) :=
  if shift % 16 = 0 then checkUnsigned 2 (shift / 16) else none

/-- A branch or literal offset `(target - current) >> 2` fits `n` signed bits. -/
def checkWordOffset (n : Nat) (target current : Int) : Option (BitVec n) :=
  let d := (target - current) >>> (2 : Nat)
  if -(2 : Int) ^ (n - 1) ≤ d ∧ d < (2 : Int) ^ (n - 1) then some (BitVec.ofInt n d) else none

/-- An unsigned-offset offset is a multiple of the access size and fits 12 bits after scaling. -/
def checkScaledOffset (w : Width) (offset : Int) : Option (BitVec 12) :=
  if offset % w.bytes = 0 then checkUnsigned 12 (offset / w.bytes) else none

/-- A pre- or post-index offset lies in -256 .. 255. -/
def checkIndexOffset (offset : Int) : Option (BitVec 9) :=
  if -256 ≤ offset ∧ offset ≤ 255 then some (BitVec.ofInt 9 offset) else none

/-- The word the assembler emits: a local error emits the zero word (30_encoding.md R126, R132). -/
def emittedWord : Option Instr → Word
  | some i => encode i
  | none => 0#32

end Sys2Proof.Machine
end

