-- ==== Sys2Proof/Machine/Assembler.lean ====
section
/-! DEFINITION. The toolchain's source lines as parsed, and the words they become (30_encoding.md R129 to R134): labels, the
operand forms of R130, the aliases of R131, and the local errors of R132, whose word is zero. A mnemonic or a token that the
assembler does not know is fatal to it (R132) and has no term here. Nothing in the core depends on it. -/

namespace Sys2Proof.Machine

/-! ### The source (30_encoding.md R128, R130) -/

/-- A register operand: an `x` or a `w` register, `xzr` or `wzr`. -/
structure SourceReg where
  width : Width
  reg : Reg
  deriving DecidableEq, Repr

/-- A written shift: `lsl`, `lsr`, `asr` or `ror` with its amount. -/
structure SourceShift where
  type : ShiftType
  amount : Int
  deriving DecidableEq, Repr

/-- The one Operand of R130: register, shifted register, immediate, shifted immediate. -/
inductive SourceOperand where
  | register (r : SourceReg) (shift : Option SourceShift)
  | immediate (v : Int) (shift : Option SourceShift)
  deriving DecidableEq, Repr

/-- The address of a load or store, in the forms of R130. DESIGN CHOICE: an address of another shape (`[Xn, Xm, lsl #3]`) has
no term, because the spec does not say whether it is a local error or shut out by the parser (log entry 19). -/
inductive SourceAddress where
  /-- `[Xn]`. -/
  | base (xn : SourceReg)
  /-- `[Xn, #imm]`. -/
  | offset (xn : SourceReg) (imm : Int)
  /-- `[Xn, #imm]!`. -/
  | preIndexed (xn : SourceReg) (imm : Int)
  /-- `[Xn], #imm`. -/
  | postIndexed (xn : SourceReg) (imm : Int)
  /-- `[Xn, Xm]`. -/
  | registerOffset (xn xm : SourceReg)
  /-- A label, no brackets. -/
  | label (name : String)
  /-- An integer, no brackets. -/
  | integer (v : Int)
  deriving DecidableEq, Repr

inductive ArithmeticMnemonic where
  | add
  | adds
  | sub
  | subs
  deriving DecidableEq, Repr

inductive LogicalMnemonic where
  | and
  | bic
  | orr
  | orn
  | eor
  | eon
  | ands
  | bics
  deriving DecidableEq, Repr

inductive WideMnemonic where
  | movn
  | movz
  | movk
  deriving DecidableEq, Repr

/-- An instruction line: the mnemonics of R130, then the aliases of R131, with the operands as written. DESIGN CHOICE:
operands of a shape that no mnemonic of its kind takes (an immediate for `madd` or `br`, a register for the immediate of
`movz`) have no term, because the spec does not say whether such a line is a local error or shut out by the parser (log
entry 19). -/
inductive SourceInstr where
  | arithmetic (m : ArithmeticMnemonic) (rd rn : SourceReg) (op : SourceOperand)
  | logical (m : LogicalMnemonic) (rd rn : SourceReg) (op : SourceOperand)
  | wide (m : WideMnemonic) (rd : SourceReg) (imm : Int) (shift : Option SourceShift)
  | madd (rd rn rm ra : SourceReg)
  | msub (rd rn rm ra : SourceReg)
  | b (label : String)
  | bCond (cond : Cond) (label : String)
  | br (xn : SourceReg)
  | ldr (rt : SourceReg) (address : SourceAddress)
  | str (rt : SourceReg) (address : SourceAddress)
  | mul (rd rn rm : SourceReg)
  | mneg (rd rn rm : SourceReg)
  | cmp (rn : SourceReg) (op : SourceOperand)
  | cmn (rn : SourceReg) (op : SourceOperand)
  | tst (rn : SourceReg) (op : SourceOperand)
  | neg (rd : SourceReg) (op : SourceOperand)
  | negs (rd : SourceReg) (op : SourceOperand)
  | mvn (rd : SourceReg) (op : SourceOperand)
  | mov (rd : SourceReg) (op : SourceOperand)
  deriving DecidableEq, Repr

/-- A source line that matters to addresses: a label, an instruction, or an `.int` directive with the word it emits verbatim
(R133). DESIGN CHOICE: the operand of `.int` is the raw 32-bit value itself; one written negative or too large for 32 bits has
no term, because the spec does not say whether it is truncated, read as two's complement or an error (log entry 20). -/
inductive SourceLine where
  | label (name : String)
  | instruction (i : SourceInstr)
  | int (w : Word)
  deriving DecidableEq, Repr

/-! ### Operands: `none` is a local error, an unsupported combination or a failed range check (30_encoding.md R132) -/

/-- The register number of an operand that must have width `w` (R130: registers of one width). -/
def registerAt (w : Width) (r : SourceReg) : Option Reg := if r.width = w then some r.reg else none

/-- The shift of a register operand; `ror` only where the mnemonic has it (R130). The amount is the 6-bit field's; an amount
of 32 or more with 32-bit registers is encoded, and the core rejects the word (R112). -/
def checkRegisterShift (rorToo : Bool) : Option SourceShift → Option (ShiftType × BitVec 6)
  | none => some (.lsl, 0#6)
  | some sh => if sh.type = .ror ∧ rorToo = false then none else (checkUnsigned 6 sh.amount).map (sh.type, ·)

/-- The pre-shift flag of an arithmetic immediate: `lsl #12` or nothing (R130). -/
def checkImmediateShift : Option SourceShift → Option Bool
  | none => some false
  | some sh => if sh.type = .lsl ∧ sh.amount = 12 then some true else none

/-- The half-word index of a wide move: `lsl` and a legal amount, or nothing. -/
def checkHalfWord : Option SourceShift → Option (BitVec 2)
  | none => some 0#2
  | some sh => if sh.type = .lsl then checkWideMoveShift sh.amount else none

/-- A register or shifted register operand of width `w`, given to the instruction that takes it. -/
def onRegister (w : Width) (rorToo : Bool) (r : SourceReg) (shift : Option SourceShift)
    (k : ShiftType → Reg → BitVec 6 → Instr) : Option Instr := do
  let rm ← registerAt w r
  let (t, amount) ← checkRegisterShift rorToo shift
  some (k t rm amount)

/-- An immediate operand selects the immediate class, a register operand the register class (R130). -/
def arithmeticOperand (w : Width) (op : SourceOperand) (onImm : Bool → BitVec 12 → Instr)
    (onReg : ShiftType → Reg → BitVec 6 → Instr) : Option Instr :=
  match op with
  | .immediate v shift => do
    let sh ← checkImmediateShift shift
    let imm12 ← checkArithmeticImmediate v
    some (onImm sh imm12)
  | .register r shift => onRegister w false r shift onReg

/-- There is no logical-immediate class: an immediate is an unsupported operand (R131, of `tst`). -/
def logicalOperand (w : Width) (op : SourceOperand) (onReg : ShiftType → Reg → BitVec 6 → Instr) : Option Instr :=
  match op with
  | .immediate _ _ => none
  | .register r shift => onRegister w true r shift onReg

/-! ### Instructions -/

/-- The immediate form of an arithmetic mnemonic. -/
def ArithmeticMnemonic.immediateForm (m : ArithmeticMnemonic) (w : Width) (rd rn : Reg) (sh : Bool) (imm12 : BitVec 12) :
    Instr :=
  match m with
  | .add => .addImm w sh imm12 rn rd
  | .adds => .addsImm w sh imm12 rn rd
  | .sub => .subImm w sh imm12 rn rd
  | .subs => .subsImm w sh imm12 rn rd

/-- The shifted-register form of an arithmetic mnemonic. -/
def ArithmeticMnemonic.registerForm (m : ArithmeticMnemonic) (w : Width) (rd rn : Reg) (t : ShiftType) (rm : Reg)
    (imm6 : BitVec 6) : Instr :=
  match m with
  | .add => .addReg w t rm imm6 rn rd
  | .adds => .addsReg w t rm imm6 rn rd
  | .sub => .subReg w t rm imm6 rn rd
  | .subs => .subsReg w t rm imm6 rn rd

/-- The shifted-register form of a logical mnemonic. -/
def LogicalMnemonic.registerForm (m : LogicalMnemonic) (w : Width) (rd rn : Reg) (t : ShiftType) (rm : Reg)
    (imm6 : BitVec 6) : Instr :=
  match m with
  | .and => .and w t rm imm6 rn rd
  | .bic => .bic w t rm imm6 rn rd
  | .orr => .orr w t rm imm6 rn rd
  | .orn => .orn w t rm imm6 rn rd
  | .eor => .eor w t rm imm6 rn rd
  | .eon => .eon w t rm imm6 rn rd
  | .ands => .ands w t rm imm6 rn rd
  | .bics => .bics w t rm imm6 rn rd

/-- The instruction of a wide-move mnemonic. -/
def WideMnemonic.form (m : WideMnemonic) (w : Width) (rd : Reg) (hw : BitVec 2) (imm16 : BitVec 16) : Instr :=
  match m with
  | .movn => .movn w hw imm16 rd
  | .movz => .movz w hw imm16 rd
  | .movk => .movk w hw imm16 rd

/-- `ldr` (`load`) or `str` with an address (R130). A label that the table does not hold is a local error, and `str` has no
literal form (R132, 44_load_store.md R250). An integer is an absolute target by the same formula (R250). -/
def accessInstr (labels : String → Option Nat) (current : Nat) (load : Bool) (rt : SourceReg) : SourceAddress → Option Instr
  | .base xn => do
    let base ← registerAt .w64 xn
    some (if load then .ldrUnsigned rt.width 0#12 base rt.reg else .strUnsigned rt.width 0#12 base rt.reg)
  | .offset xn imm => do
    let base ← registerAt .w64 xn
    let f ← checkScaledOffset rt.width imm
    some (if load then .ldrUnsigned rt.width f base rt.reg else .strUnsigned rt.width f base rt.reg)
  | .preIndexed xn imm => do
    let base ← registerAt .w64 xn
    let f ← checkIndexOffset imm
    some (if load then .ldrPre rt.width f base rt.reg else .strPre rt.width f base rt.reg)
  | .postIndexed xn imm => do
    let base ← registerAt .w64 xn
    let f ← checkIndexOffset imm
    some (if load then .ldrPost rt.width f base rt.reg else .strPost rt.width f base rt.reg)
  | .registerOffset xn xm => do
    let base ← registerAt .w64 xn
    let offset ← registerAt .w64 xm
    some (if load then .ldrRegister rt.width offset base rt.reg else .strRegister rt.width offset base rt.reg)
  | .label name => do
    let target ← labels name
    let f ← checkWordOffset 19 target current
    if load then some (.ldrLiteral rt.width f rt.reg) else none
  | .integer v => do
    let f ← checkWordOffset 19 v current
    if load then some (.ldrLiteral rt.width f rt.reg) else none

/-- The instruction of a line at address `current`, or `none` for a local error: a failed range check, an unresolved label,
an unsupported operand or addressing combination (30_encoding.md R130 to R132). -/
def slotInstr (labels : String → Option Nat) (current : Nat) : SourceInstr → Option Instr
  | .arithmetic m rd rn op => do
    let n ← registerAt rd.width rn
    arithmeticOperand rd.width op (m.immediateForm rd.width rd.reg n) (m.registerForm rd.width rd.reg n)
  | .logical m rd rn op => do
    let n ← registerAt rd.width rn
    logicalOperand rd.width op (m.registerForm rd.width rd.reg n)
  | .wide m rd imm shift => do
    let hw ← checkHalfWord shift
    let imm16 ← checkUnsigned 16 imm
    some (m.form rd.width rd.reg hw imm16)
  | .madd rd rn rm ra => do
    let n ← registerAt rd.width rn
    let m ← registerAt rd.width rm
    let a ← registerAt rd.width ra
    some (.madd rd.width m a n rd.reg)
  | .msub rd rn rm ra => do
    let n ← registerAt rd.width rn
    let m ← registerAt rd.width rm
    let a ← registerAt rd.width ra
    some (.msub rd.width m a n rd.reg)
  | .b name => do
    let target ← labels name
    let f ← checkWordOffset 26 target current
    some (.b f)
  | .bCond cond name => do
    let target ← labels name
    let f ← checkWordOffset 19 target current
    some (.bCond f cond)
  | .br xn => (registerAt .w64 xn).map .br
  | .ldr rt address => accessInstr labels current true rt address
  | .str rt address => accessInstr labels current false rt address
  | .mul rd rn rm => do
    let n ← registerAt rd.width rn
    let m ← registerAt rd.width rm
    some (aliasMul rd.width rd.reg n m)
  | .mneg rd rn rm => do
    let n ← registerAt rd.width rn
    let m ← registerAt rd.width rm
    some (aliasMneg rd.width rd.reg n m)
  | .cmp rn op =>
    arithmeticOperand rn.width op (aliasCmpImm rn.width rn.reg) (fun t rm a => aliasCmpReg rn.width rn.reg rm t a)
  | .cmn rn op =>
    arithmeticOperand rn.width op (aliasCmnImm rn.width rn.reg) (fun t rm a => aliasCmnReg rn.width rn.reg rm t a)
  | .tst rn op => logicalOperand rn.width op (fun t rm a => aliasTst rn.width rn.reg rm t a)
  | .neg rd op =>
    arithmeticOperand rd.width op (aliasNegImm rd.width rd.reg) (fun t rm a => aliasNegReg rd.width rd.reg rm t a)
  | .negs rd op =>
    arithmeticOperand rd.width op (aliasNegsImm rd.width rd.reg) (fun t rm a => aliasNegsReg rd.width rd.reg rm t a)
  | .mvn rd op => logicalOperand rd.width op (fun t rm a => aliasMvn rd.width rd.reg rm t a)
  | .mov rd op =>
    match op with
    | .register r none => (registerAt rd.width r).map (aliasMov rd.width rd.reg)
    | _ => none

/-! ### Addresses, labels, the image (30_encoding.md R129, R133, R134) -/

/-- How many slots of 4 bytes the lines take: one for each instruction and directive, none for a label (R129). -/
def slotCount : List SourceLine → Nat
  | [] => 0
  | .label _ :: ls => slotCount ls
  | .instruction _ :: ls => slotCount ls + 1
  | .int _ :: ls => slotCount ls + 1

/-- The address of a label in lines that start at address `a`: a label takes no slot, every other line takes 4 bytes,
and a later definition overwrites an earlier one (R129). -/
def labelAddress : Nat → List SourceLine → String → Option Nat
  | _, [], _ => none
  | a, .instruction _ :: ls, q => labelAddress (a + 4) ls q
  | a, .int _ :: ls, q => labelAddress (a + 4) ls q
  | a, .label n :: ls, q =>
    match labelAddress a ls q with
    | some r => some r
    | none => if n = q then some a else none

/-- The words of lines that start at address `a`, in program order; a local error emits the zero word and encoding
continues (R132, R134). -/
def assembleFrom (labels : String → Option Nat) : Nat → List SourceLine → List Word
  | _, [] => []
  | a, .label _ :: ls => assembleFrom labels a ls
  | a, .instruction i :: ls => emittedWord (slotInstr labels a i) :: assembleFrom labels (a + 4) ls
  | a, .int w :: ls => w :: assembleFrom labels (a + 4) ls

/-- The words of a program: labels are resolved over all of it, before or after their use (R129). -/
def assemble (lines : List SourceLine) : List Word := assembleFrom (labelAddress 0 lines) 0 lines

/-- The addresses of the lines that get a diagnostic, one for each local error (R132). -/
def localErrorsFrom (labels : String → Option Nat) : Nat → List SourceLine → List Nat
  | _, [] => []
  | a, .label _ :: ls => localErrorsFrom labels a ls
  | a, .instruction i :: ls =>
    if slotInstr labels a i = none then a :: localErrorsFrom labels (a + 4) ls else localErrorsFrom labels (a + 4) ls
  | a, .int _ :: ls => localErrorsFrom labels (a + 4) ls

/-- The addresses of a program's local errors. -/
def localErrors (lines : List SourceLine) : List Nat := localErrorsFrom (labelAddress 0 lines) 0 lines

end Sys2Proof.Machine
end

