-- ==== Sys2Proof/Machine/HostInterface.lean ====
section
/-! DEFINITION. What the host does with the core (70_reset_and_hazards.md R305): reset and load (R301, R302) and observe
(R306). The run between them has no input. -/

namespace Sys2Proof.Machine

/-! ### Reset and load -/

/-- The image of a program: its words, each least significant byte first (30_encoding.md R134). -/
def imageOfWords (words : List Word) : List Byte := words.flatMap bytesOfWord

/-- The memory that holds byte `k` of the image at address `a + k` and 0 elsewhere (70_reset_and_hazards.md R301). -/
def imageMemory : Nat → List Byte → Memory
  | _, [] => []
  | a, v :: vs => if v = unlistedByte then imageMemory (a + 1) vs else (a, v) :: imageMemory (a + 1) vs

/-- Reset and load: the reset state with the image at `LOAD_BASE`; an image longer than memory is refused and no run
starts (70_reset_and_hazards.md R300 to R302). -/
def loadImage (image : List Byte) : Host.Outcome State Fault Refusal :=
  if image.length ≤ Config.memSize then
    .next { State.reset with mem := imageMemory Config.loadBase image }
  else .refused (.imageTooLong image.length)

/-! ### Observe -/

/-- The content of the state dump, as a function of the final state (70_reset_and_hazards.md R306). -/
structure Observation where
  /-- `x[0]` .. `x[30]`. -/
  registers : List DWord
  pc : DWord
  /-- The letters or `-`, in the order N, Z, C, V. -/
  flags : List Char
  /-- The non-zero little-endian 32-bit words at the addresses 0, 4, 8, ..., in increasing order. -/
  words : List (Nat × Word)
  deriving DecidableEq, Repr

/-- A flag as the dump shows it: its letter when 1, `-` when 0 (10_state.md R29). -/
def flagChar (letter : Char) (set : Bool) : Char := if set then letter else '-'

/-- The four flags as the dump shows them (10_state.md R29). -/
def Flags.letters (f : Flags) : List Char :=
  [flagChar 'N' f.n, flagChar 'Z' f.z, flagChar 'C' f.c, flagChar 'V' f.v]

/-- The pair (`4 * j`, the word there) when that word is not zero (70_reset_and_hazards.md R306). -/
def Memory.wordEntry (m : Memory) (j : Nat) : Option (Nat × Word) :=
  let v := m.readBytes (4 * j) 32 4
  if v = 0#32 then none else some (4 * j, v)

/-- The memory part of the dump: the scan of 70_reset_and_hazards.md R306 over every aligned word of memory. -/
def Memory.nonzeroWords (m : Memory) : List (Nat × Word) :=
  (List.range (Config.memSize / 4)).filterMap m.wordEntry

/-- The word numbers that have a listed byte, each once, in the order of the list. -/
def Memory.listedWords : Memory → List Nat
  | [] => []
  | [(a, _)] => [a / 4]
  | (a, _) :: (b, u) :: m =>
    if a / 4 = b / 4 then Memory.listedWords ((b, u) :: m) else (a / 4) :: Memory.listedWords ((b, u) :: m)

/-- The same dump computed from the listed bytes alone, without scanning memory. -/
def Memory.nonzeroWordsFast (m : Memory) : List (Nat × Word) := m.listedWords.filterMap m.wordEntry

/-- What the host reads of a state. -/
def State.dump (s : State) : Observation where
  registers := s.x.toList
  pc := s.pc
  flags := s.flags.letters
  words := s.mem.nonzeroWords

/-- The observation: defined for a normal end only (70_reset_and_hazards.md R306). -/
def State.observe (s : State) : Option Observation :=
  match s.runEnd with
  | .normal t => some t.dump
  | _ => none

/-- Reset and load an image, run it for at most `k` cycles, and say how the run stands (70_reset_and_hazards.md R305).
`none` where the host refuses the image. -/
def emulateWith (halt : Word) (image : List Byte) (k : Nat) : Option RunEnd :=
  match loadImage image with
  | .next s => some (runWith halt k s)
  | _ => none

end Sys2Proof.Machine
end

