-- ==== Sys2Proof/Safety.lean ====
section
/-! DEFINITION. What counts as a sound state and a safe run, and the vocabulary that the statements use: numbers where the
spec has numbers, and frames. -/

namespace Sys2Proof.Machine

/-! ### Runs -/

/-- The state in which the sequencer performs a cycle (40_step_and_halt.md R140). -/
def State.Running (s : State) : Prop := s.halted = false ∧ s.fault = none

/-- A run that never records a fault (40_step_and_halt.md R145). -/
def SafeRun (halt : Word) (s : State) : Prop := ∀ k t r, runWith halt k s ≠ .error t r

/-! ### The invariant -/

/-- The fault record agrees with the state it stands in: it names the `pc` that the state still has, and its cause is
true of that state (60_exceptions.md R270 to R275). -/
def FaultRecord.Sound (halt : Word) (r : FaultRecord) (s : State) : Prop :=
  r.pc = s.pc ∧
  match r.cause with
  | .memoryBoundViolation addr n kind =>
    (n = 4 ∨ n = 8) ∧ Config.memSize < addr.toNat + n ∧ (kind = .fetch ↔ s.fetch = .error r.cause) ∧
      (kind = .fetch → addr = s.pc ∧ n = 4)
  | .unknownClass w => s.fetch = .ok w ∧ w ≠ halt ∧ classOf w = none
  | .undefinedInstruction w =>
    s.fetch = .ok w ∧ w ≠ halt ∧ classOf w ≠ none ∧ ∃ why, decodeWith halt w = .error (.undefinedInstruction why)

/-- What holds of every state of a run: the memory has its canonical form; a halted machine has no fault and stands on the
halt word; a fault record agrees with the state, and is the one that the state's own cycle raises when it is taken away (so
the effective address of a load or store that left memory is the one its instruction computes, 60_exceptions.md R272). -/
structure State.Inv (halt : Word) (s : State) : Prop where
  memory : s.mem.wf = true
  haltedOnHaltWord : s.halted = true → s.fault = none ∧ s.fetch = .ok halt
  faultSound : ∀ r, s.fault = some r → r.Sound halt s
  faultRaised : ∀ r, s.fault = some r → cycle halt { s with fault := none } = .next s

/-! ### Numbers -/

/-- The number in a register field (10_state.md R21, R22). -/
def regNumber : Reg → Nat
  | .x i => i.val
  | .zr => 31

/-- The width bit `sf` as a number. -/
def sfBit : Width → Nat
  | .w32 => 0
  | .w64 => 1

/-- The field `shift` as a number (30_encoding.md R112). -/
def shiftCode : ShiftType → Nat
  | .lsl => 0
  | .lsr => 1
  | .asr => 2
  | .ror => 3

/-- The field `cond` as a number (43_branch.md R222). -/
def condCode : Cond → Nat
  | .eq => 0
  | .ne => 1
  | .ge => 10
  | .lt => 11
  | .gt => 12
  | .le => 13
  | .al => 14

/-- Every field of an instruction's word as spec/opcode_table.json lists them, fixed fields and operands: (highest bit,
lowest bit, value). HALT has no fields (30_encoding.md R105). -/
def wordFields : Instr → List (Nat × Nat × Nat)
  | .halt => []
  | .addImm w sh imm12 rn rd =>
    [(31, 31, sfBit w), (30, 23, 34), (22, 22, sh.toNat), (21, 10, imm12.toNat), (9, 5, regNumber rn), (4, 0, regNumber rd)]
  | .addsImm w sh imm12 rn rd =>
    [(31, 31, sfBit w), (30, 23, 98), (22, 22, sh.toNat), (21, 10, imm12.toNat), (9, 5, regNumber rn), (4, 0, regNumber rd)]
  | .subImm w sh imm12 rn rd =>
    [(31, 31, sfBit w), (30, 23, 162), (22, 22, sh.toNat), (21, 10, imm12.toNat), (9, 5, regNumber rn), (4, 0, regNumber rd)]
  | .subsImm w sh imm12 rn rd =>
    [(31, 31, sfBit w), (30, 23, 226), (22, 22, sh.toNat), (21, 10, imm12.toNat), (9, 5, regNumber rn), (4, 0, regNumber rd)]
  | .movn w hw imm16 rd =>
    [(31, 31, sfBit w), (30, 23, 37), (22, 21, hw.toNat), (20, 5, imm16.toNat), (4, 0, regNumber rd)]
  | .movz w hw imm16 rd =>
    [(31, 31, sfBit w), (30, 23, 165), (22, 21, hw.toNat), (20, 5, imm16.toNat), (4, 0, regNumber rd)]
  | .movk w hw imm16 rd =>
    [(31, 31, sfBit w), (30, 23, 229), (22, 21, hw.toNat), (20, 5, imm16.toNat), (4, 0, regNumber rd)]
  | .addReg w shift rm imm6 rn rd =>
    [(31, 31, sfBit w), (30, 24, 11), (23, 22, shiftCode shift), (21, 21, 0), (20, 16, regNumber rm), (15, 10, imm6.toNat), (9, 5, regNumber rn), (4, 0, regNumber rd)]
  | .addsReg w shift rm imm6 rn rd =>
    [(31, 31, sfBit w), (30, 24, 43), (23, 22, shiftCode shift), (21, 21, 0), (20, 16, regNumber rm), (15, 10, imm6.toNat), (9, 5, regNumber rn), (4, 0, regNumber rd)]
  | .subReg w shift rm imm6 rn rd =>
    [(31, 31, sfBit w), (30, 24, 75), (23, 22, shiftCode shift), (21, 21, 0), (20, 16, regNumber rm), (15, 10, imm6.toNat), (9, 5, regNumber rn), (4, 0, regNumber rd)]
  | .subsReg w shift rm imm6 rn rd =>
    [(31, 31, sfBit w), (30, 24, 107), (23, 22, shiftCode shift), (21, 21, 0), (20, 16, regNumber rm), (15, 10, imm6.toNat), (9, 5, regNumber rn), (4, 0, regNumber rd)]
  | .and w shift rm imm6 rn rd =>
    [(31, 31, sfBit w), (30, 24, 10), (23, 22, shiftCode shift), (21, 21, 0), (20, 16, regNumber rm), (15, 10, imm6.toNat), (9, 5, regNumber rn), (4, 0, regNumber rd)]
  | .bic w shift rm imm6 rn rd =>
    [(31, 31, sfBit w), (30, 24, 10), (23, 22, shiftCode shift), (21, 21, 1), (20, 16, regNumber rm), (15, 10, imm6.toNat), (9, 5, regNumber rn), (4, 0, regNumber rd)]
  | .orr w shift rm imm6 rn rd =>
    [(31, 31, sfBit w), (30, 24, 42), (23, 22, shiftCode shift), (21, 21, 0), (20, 16, regNumber rm), (15, 10, imm6.toNat), (9, 5, regNumber rn), (4, 0, regNumber rd)]
  | .orn w shift rm imm6 rn rd =>
    [(31, 31, sfBit w), (30, 24, 42), (23, 22, shiftCode shift), (21, 21, 1), (20, 16, regNumber rm), (15, 10, imm6.toNat), (9, 5, regNumber rn), (4, 0, regNumber rd)]
  | .eor w shift rm imm6 rn rd =>
    [(31, 31, sfBit w), (30, 24, 74), (23, 22, shiftCode shift), (21, 21, 0), (20, 16, regNumber rm), (15, 10, imm6.toNat), (9, 5, regNumber rn), (4, 0, regNumber rd)]
  | .eon w shift rm imm6 rn rd =>
    [(31, 31, sfBit w), (30, 24, 74), (23, 22, shiftCode shift), (21, 21, 1), (20, 16, regNumber rm), (15, 10, imm6.toNat), (9, 5, regNumber rn), (4, 0, regNumber rd)]
  | .ands w shift rm imm6 rn rd =>
    [(31, 31, sfBit w), (30, 24, 106), (23, 22, shiftCode shift), (21, 21, 0), (20, 16, regNumber rm), (15, 10, imm6.toNat), (9, 5, regNumber rn), (4, 0, regNumber rd)]
  | .bics w shift rm imm6 rn rd =>
    [(31, 31, sfBit w), (30, 24, 106), (23, 22, shiftCode shift), (21, 21, 1), (20, 16, regNumber rm), (15, 10, imm6.toNat), (9, 5, regNumber rn), (4, 0, regNumber rd)]
  | .madd w rm ra rn rd =>
    [(31, 31, sfBit w), (30, 21, 216), (20, 16, regNumber rm), (15, 15, 0), (14, 10, regNumber ra), (9, 5, regNumber rn), (4, 0, regNumber rd)]
  | .msub w rm ra rn rd =>
    [(31, 31, sfBit w), (30, 21, 216), (20, 16, regNumber rm), (15, 15, 1), (14, 10, regNumber ra), (9, 5, regNumber rn), (4, 0, regNumber rd)]
  | .b simm26 =>
    [(31, 26, 5), (25, 0, simm26.toNat)]
  | .bCond simm19 cond =>
    [(31, 24, 84), (23, 5, simm19.toNat), (4, 4, 0), (3, 0, condCode cond)]
  | .br xn =>
    [(31, 10, 3508160), (9, 5, regNumber xn), (4, 0, 0)]
  | .strUnsigned w imm12 xn rt =>
    [(31, 31, 1), (30, 30, sfBit w), (29, 22, 228), (21, 10, imm12.toNat), (9, 5, regNumber xn), (4, 0, regNumber rt)]
  | .ldrUnsigned w imm12 xn rt =>
    [(31, 31, 1), (30, 30, sfBit w), (29, 22, 229), (21, 10, imm12.toNat), (9, 5, regNumber xn), (4, 0, regNumber rt)]
  | .strPost w simm9 xn rt =>
    [(31, 31, 1), (30, 30, sfBit w), (29, 21, 448), (20, 12, simm9.toNat), (11, 10, 1), (9, 5, regNumber xn), (4, 0, regNumber rt)]
  | .strPre w simm9 xn rt =>
    [(31, 31, 1), (30, 30, sfBit w), (29, 21, 448), (20, 12, simm9.toNat), (11, 10, 3), (9, 5, regNumber xn), (4, 0, regNumber rt)]
  | .ldrPost w simm9 xn rt =>
    [(31, 31, 1), (30, 30, sfBit w), (29, 21, 450), (20, 12, simm9.toNat), (11, 10, 1), (9, 5, regNumber xn), (4, 0, regNumber rt)]
  | .ldrPre w simm9 xn rt =>
    [(31, 31, 1), (30, 30, sfBit w), (29, 21, 450), (20, 12, simm9.toNat), (11, 10, 3), (9, 5, regNumber xn), (4, 0, regNumber rt)]
  | .strRegister w xm xn rt =>
    [(31, 31, 1), (30, 30, sfBit w), (29, 21, 449), (20, 16, regNumber xm), (15, 10, 26), (9, 5, regNumber xn), (4, 0, regNumber rt)]
  | .ldrRegister w xm xn rt =>
    [(31, 31, 1), (30, 30, sfBit w), (29, 21, 451), (20, 16, regNumber xm), (15, 10, 26), (9, 5, regNumber xn), (4, 0, regNumber rt)]
  | .ldrLiteral w simm19 rt =>
    [(31, 31, 0), (30, 30, sfBit w), (29, 24, 24), (23, 5, simm19.toNat), (4, 0, regNumber rt)]

/-- The word of an instruction holds each of its fields, with the value the opcode table's row gives it. -/
def HasTableFields (i : Instr) : Prop :=
  ∀ f ∈ wordFields i, (encode i).toNat / 2 ^ f.2.1 % 2 ^ (f.1 - f.2.1 + 1) = f.2.2

/-- `reg(i, W)` as a number (00_scope.md R10). -/
def State.regNat (s : State) (w : Width) (r : Reg) : Nat := (s.readReg r).toNat % 2 ^ w.bits

/-- A `W`-bit number read as two's complement. -/
def signedOf (k x : Nat) : Int := if x < 2 ^ (k - 1) then (x : Int) else (x : Int) - 2 ^ k

/-- The flags of the addition of two `k`-bit numbers by the formulas of 10_state.md R33. -/
def addFlagsOf (k a b : Nat) : Flags :=
  let r := (a + b) % 2 ^ k
  let neg := fun x : Nat => decide (2 ^ (k - 1) ≤ x)
  { n := neg r, z := decide (r = 0), c := decide (2 ^ k ≤ a + b), v := (neg a == neg b) && (neg r != neg a) }

/-- The flags of the subtraction of two `k`-bit numbers by the formulas of 10_state.md R33. -/
def subFlagsOf (k a b : Nat) : Flags :=
  let r := (a + (2 ^ k - b)) % 2 ^ k
  let neg := fun x : Nat => decide (2 ^ (k - 1) ≤ x)
  { n := neg r, z := decide (r = 0), c := decide (b ≤ a), v := (neg a != neg b) && (neg r != neg a) }

/-- The flags of a logical result by 10_state.md R32, R34. -/
def logicalFlagsOf (k r : Nat) : Flags :=
  { n := decide (2 ^ (k - 1) ≤ r), z := decide (r = 0), c := false, v := false }

/-- `ShiftOp` on a `k`-bit number by the formulas of 42_dp_register.md R182. -/
def shiftOf (k : Nat) (shift : ShiftType) (v amount : Nat) : Nat :=
  match shift with
  | .lsl => v * 2 ^ amount % 2 ^ k
  | .lsr => v / 2 ^ amount
  | .asr => ((signedOf k v / 2 ^ amount) % 2 ^ k).toNat
  | .ror => v / 2 ^ amount + v % 2 ^ amount * 2 ^ (k - amount)

/-- The second operand of a data-processing (register) instruction as a number (42_dp_register.md R180). -/
def State.operandNat (s : State) (w : Width) (rm : Reg) (shift : ShiftType) (imm6 : BitVec 6) : Nat :=
  shiftOf w.bits shift (s.regNat w rm) imm6.toNat

/-- The complement of a `k`-bit number. -/
def complementOf (k x : Nat) : Nat := 2 ^ k - 1 - x

/-! ### Classes of instructions -/

/-- The instructions that write the flags (10_state.md R30). -/
def setsFlags : Instr → Bool
  | .addsImm _ _ _ _ _ | .subsImm _ _ _ _ _ | .addsReg _ _ _ _ _ _ | .subsReg _ _ _ _ _ _
  | .ands _ _ _ _ _ _ | .bics _ _ _ _ _ _ => true
  | _ => false

/-- The instructions that set `pc` themselves (40_step_and_halt.md R140). -/
def setsPc : Instr → Bool
  | .b _ | .bCond _ _ | .br _ => true
  | _ => false

/-- The instructions that write memory (44_load_store.md R242, R244, R246, R249). -/
def writesMemory : Instr → Bool
  | .strUnsigned _ _ _ _ | .strPost _ _ _ _ | .strPre _ _ _ _ | .strRegister _ _ _ _ => true
  | _ => false

/-- The registers an instruction writes: destination, transfer register of a load, base of an indexed form
(10_state.md R25). -/
def writtenRegs : Instr → List Reg
  | .halt => []
  | .addImm _ _ _ _ rd | .addsImm _ _ _ _ rd | .subImm _ _ _ _ rd | .subsImm _ _ _ _ rd => [rd]
  | .movn _ _ _ rd | .movz _ _ _ rd | .movk _ _ _ rd => [rd]
  | .addReg _ _ _ _ _ rd | .addsReg _ _ _ _ _ rd | .subReg _ _ _ _ _ rd | .subsReg _ _ _ _ _ rd => [rd]
  | .and _ _ _ _ _ rd | .bic _ _ _ _ _ rd | .orr _ _ _ _ _ rd | .orn _ _ _ _ _ rd => [rd]
  | .eor _ _ _ _ _ rd | .eon _ _ _ _ _ rd | .ands _ _ _ _ _ rd | .bics _ _ _ _ _ rd => [rd]
  | .madd _ _ _ _ rd | .msub _ _ _ _ rd => [rd]
  | .b _ | .bCond _ _ | .br _ => []
  | .strUnsigned _ _ _ _ | .strRegister _ _ _ _ => []
  | .ldrUnsigned _ _ _ rt | .ldrRegister _ _ _ rt | .ldrLiteral _ _ rt => [rt]
  | .strPost _ _ xn _ | .strPre _ _ xn _ => [xn]
  | .ldrPost _ _ xn rt | .ldrPre _ _ xn rt => [xn, rt]

/-- Where an STR stores: the effective address of its form, the width, and the register stored (44_load_store.md R251);
`none` for every other instruction. -/
def storeTarget (i : Instr) (s : State) : Option (DWord × Width × Reg) :=
  match i with
  | .strUnsigned w imm12 xn rt => some (s.unsignedAddress w xn imm12, w, rt)
  | .strPre w simm9 xn rt => some (s.indexedAddress xn simm9, w, rt)
  | .strPost w _ xn rt => some (s.readReg xn, w, rt)
  | .strRegister w xm xn rt => some (s.registerAddress xn xm, w, rt)
  | _ => none

/-! ### Frames -/

/-- From `s` to `t` exactly the listed registers are written with the listed values (the zero register discards its
value), `pc` and the flags are as given, and `halted` and `fault` are unchanged. Memory is said apart. -/
structure Effect (s t : State) (writes : List (Reg × DWord)) (pc : DWord) (flags : Flags) : Prop where
  written : ∀ p ∈ writes, p.1 ≠ .zr → t.readReg p.1 = p.2
  others : ∀ r, (∀ p ∈ writes, r ≠ p.1) → t.readReg r = s.readReg r
  zero : t.readReg .zr = 0#64
  pc : t.pc = pc
  flags : t.flags = flags
  halted : t.halted = s.halted
  fault : t.fault = s.fault

/-- Every byte of memory reads as before. -/
def MemoryKept (s t : State) : Prop := ∀ a, t.mem.byte a = s.mem.byte a

/-- The `n` bytes from `addr` on hold the low bytes of `v`, little-endian; every other byte reads as before. -/
def MemoryStored (s t : State) (addr n : Nat) (v : DWord) : Prop :=
  ∀ a, t.mem.byte a = if addr ≤ a ∧ a < addr + n then v.extractLsb' (8 * (a - addr)) 8 else s.mem.byte a

/-- `v` is the little-endian value of the `n` bytes from `addr` on, zero-extended to 64 bits. -/
def LoadedValue (s : State) (addr n : Nat) (v : DWord) : Prop :=
  ∀ i, i < 64 → v.getLsbD i = (decide (i < 8 * n) && (s.mem.byte (addr + i / 8)).getLsbD (i % 8))

/-- The instruction is taken as `UndefinedInstruction` with its own word, and nothing else changes. -/
def TakesUndefined (i : Instr) (s : State) : Prop :=
  exec i s = .next { s with fault := some { cause := .undefinedInstruction (encode i), pc := s.pc } }

/-- The instruction is taken as `MemoryBoundViolation`, and nothing else changes. -/
def TakesBoundViolation (i : Instr) (s : State) (addr : DWord) (n : Nat) (kind : AccessKind) : Prop :=
  exec i s = .next { s with fault := some { cause := .memoryBoundViolation addr n kind, pc := s.pc } }

/-! ### Source lines: what R130 and R131 of 30_encoding.md give each, as relations -/

/-- A written shift, or none, is the shift `t` by `amount`, a 6-bit number. -/
def WrittenShift (shift : Option SourceShift) (t : ShiftType) (amount : BitVec 6) : Prop :=
  match shift with
  | none => t = .lsl ∧ amount = 0#6
  | some sh => t = sh.type ∧ (amount.toNat : Int) = sh.amount

/-- `add|adds|sub|subs Rd, Rn, <op>`: an immediate of 12 bits with or without `lsl #12`, or a register with a shift other than
`ror`; registers of one width. -/
def ArithmeticLine (m : ArithmeticMnemonic) (rd rn : SourceReg) (op : SourceOperand) (j : Instr) : Prop :=
  rn.width = rd.width ∧
  match op with
  | .immediate v shift => ∃ (flag : Bool) (imm12 : BitVec 12), (imm12.toNat : Int) = v ∧
    shift = (if flag then some { type := .lsl, amount := 12 } else none) ∧
    match m with
    | .add => j = .addImm rd.width flag imm12 rn.reg rd.reg
    | .adds => j = .addsImm rd.width flag imm12 rn.reg rd.reg
    | .sub => j = .subImm rd.width flag imm12 rn.reg rd.reg
    | .subs => j = .subsImm rd.width flag imm12 rn.reg rd.reg
  | .register rm shift => rm.width = rd.width ∧ ∃ t amount, WrittenShift shift t amount ∧ t ≠ .ror ∧
    match m with
    | .add => j = .addReg rd.width t rm.reg amount rn.reg rd.reg
    | .adds => j = .addsReg rd.width t rm.reg amount rn.reg rd.reg
    | .sub => j = .subReg rd.width t rm.reg amount rn.reg rd.reg
    | .subs => j = .subsReg rd.width t rm.reg amount rn.reg rd.reg

/-- `and|bic|orr|orn|eor|eon|ands|bics Rd, Rn, <op>`: a register with any shift; registers of one width. -/
def LogicalLine (m : LogicalMnemonic) (rd rn : SourceReg) (op : SourceOperand) (j : Instr) : Prop :=
  rn.width = rd.width ∧
  match op with
  | .immediate _ _ => False
  | .register rm shift => rm.width = rd.width ∧ ∃ t amount, WrittenShift shift t amount ∧
    match m with
    | .and => j = .and rd.width t rm.reg amount rn.reg rd.reg
    | .bic => j = .bic rd.width t rm.reg amount rn.reg rd.reg
    | .orr => j = .orr rd.width t rm.reg amount rn.reg rd.reg
    | .orn => j = .orn rd.width t rm.reg amount rn.reg rd.reg
    | .eor => j = .eor rd.width t rm.reg amount rn.reg rd.reg
    | .eon => j = .eon rd.width t rm.reg amount rn.reg rd.reg
    | .ands => j = .ands rd.width t rm.reg amount rn.reg rd.reg
    | .bics => j = .bics rd.width t rm.reg amount rn.reg rd.reg

/-- `movz|movn|movk Rd, #imm16{, lsl #0|16|32|48}`. -/
def WideLine (m : WideMnemonic) (rd : SourceReg) (imm : Int) (shift : Option SourceShift) (j : Instr) : Prop :=
  ∃ (hw : BitVec 2) (imm16 : BitVec 16), (imm16.toNat : Int) = imm ∧
    ((shift = none ∧ hw = 0#2) ∨ shift = some { type := .lsl, amount := 16 * hw.toNat }) ∧
    match m with
    | .movn => j = .movn rd.width hw imm16 rd.reg
    | .movz => j = .movz rd.width hw imm16 rd.reg
    | .movk => j = .movk rd.width hw imm16 rd.reg

/-- `madd|msub Rd, Rn, Rm, Ra`: registers of one width. -/
def MultiplyLine (negate : Bool) (rd rn rm ra : SourceReg) (j : Instr) : Prop :=
  rn.width = rd.width ∧ rm.width = rd.width ∧ ra.width = rd.width ∧
    j = (if negate then .msub rd.width rm.reg ra.reg rn.reg rd.reg else .madd rd.width rm.reg ra.reg rn.reg rd.reg)

/-- The signed `n`-bit word offset from `current` to `target`, `(target - current) >> 2` (R132). -/
def WordOffset {n : Nat} (f : BitVec n) (target : Int) (current : Nat) : Prop := f.toInt = (target - current) / 4

/-- `ldr` (`load`) or `str Rt, <address>`: base and offset registers of 64 bits, the literal forms for `ldr` only. -/
def AccessLine (labels : String → Option Nat) (current : Nat) (load : Bool) (rt : SourceReg) (address : SourceAddress)
    (j : Instr) : Prop :=
  match address with
  | .base xn => xn.width = .w64 ∧
    j = (if load then .ldrUnsigned rt.width 0#12 xn.reg rt.reg else .strUnsigned rt.width 0#12 xn.reg rt.reg)
  | .offset xn imm => xn.width = .w64 ∧ ∃ f : BitVec 12, (f.toNat * rt.width.bytes : Int) = imm ∧
    j = (if load then .ldrUnsigned rt.width f xn.reg rt.reg else .strUnsigned rt.width f xn.reg rt.reg)
  | .preIndexed xn imm => xn.width = .w64 ∧ ∃ f : BitVec 9, f.toInt = imm ∧
    j = (if load then .ldrPre rt.width f xn.reg rt.reg else .strPre rt.width f xn.reg rt.reg)
  | .postIndexed xn imm => xn.width = .w64 ∧ ∃ f : BitVec 9, f.toInt = imm ∧
    j = (if load then .ldrPost rt.width f xn.reg rt.reg else .strPost rt.width f xn.reg rt.reg)
  | .registerOffset xn xm => xn.width = .w64 ∧ xm.width = .w64 ∧
    j = (if load then .ldrRegister rt.width xm.reg xn.reg rt.reg else .strRegister rt.width xm.reg xn.reg rt.reg)
  | .label name => load = true ∧ ∃ (target : Nat) (f : BitVec 19), labels name = some target ∧
    WordOffset f target current ∧ j = .ldrLiteral rt.width f rt.reg
  | .integer v => load = true ∧ ∃ f : BitVec 19, WordOffset f v current ∧ j = .ldrLiteral rt.width f rt.reg

/-- The zero register at the width of `r`, which the aliases supply (R131). -/
def zeroAt (r : SourceReg) : SourceReg := { width := r.width, reg := .zr }

/-- A line at address `current` stands for the instruction `j`: the syntax of R130, and the aliases by the expansions of
R131. A line that stands for none is a local error (R132). -/
def LineStandsFor (labels : String → Option Nat) (current : Nat) (i : SourceInstr) (j : Instr) : Prop :=
  match i with
  | .arithmetic m rd rn op => ArithmeticLine m rd rn op j
  | .logical m rd rn op => LogicalLine m rd rn op j
  | .wide m rd imm shift => WideLine m rd imm shift j
  | .madd rd rn rm ra => MultiplyLine false rd rn rm ra j
  | .msub rd rn rm ra => MultiplyLine true rd rn rm ra j
  | .b name => ∃ (target : Nat) (f : BitVec 26), labels name = some target ∧ WordOffset f target current ∧ j = .b f
  | .bCond cond name =>
    ∃ (target : Nat) (f : BitVec 19), labels name = some target ∧ WordOffset f target current ∧ j = .bCond f cond
  | .br xn => xn.width = .w64 ∧ j = .br xn.reg
  | .ldr rt address => AccessLine labels current true rt address j
  | .str rt address => AccessLine labels current false rt address j
  | .mul rd rn rm => MultiplyLine false rd rn rm (zeroAt rd) j
  | .mneg rd rn rm => MultiplyLine true rd rn rm (zeroAt rd) j
  | .cmp rn op => ArithmeticLine .subs (zeroAt rn) rn op j
  | .cmn rn op => ArithmeticLine .adds (zeroAt rn) rn op j
  | .tst rn op => LogicalLine .ands (zeroAt rn) rn op j
  | .neg rd op => ArithmeticLine .sub rd (zeroAt rd) op j
  | .negs rd op => ArithmeticLine .subs rd (zeroAt rd) op j
  | .mvn rd op => LogicalLine .orn rd (zeroAt rd) op j
  | .mov rd op => ∃ rm, op = .register rm none ∧ LogicalLine .orr rd (zeroAt rd) op j

end Sys2Proof.Machine
end

