-- ==== Sys2Proof/Certificates/Slice0/Obligations.lean ====
section
/-! DEFINITION. The statements for the provers. Each docstring names the rule of spec/ that the statement formalises; where
a statement rests on a decision of the spec (92_eei_decisions.md) or on a choice of the model, it says so. -/

open Sys2Proof Sys2Proof.Machine

/-! ### Reset, load, registers -/

/-- 70_reset_and_hazards.md R300: the state after reset and load of any image that fits, piece by piece. -/
def Obligations.ResetEstablishesSpecState : Prop :=
  ∀ image : List Byte, image.length ≤ Config.memSize →
    ∃ s, loadImage image = .next s ∧
      (∀ r, s.readReg r = 0#64) ∧ s.pc = 0#64 ∧
      s.flags.n = false ∧ s.flags.z = true ∧ s.flags.c = false ∧ s.flags.v = false ∧
      s.flags.letters = ['-', 'Z', '-', '-'] ∧
      s.halted = false ∧ s.fault = none ∧
      (∀ a, image.length ≤ a → s.mem.byte a = 0#8)

/-- 70_reset_and_hazards.md R301: byte `k` of the image lies at address `k`, word `j` at `4 * j` with its least significant
byte first, and every later byte is 0. -/
def Obligations.ImageLiesAtLoadBase : Prop :=
  (∀ image : List Byte, image.length ≤ Config.memSize →
    ∃ s, loadImage image = .next s ∧
      (∀ k (h : k < image.length), s.mem.byte k = image[k]) ∧
      (∀ a, image.length ≤ a → s.mem.byte a = 0#8)) ∧
  (∀ words : List Word, 4 * words.length ≤ Config.memSize →
    ∃ s, loadImage (imageOfWords words) = .next s ∧
      ∀ j (h : j < words.length),
        s.mem.byte (4 * j) = (words[j]).extractLsb' 0 8 ∧ s.mem.byte (4 * j + 1) = (words[j]).extractLsb' 8 8 ∧
        s.mem.byte (4 * j + 2) = (words[j]).extractLsb' 16 8 ∧ s.mem.byte (4 * j + 3) = (words[j]).extractLsb' 24 8)

/-- 70_reset_and_hazards.md R303: execution begins at `RESET_PC` = 0 = `LOAD_BASE` with the first word of the image,
whatever the halt word. -/
def Obligations.ExecutionBeginsAtFirstWord : Prop :=
  Config.resetPc.toNat = Config.loadBase ∧
  ∀ (halt w : Word) (rest : List Word), 4 * (rest.length + 1) ≤ Config.memSize →
    ∃ s, loadImage (imageOfWords (w :: rest)) = .next s ∧ s.pc = 0#64 ∧ s.Running ∧
      stepWith halt s = execWord halt w s

/-- 70_reset_and_hazards.md section 1, on the spec's decision D24: an image longer than memory is refused and no run starts;
any other length, a multiple of 4 or not, is accepted. -/
def Obligations.OversizedImageRefused : Prop :=
  ∀ image : List Byte,
    (Config.memSize < image.length → loadImage image = .refused (.imageTooLong image.length)) ∧
    (image.length ≤ Config.memSize → ∃ s, loadImage image = .next s)

/-- 10_state.md section 2, on the spec's decisions D5 and D6: number 31 reads 0 and discards writes, every other register
reads as last written, a 32-bit view is the low half, and a 32-bit write clears the upper half. -/
def Obligations.RegisterFileLaws : Prop :=
  ∀ (s : State) (r q : Reg) (w : Width) (v : DWord) (u : BitVec w.bits),
    s.readReg .zr = 0#64 ∧ s.writeReg .zr v = s ∧
    (r ≠ .zr → (s.writeReg r v).readReg r = v) ∧
    (q ≠ r → (s.writeReg r v).readReg q = s.readReg q) ∧
    (s.readRegAt w r).toNat = (s.readReg r).toNat % 2 ^ w.bits ∧
    (r ≠ .zr → ((s.writeRegAt w r u).readReg r).toNat = u.toNat) ∧
    (q ≠ r → (s.writeRegAt w r u).readReg q = s.readReg q) ∧
    (s.writeReg r v).pc = s.pc ∧ (s.writeReg r v).flags = s.flags ∧ (s.writeReg r v).mem = s.mem ∧
    (s.writeReg r v).halted = s.halted ∧ (s.writeReg r v).fault = s.fault

/-! ### Memory -/

/-- 20_memory.md R54: `MemRead` gives the little-endian bytes, or raises `MemoryBoundViolation`; the fetch is the read of
4 bytes at `pc` with its own kind. -/
def Obligations.MemReadIsLittleEndian : Prop :=
  (∀ (s : State) (addr : DWord) (w : Width) (kind : AccessKind),
    (addr.toNat + w.bytes ≤ Config.memSize →
      ∃ v, s.memRead addr w kind = .ok v ∧ ∀ k, k < w.bytes → v.extractLsb' (8 * k) 8 = s.mem.byte (addr.toNat + k)) ∧
    (Config.memSize < addr.toNat + w.bytes →
      s.memRead addr w kind = .error (.memoryBoundViolation addr w.bytes kind))) ∧
  (∀ s : State, s.fetch = s.memRead s.pc .w32 .fetch)

/-- 20_memory.md R55: `MemWrite` writes exactly its bytes and changes nothing else, or raises `MemoryBoundViolation`; the
memory's canonical form is kept. -/
def Obligations.MemWriteIsExact : Prop :=
  ∀ (s : State) (addr : DWord) (w : Width) (v : BitVec w.bits), s.mem.wf = true →
    (addr.toNat + w.bytes ≤ Config.memSize →
      ∃ t, s.memWrite addr w v = .ok t ∧ t.mem.wf = true ∧ t = { s with mem := t.mem } ∧
        (∀ k, k < w.bytes → t.mem.byte (addr.toNat + k) = v.extractLsb' (8 * k) 8) ∧
        (∀ a, a < addr.toNat ∨ addr.toNat + w.bytes ≤ a → t.mem.byte a = s.mem.byte a)) ∧
    (Config.memSize < addr.toNat + w.bytes →
      s.memWrite addr w v = .error (.memoryBoundViolation addr w.bytes .store))

/-- 20_memory.md section 5 (R60): a place written at one width and read at another gives the bytes of both. -/
def Obligations.MixedWidthAccesses : Prop :=
  ∀ (s : State) (a : DWord) (k : AccessKind), s.mem.wf = true → a.toNat + 8 ≤ Config.memSize →
    (∀ v : BitVec 64, ∃ t, s.memWrite a .w64 v = .ok t ∧
      t.memRead a .w64 k = .ok v ∧ t.memRead a .w32 k = .ok (v.extractLsb' 0 32) ∧
      t.memRead (a + 4#64) .w32 k = .ok (v.extractLsb' 32 32)) ∧
    (∀ u : BitVec 32, ∃ t x, s.memWrite a .w32 u = .ok t ∧ s.memRead (a + 4#64) .w32 k = .ok x ∧
      t.memRead a .w64 k = .ok (x ++ u))

/-- 20_memory.md section 7 (R66), on the spec's own inference: what any STR, in every addressing form and at both widths,
leaves in the four bytes after its own word is what the next cycle runs, with no barrier between: the bytes it covers are
those of the register stored, the others those that were there. A store at exactly the next instruction puts the register's
low word there. -/
def Obligations.StoreIsSeenByNextFetch : Prop :=
  ∀ (halt : Word) (i : Instr) (s : State) (addr : DWord) (w : Width) (rt : Reg) (byteAfter : Nat → Byte),
    s.Running → s.mem.wf = true → i.wellFormed = true → storeTarget i s = some (addr, w, rt) →
    addr.toNat + w.bytes ≤ Config.memSize → (s.pc + 4#64).toNat + 4 ≤ Config.memSize →
    (∀ a, byteAfter a =
      if addr.toNat ≤ a ∧ a < addr.toNat + w.bytes then (s.readReg rt).extractLsb' (8 * (a - addr.toNat)) 8
      else s.mem.byte a) →
    ∃ t, exec i s = .next t ∧ t.pc = s.pc + 4#64 ∧
      stepWith halt t =
        execWord halt (wordOfBytes (byteAfter (s.pc + 4#64).toNat) (byteAfter ((s.pc + 4#64).toNat + 1))
          (byteAfter ((s.pc + 4#64).toNat + 2)) (byteAfter ((s.pc + 4#64).toNat + 3))) t ∧
      (addr = s.pc + 4#64 → stepWith halt t = execWord halt ((s.readReg rt).extractLsb' 0 32) t)

/-! ### Decoding and encoding -/

/-- Every well-formed instruction, with every operand at every value, decodes from its own word, for every halt word (the
word must not be the halt word, 30_encoding.md R83). -/
def Obligations.DecodeOfEncode : Prop :=
  ∀ (halt : Word) (i : Instr), i.wellFormed = true → (encodeWith halt i = halt → i = .halt) →
    decodeWith halt (encodeWith halt i) = .ok i

/-- What the decoder gives is well-formed and its word is the word decoded; HALT is given for the halt word alone. -/
def Obligations.EncodeOfDecode : Prop :=
  ∀ (halt w : Word) (i : Instr), decodeWith halt w = .ok i →
    i.wellFormed = true ∧ encodeWith halt i = w ∧ (i = .halt ↔ w = halt)

/-- The word of an instruction that fails a check of its format is rejected as undefined (30_encoding.md section 10). -/
def Obligations.IllFormedWordsRejected : Prop :=
  ∀ (halt : Word) (i : Instr), i.wellFormed = false → encodeWith halt i ≠ halt →
    ∃ why, decodeWith halt (encodeWith halt i) = .error (.undefinedInstruction why)

/-- A decoded word holds, bit for bit, the fields that its instruction's row of spec/opcode_table.json lists. -/
def Obligations.DecodedWordHasTableFields : Prop :=
  ∀ (halt w : Word) (i : Instr), decodeWith halt w = .ok i →
    ∀ f ∈ wordFields i, w.toNat / 2 ^ f.2.1 % 2 ^ (f.1 - f.2.1 + 1) = f.2.2

/-- 60_exceptions.md R271: `UnknownClass` is raised exactly for the words whose class field is one of six values, and ends
the run. -/
def Obligations.UnknownClassWords : Prop :=
  ∀ (halt w : Word) (s : State), s.Running → s.fetch = .ok w →
    (stepWith halt s = .next { s with fault := some { cause := .unknownClass w, pc := s.pc } } ↔
      w ≠ halt ∧ w.toNat / 2 ^ 25 % 16 ∈ [0, 1, 2, 3, 7, 15]) ∧
    stepWith halt { s with fault := some { cause := .unknownClass w, pc := s.pc } } =
      .fault (.faulted { cause := .unknownClass w, pc := s.pc })

/-- 60_exceptions.md section 1: `UndefinedInstruction` is raised exactly for the words of a recognised class that are the
word of no well-formed instruction. -/
def Obligations.UndefinedInstructionWords : Prop :=
  ∀ (halt w : Word) (s : State), s.Running → s.fetch = .ok w →
    (stepWith halt s = .next { s with fault := some { cause := .undefinedInstruction w, pc := s.pc } } ↔
      w ≠ halt ∧ w.toNat / 2 ^ 25 % 16 ∉ [0, 1, 2, 3, 7, 15] ∧ ¬∃ i : Instr, i.wellFormed = true ∧ encodeWith halt i = w)

/-- 30_encoding.md R83: the halt test has priority over every class; with the default halt word one AND encoding is not
available, and with another halt word it is. -/
def Obligations.HaltTestComesFirst : Prop :=
  (∀ halt : Word, decodeWith halt halt = .ok .halt) ∧
  (∀ halt w : Word, w ≠ halt →
    decodeWith halt w =
      match classOf w with
      | some .dpImmediate => decodeDpImmediate w
      | some .dpRegister => decodeDpRegister w
      | some .loadStore => decodeLoadStore w
      | some .branch => decodeBranch w
      | none => .error .unknownClass) ∧
  decode 0x8A000000#32 = .ok .halt ∧
  (∀ w : Word, decode w ≠ .ok (.and .w64 .lsl (.x 0) 0#6 (.x 0) (.x 0))) ∧
  (∀ halt : Word, halt ≠ 0x8A000000#32 →
    decodeWith halt 0x8A000000#32 = .ok (.and .w64 .lsl (.x 0) 0#6 (.x 0) (.x 0)))

/-- Words written out in spec/95_test_vectors.md decode to the instructions they stand for, one of each family. -/
def Obligations.SpecWordsDecode : Prop :=
  decode 0x91001420#32 = .ok (.addImm .w64 false 5#12 (.x 1) (.x 0)) ∧
  decode 0xF28ACF00#32 = .ok (.movk .w64 0#2 0x5678#16 (.x 0)) ∧
  decode 0x8B82FC20#32 = .ok (.addReg .w64 .asr (.x 2) 63#6 (.x 1) (.x 0)) ∧
  decode 0xEA220020#32 = .ok (.bics .w64 .lsl (.x 2) 0#6 (.x 1) (.x 0)) ∧
  decode 0x9B028C20#32 = .ok (.msub .w64 (.x 2) (.x 3) (.x 1) (.x 0)) ∧
  decode 0x17FFFFFF#32 = .ok (.b 0x3FFFFFF#26) ∧
  decode 0x54FFFFC1#32 = .ok (.bCond 0x7FFFE#19 .ne) ∧
  decode 0xD61F03C0#32 = .ok (.br (.x 30)) ∧
  decode 0xF9400820#32 = .ok (.ldrUnsigned .w64 2#12 (.x 1) (.x 0)) ∧
  decode 0xF81F8C20#32 = .ok (.strPre .w64 0x1F8#9 (.x 1) (.x 0)) ∧
  decode 0xB822683F#32 = .ok (.strRegister .w32 (.x 2) (.x 1) .zr) ∧
  decode 0x18FFFFC3#32 = .ok (.ldrLiteral .w32 0x7FFFE#19 (.x 3)) ∧
  decode 0x8A000000#32 = .ok .halt ∧
  decode 0x00000000#32 = .error .unknownClass ∧
  decode 0x52C00020#32 = .error (.undefinedInstruction .halfWord)

/-- The decoder on bytes reads the four bytes of a word, least significant first, and leaves the rest; the decoder on table
words agrees with it (the model's reading of spec/opcode_table.json, log entry 6). -/
def Obligations.DecodersAgree : Prop :=
  ∀ (w : Word) (rest : List Byte),
    decodeBytes (bytesOfWord w ++ rest) = some (decode w, rest) ∧
    (∀ i, decodeTableWord 32 w.toNat = some i ↔ decode w = .ok i) ∧
    (∀ nbits, nbits ≤ 32 → decodeTableWord nbits w.toNat = decodeTableWord 32 (w.toNat % 2 ^ nbits))

/-! ### The sequencer -/

/-- 40_step_and_halt.md R140: in a running state a step fetches the four bytes at `pc`, least significant first, and does
what the word says: halt, run the decoded instruction, or raise; `step` is this step with the machine's halt word. -/
def Obligations.StepRunsDecodedInstruction : Prop :=
  (∀ s : State, step s = stepWith haltWord s) ∧
  ∀ (halt : Word) (s : State), s.Running →
    (Config.memSize < s.pc.toNat + 4 →
      stepWith halt s = .next { s with fault := some { cause := .memoryBoundViolation s.pc 4 .fetch, pc := s.pc } }) ∧
    (∀ w : Word, s.pc.toNat + 4 ≤ Config.memSize →
      w = wordOfBytes (s.mem.byte s.pc.toNat) (s.mem.byte (s.pc.toNat + 1)) (s.mem.byte (s.pc.toNat + 2))
        (s.mem.byte (s.pc.toNat + 3)) →
      (w = halt → stepWith halt s = .next { s with halted := true }) ∧
      (∀ i, decodeWith halt w = .ok i → i.wellFormed = true ∧ stepWith halt s = exec i s) ∧
      (decodeWith halt w = .error .unknownClass →
        stepWith halt s = .next { s with fault := some { cause := .unknownClass w, pc := s.pc } }) ∧
      (∀ why, decodeWith halt w = .error (.undefinedInstruction why) →
        stepWith halt s = .next { s with fault := some { cause := .undefinedInstruction w, pc := s.pc } }))

/-- 40_step_and_halt.md section 2: a halted or faulted state has no further step, and every other state has one. -/
def Obligations.OnlyTerminalStatesStop : Prop :=
  ∀ (halt : Word) (s : State),
    (∀ r, s.fault = some r → stepWith halt s = .fault (.faulted r)) ∧
    (s.fault = none → s.halted = true → stepWith halt s = .fault .halted) ∧
    (s.Running → ∃ t, stepWith halt s = .next t)

/-- The invariant: canonical memory; a halted machine without a fault on its halt word; a fault record that names the
state's `pc` and is the one the state's own cycle raises. Every step from every state that has it keeps it, for every halt
word. -/
def Obligations.StepKeepsInvariant : Prop :=
  (∀ (halt : Word) (s t : State), s.Inv halt → stepWith halt s = .next t → t.Inv halt) ∧
  (∀ s t : State, s.Inv haltWord → step s = .next t → t.Inv haltWord)

/-- The invariant holds at reset with the empty image, and with every image that the host accepts. -/
def Obligations.InvariantHoldsAtReset : Prop :=
  State.reset.Inv haltWord ∧ loadImage [] = .next State.reset ∧
  ∀ (halt : Word) (image : List Byte) (s : State), loadImage image = .next s → s.Inv halt

/-- 60_exceptions.md R273: a step that records a fault changes nothing else, records the `pc`, and is the last step. -/
def Obligations.RaiseChangesOnlyTheFault : Prop :=
  ∀ (halt : Word) (s t : State) (r : FaultRecord), s.fault = none → stepWith halt s = .next t → t.fault = some r →
    t = { s with fault := some r } ∧ r.pc = s.pc ∧ stepWith halt t = .fault (.faulted r)

/-- 10_state.md R35: `halted` is 0 at reset, is set by the cycle that fetches the halt word and by nothing else, and then
there is no further cycle. -/
def Obligations.HaltedOnlyByHaltWord : Prop :=
  State.reset.halted = false ∧
  ∀ (halt : Word) (s t : State), stepWith halt s = .next t →
    (t.halted = true ↔ s.fetch = .ok halt) ∧ (t.halted = true → t.fault = none ∧ stepWith halt t = .fault .halted)

/-- 10_state.md section 4 (R30), ANDS and BICS on the spec's decision D8: no instruction but ADDS, SUBS, ANDS, BICS writes a
flag. -/
def Obligations.FlagsWrittenOnlyByFlagSetters : Prop :=
  ∀ (i : Instr) (s t : State), setsFlags i = false → exec i s = .next t → t.flags = s.flags

/-- 10_state.md R31: no instruction but B.cond depends on the flags, and B.cond depends on N, Z and V only. Changing the
flags before changes nothing else after; changing C changes nothing after but C. -/
def Obligations.OnlyBCondReadsFlags : Prop :=
  (∀ (i : Instr) (s t : State) (f : Flags), (∀ simm19 cond, i ≠ .bCond simm19 cond) → exec i s = .next t →
    ∃ t', exec i (s.setFlags f) = .next t' ∧ t'.setFlags t.flags = t ∧
      (t'.flags = t.flags ∨ (t.flags = s.flags ∧ t'.flags = f))) ∧
  (∀ (simm19 : BitVec 19) (cond : Cond) (s t : State) (c : Bool), exec (.bCond simm19 cond) s = .next t →
    exec (.bCond simm19 cond) (s.setFlags { s.flags with c := c }) = .next (t.setFlags { t.flags with c := c }))

/-- 40_step_and_halt.md R142: every data-processing and load/store instruction that completes without a fault ends with
`pc` + 4 modulo 2^64, whatever it writes; LDR (literal) reads the `pc` that is not yet advanced. -/
def Obligations.PcAdvancesByFour : Prop :=
  (∀ (i : Instr) (s t : State), setsPc i = false → i ≠ .halt → s.fault = none → exec i s = .next t → t.fault = none →
    t.pc.toNat = (s.pc.toNat + 4) % 2 ^ 64) ∧
  (∀ (w : Width) (simm19 : BitVec 19) (rt : Reg) (s t : State) (addr : Nat), rt ≠ .zr → s.fault = none →
    (addr : Int) = ((s.pc.toNat : Int) + 4 * simm19.toInt) % 2 ^ 64 →
    exec (.ldrLiteral w simm19 rt) s = .next t → t.fault = none → LoadedValue s addr w.bytes (t.readReg rt))

/-- 10_state.md section 3 (R28): every instruction but BR keeps a `pc` that is a multiple of 4 a multiple of 4. -/
def Obligations.PcAlignmentKept : Prop :=
  ∀ (i : Instr) (s t : State), (∀ xn, i ≠ .br xn) → s.pc.toNat % 4 = 0 → exec i s = .next t → t.pc.toNat % 4 = 0

/-- 10_state.md section 2 (R25), 20_memory.md sections 1 and 3: the frame of every instruction at once. No register changes
but those the instruction writes, the zero register never; no instruction but STR changes memory; STR changes no byte outside
those it stores to, from the effective address of its form on; the canonical form is kept. -/
def Obligations.FrameOfEveryInstruction : Prop :=
  ∀ (i : Instr) (s t : State), exec i s = .next t →
    (∀ r, r ∉ writtenRegs i → t.readReg r = s.readReg r) ∧ t.readReg .zr = 0#64 ∧
    (writesMemory i = false → t.mem = s.mem) ∧ (s.mem.wf = true → t.mem.wf = true) ∧
    (writesMemory i = true → ∃ addr w rt, storeTarget i s = some (addr, w, rt)) ∧
    (∀ addr w rt, storeTarget i s = some (addr, w, rt) → s.mem.wf = true →
      ∀ a, a < addr.toNat ∨ addr.toNat + w.bytes ≤ a → t.mem.byte a = s.mem.byte a)

/-- How the host places one word for the next step (the model's choice, log entry 6): the step runs exactly that word, and
registers and flags are as before. -/
def Obligations.FetchWordIsRunNext : Prop :=
  ∀ (s : State) (nbits w : Nat), s.mem.wf = true →
    step (s.withFetchWord nbits w) = execWord haltWord (BitVec.ofNat 32 (w % 2 ^ nbits)) (s.withFetchWord nbits w) ∧
    (∀ r, (s.withFetchWord nbits w).readReg r = s.readReg r) ∧ (s.withFetchWord nbits w).flags = s.flags ∧
    (s.pc.toNat + 4 ≤ Config.memSize → (s.withFetchWord nbits w).pc = s.pc)

/-- 40_step_and_halt.md section 2: a run that has ended has ended for good: more cycles allowed change neither the end nor
the final state, and the ends are told apart by `halted` and `fault`. A safe run has no fault now and is a safe run from
the next state, if there is one. -/
def Obligations.RunEndIsFinal : Prop :=
  ∀ (halt : Word) (s : State),
    (∀ k m t, runWith halt k s = .normal t → runWith halt (k + m) s = .normal t ∧ t.halted = true ∧ t.fault = none) ∧
    (∀ k m t r, runWith halt k s = .error t r → runWith halt (k + m) s = .error t r ∧ t.fault = some r) ∧
    (SafeRun halt s ↔ s.fault = none ∧ ∀ t, stepWith halt s = .next t → SafeRun halt t)

/-! ### HALT -/

/-- 40_step_and_halt.md R141: HALT sets `halted` and changes nothing else; it is the word equal to the halt word in all 32
bits, tested before the class. -/
def Obligations.HaltResult : Prop :=
  (∀ s : State, exec .halt s = .next { s with halted := true }) ∧
  (∀ (halt w : Word), decodeWith halt w = .ok .halt ↔ w = halt) ∧
  (∀ (halt : Word) (s : State), s.Running → s.fetch = .ok halt → stepWith halt s = .next { s with halted := true }) ∧
  haltWord = 0x8A000000#32

/-! ### Data-processing (immediate) -/

/-- 41_dp_immediate.md R160, R162: result, frame and completion of ADD and SUB (immediate). -/
def Obligations.AddSubImmediateResult : Prop :=
  ∀ (w : Width) (sh : Bool) (imm12 : BitVec 12) (rn rd : Reg) (s : State) (imm : Nat),
    imm = imm12.toNat * (if sh then 4096 else 1) →
    (HasTableFields (.addImm w sh imm12 rn rd) ∧
      ∃ t, exec (.addImm w sh imm12 rn rd) s = .next t ∧
        Effect s t [(rd, BitVec.ofNat 64 ((s.regNat w rn + imm) % 2 ^ w.bits))] (s.pc + 4#64) s.flags ∧ MemoryKept s t) ∧
    (HasTableFields (.subImm w sh imm12 rn rd) ∧
      ∃ t, exec (.subImm w sh imm12 rn rd) s = .next t ∧
        Effect s t [(rd, BitVec.ofNat 64 ((s.regNat w rn + (2 ^ w.bits - imm)) % 2 ^ w.bits))] (s.pc + 4#64) s.flags ∧
        MemoryKept s t) ∧
    aliasNegImm w rd sh imm12 = .subImm w sh imm12 .zr rd

/-- 41_dp_immediate.md section 2, flags by 10_state.md section 4 on the spec's decision D7 (the sense of C): result, flags,
frame and completion of ADDS and SUBS (immediate). -/
def Obligations.AddsSubsImmediateResult : Prop :=
  ∀ (w : Width) (sh : Bool) (imm12 : BitVec 12) (rn rd : Reg) (s : State) (imm : Nat),
    imm = imm12.toNat * (if sh then 4096 else 1) →
    (HasTableFields (.addsImm w sh imm12 rn rd) ∧
      ∃ t, exec (.addsImm w sh imm12 rn rd) s = .next t ∧
        Effect s t [(rd, BitVec.ofNat 64 ((s.regNat w rn + imm) % 2 ^ w.bits))] (s.pc + 4#64)
          (addFlagsOf w.bits (s.regNat w rn) imm) ∧ MemoryKept s t) ∧
    (HasTableFields (.subsImm w sh imm12 rn rd) ∧
      ∃ t, exec (.subsImm w sh imm12 rn rd) s = .next t ∧
        Effect s t [(rd, BitVec.ofNat 64 ((s.regNat w rn + (2 ^ w.bits - imm)) % 2 ^ w.bits))] (s.pc + 4#64)
          (subFlagsOf w.bits (s.regNat w rn) imm) ∧ MemoryKept s t)

/-- 41_dp_immediate.md R164, R165, R166: result, frame and completion of MOVN, MOVZ and MOVK, and `UndefinedInstruction` for
a 32-bit move into half-word 2 or 3. -/
def Obligations.WideMoveResult : Prop :=
  ∀ (w : Width) (hw : BitVec 2) (imm16 : BitVec 16) (rd : Reg) (s : State),
    (HasTableFields (.movn w hw imm16 rd) ∧ HasTableFields (.movz w hw imm16 rd) ∧ HasTableFields (.movk w hw imm16 rd)) ∧
    (w = .w64 ∨ hw.toNat < 2 →
      (∃ t, exec (.movn w hw imm16 rd) s = .next t ∧
        Effect s t [(rd, BitVec.ofNat 64 (complementOf w.bits (imm16.toNat * 2 ^ (16 * hw.toNat))))] (s.pc + 4#64) s.flags ∧
        MemoryKept s t) ∧
      (∃ t, exec (.movz w hw imm16 rd) s = .next t ∧
        Effect s t [(rd, BitVec.ofNat 64 (imm16.toNat * 2 ^ (16 * hw.toNat)))] (s.pc + 4#64) s.flags ∧ MemoryKept s t) ∧
      (∃ t v, exec (.movk w hw imm16 rd) s = .next t ∧
        (∀ i, i < 64 → v.getLsbD i =
          if 16 * hw.toNat ≤ i ∧ i < 16 * hw.toNat + 16 then imm16.getLsbD (i - 16 * hw.toNat)
          else (decide (i < w.bits) && (s.readReg rd).getLsbD i)) ∧
        Effect s t [(rd, v)] (s.pc + 4#64) s.flags ∧ MemoryKept s t)) ∧
    (w = .w32 ∧ 2 ≤ hw.toNat →
      TakesUndefined (.movn w hw imm16 rd) s ∧ TakesUndefined (.movz w hw imm16 rd) s ∧
        TakesUndefined (.movk w hw imm16 rd) s)

/-- 41_dp_immediate.md section 4: SUB then ADD of the same immediate restores the source at the operating width. -/
def Obligations.SubThenAddRestores : Prop :=
  ∀ (w : Width) (sh : Bool) (imm12 : BitVec 12) (rn rd : Reg) (s : State), rd ≠ .zr →
    ∃ t u, exec (.subImm w sh imm12 rn rd) s = .next t ∧ exec (.addImm w sh imm12 rd rd) t = .next u ∧
      (u.readReg rd).toNat = s.regNat w rn

/-! ### Data-processing (register) -/

/-- 42_dp_register.md section 1 (R182, whose formulas the spec marks as general knowledge): the four shifts as arithmetic
on numbers, and amount 0 returns the value. -/
def Obligations.ShiftOpMeaning : Prop :=
  ∀ (w : Width) (v : BitVec w.bits) (shift : ShiftType) (amount : Nat), amount < w.bits →
    (shiftOp v shift amount).toNat = shiftOf w.bits shift v.toNat amount ∧ shiftOp v shift 0 = v

/-- 42_dp_register.md R183, R185: result, frame and completion of ADD and SUB (shifted register); `UndefinedInstruction` for
ROR and for a 32-bit amount of 32 or more, and for a word with bit 21 = 1. -/
def Obligations.AddSubRegisterResult : Prop :=
  (∀ (w : Width) (shift : ShiftType) (rm : Reg) (imm6 : BitVec 6) (rn rd : Reg) (s : State) (op2 : Nat),
    op2 = s.operandNat w rm shift imm6 →
    (HasTableFields (.addReg w shift rm imm6 rn rd) ∧ HasTableFields (.subReg w shift rm imm6 rn rd)) ∧
    ((w = .w64 ∨ imm6.toNat < 32) ∧ shift ≠ .ror →
      (∃ t, exec (.addReg w shift rm imm6 rn rd) s = .next t ∧
        Effect s t [(rd, BitVec.ofNat 64 ((s.regNat w rn + op2) % 2 ^ w.bits))] (s.pc + 4#64) s.flags ∧ MemoryKept s t) ∧
      (∃ t, exec (.subReg w shift rm imm6 rn rd) s = .next t ∧
        Effect s t [(rd, BitVec.ofNat 64 ((s.regNat w rn + (2 ^ w.bits - op2)) % 2 ^ w.bits))] (s.pc + 4#64) s.flags ∧
        MemoryKept s t)) ∧
    ((w = .w32 ∧ 32 ≤ imm6.toNat) ∨ shift = .ror →
      TakesUndefined (.addReg w shift rm imm6 rn rd) s ∧ TakesUndefined (.subReg w shift rm imm6 rn rd) s)) ∧
  (∀ (w : Width) (rd rm : Reg) (shift : ShiftType) (amount : BitVec 6),
    aliasNegReg w rd rm shift amount = .subReg w shift rm amount .zr rd) ∧
  (∀ halt word : Word, word ≠ halt → field word 24 5 = 0b01011#5 → bit word 21 = true →
    ∃ why, decodeWith halt word = .error (.undefinedInstruction why))

/-- 42_dp_register.md section 2, flags by 10_state.md section 4 on the spec's decision D7, traps on its decisions D9 and D10:
ADDS and SUBS (shifted register). -/
def Obligations.AddsSubsRegisterResult : Prop :=
  ∀ (w : Width) (shift : ShiftType) (rm : Reg) (imm6 : BitVec 6) (rn rd : Reg) (s : State) (op2 : Nat),
    op2 = s.operandNat w rm shift imm6 →
    (HasTableFields (.addsReg w shift rm imm6 rn rd) ∧ HasTableFields (.subsReg w shift rm imm6 rn rd)) ∧
    ((w = .w64 ∨ imm6.toNat < 32) ∧ shift ≠ .ror →
      (∃ t, exec (.addsReg w shift rm imm6 rn rd) s = .next t ∧
        Effect s t [(rd, BitVec.ofNat 64 ((s.regNat w rn + op2) % 2 ^ w.bits))] (s.pc + 4#64)
          (addFlagsOf w.bits (s.regNat w rn) op2) ∧ MemoryKept s t) ∧
      (∃ t, exec (.subsReg w shift rm imm6 rn rd) s = .next t ∧
        Effect s t [(rd, BitVec.ofNat 64 ((s.regNat w rn + (2 ^ w.bits - op2)) % 2 ^ w.bits))] (s.pc + 4#64)
          (subFlagsOf w.bits (s.regNat w rn) op2) ∧ MemoryKept s t)) ∧
    ((w = .w32 ∧ 32 ≤ imm6.toNat) ∨ shift = .ror →
      TakesUndefined (.addsReg w shift rm imm6 rn rd) s ∧ TakesUndefined (.subsReg w shift rm imm6 rn rd) s)

/-- 42_dp_register.md R187, R189, R191: result, frame and completion of AND, ORR and EOR with all four shifts, and
`UndefinedInstruction` for a 32-bit amount of 32 or more; the AND encoding 0x8A000000 is the halt word. -/
def Obligations.LogicalResult : Prop :=
  (∀ (w : Width) (shift : ShiftType) (rm : Reg) (imm6 : BitVec 6) (rn rd : Reg) (s : State) (op2 : Nat),
    op2 = s.operandNat w rm shift imm6 →
    (HasTableFields (.and w shift rm imm6 rn rd) ∧ HasTableFields (.orr w shift rm imm6 rn rd) ∧
      HasTableFields (.eor w shift rm imm6 rn rd)) ∧
    (w = .w64 ∨ imm6.toNat < 32 →
      (∃ t, exec (.and w shift rm imm6 rn rd) s = .next t ∧
        Effect s t [(rd, BitVec.ofNat 64 (s.regNat w rn &&& op2))] (s.pc + 4#64) s.flags ∧ MemoryKept s t) ∧
      (∃ t, exec (.orr w shift rm imm6 rn rd) s = .next t ∧
        Effect s t [(rd, BitVec.ofNat 64 (s.regNat w rn ||| op2))] (s.pc + 4#64) s.flags ∧ MemoryKept s t) ∧
      (∃ t, exec (.eor w shift rm imm6 rn rd) s = .next t ∧
        Effect s t [(rd, BitVec.ofNat 64 (s.regNat w rn ^^^ op2))] (s.pc + 4#64) s.flags ∧ MemoryKept s t)) ∧
    (w = .w32 ∧ 32 ≤ imm6.toNat →
      TakesUndefined (.and w shift rm imm6 rn rd) s ∧ TakesUndefined (.orr w shift rm imm6 rn rd) s ∧
        TakesUndefined (.eor w shift rm imm6 rn rd) s)) ∧
  (encode (.and .w64 .lsl (.x 0) 0#6 (.x 0) (.x 0)) = 0x8A000000#32 ∧ decode 0x8A000000#32 = .ok .halt) ∧
  (∀ (w : Width) (rd rm : Reg), aliasMov w rd rm = .orr w .lsl rm 0#6 .zr rd)

/-- 42_dp_register.md R188, R190, R192: the same for BIC, ORN and EON; the complement is taken after the shift, at the
operating width. -/
def Obligations.LogicalComplementResult : Prop :=
  (∀ (w : Width) (shift : ShiftType) (rm : Reg) (imm6 : BitVec 6) (rn rd : Reg) (s : State) (op2 : Nat),
    op2 = complementOf w.bits (s.operandNat w rm shift imm6) →
    (HasTableFields (.bic w shift rm imm6 rn rd) ∧ HasTableFields (.orn w shift rm imm6 rn rd) ∧
      HasTableFields (.eon w shift rm imm6 rn rd)) ∧
    (w = .w64 ∨ imm6.toNat < 32 →
      (∃ t, exec (.bic w shift rm imm6 rn rd) s = .next t ∧
        Effect s t [(rd, BitVec.ofNat 64 (s.regNat w rn &&& op2))] (s.pc + 4#64) s.flags ∧ MemoryKept s t) ∧
      (∃ t, exec (.orn w shift rm imm6 rn rd) s = .next t ∧
        Effect s t [(rd, BitVec.ofNat 64 (s.regNat w rn ||| op2))] (s.pc + 4#64) s.flags ∧ MemoryKept s t) ∧
      (∃ t, exec (.eon w shift rm imm6 rn rd) s = .next t ∧
        Effect s t [(rd, BitVec.ofNat 64 (s.regNat w rn ^^^ op2))] (s.pc + 4#64) s.flags ∧ MemoryKept s t)) ∧
    (w = .w32 ∧ 32 ≤ imm6.toNat →
      TakesUndefined (.bic w shift rm imm6 rn rd) s ∧ TakesUndefined (.orn w shift rm imm6 rn rd) s ∧
        TakesUndefined (.eon w shift rm imm6 rn rd) s)) ∧
  (∀ (w : Width) (rd rm : Reg) (shift : ShiftType) (amount : BitVec 6),
    aliasMvn w rd rm shift amount = .orn w shift rm amount .zr rd)

/-- 42_dp_register.md section 3 (R193, R194), on the spec's decision D8 (C and V are cleared): ANDS and BICS. -/
def Obligations.AndsBicsResult : Prop :=
  ∀ (w : Width) (shift : ShiftType) (rm : Reg) (imm6 : BitVec 6) (rn rd : Reg) (s : State) (op2 : Nat),
    op2 = s.operandNat w rm shift imm6 →
    (HasTableFields (.ands w shift rm imm6 rn rd) ∧ HasTableFields (.bics w shift rm imm6 rn rd)) ∧
    (w = .w64 ∨ imm6.toNat < 32 →
      (∃ t, exec (.ands w shift rm imm6 rn rd) s = .next t ∧
        Effect s t [(rd, BitVec.ofNat 64 (s.regNat w rn &&& op2))] (s.pc + 4#64)
          (logicalFlagsOf w.bits (s.regNat w rn &&& op2)) ∧ MemoryKept s t) ∧
      (∃ t, exec (.bics w shift rm imm6 rn rd) s = .next t ∧
        Effect s t [(rd, BitVec.ofNat 64 (s.regNat w rn &&& complementOf w.bits op2))] (s.pc + 4#64)
          (logicalFlagsOf w.bits (s.regNat w rn &&& complementOf w.bits op2)) ∧ MemoryKept s t)) ∧
    (w = .w32 ∧ 32 ≤ imm6.toNat →
      TakesUndefined (.ands w shift rm imm6 rn rd) s ∧ TakesUndefined (.bics w shift rm imm6 rn rd) s)

/-- 42_dp_register.md R195, R196: result, frame and completion of MADD and MSUB; every other word with the mode bit set is
undefined. -/
def Obligations.MultiplyResult : Prop :=
  (∀ (w : Width) (rm ra rn rd : Reg) (s : State),
    (HasTableFields (.madd w rm ra rn rd) ∧
      ∃ t, exec (.madd w rm ra rn rd) s = .next t ∧
        Effect s t [(rd, BitVec.ofNat 64 ((s.regNat w ra + s.regNat w rn * s.regNat w rm) % 2 ^ w.bits))] (s.pc + 4#64)
          s.flags ∧ MemoryKept s t) ∧
    (HasTableFields (.msub w rm ra rn rd) ∧
      ∃ t v, exec (.msub w rm ra rn rd) s = .next t ∧
        (v.toNat : Int) = ((s.regNat w ra : Int) - s.regNat w rn * s.regNat w rm) % 2 ^ w.bits ∧
        Effect s t [(rd, v)] (s.pc + 4#64) s.flags ∧ MemoryKept s t) ∧
    aliasMul w rd rn rm = .madd w rm .zr rn rd ∧ aliasMneg w rd rn rm = .msub w rm .zr rn rd) ∧
  (∀ halt word : Word, word ≠ halt → field word 25 3 = 0b101#3 → bit word 28 = true →
    ¬(field word 21 4 = 0b1000#4 ∧ field word 29 2 = 0b00#2) →
    ∃ why, decodeWith halt word = .error (.undefinedInstruction why))

/-! ### Branches -/

/-- 43_branch.md R220: B goes to `pc` plus four times its signed offset, modulo 2^64, writes nothing else, and a target
outside memory faults at the next fetch. -/
def Obligations.BranchResult : Prop :=
  ∀ (halt : Word) (simm26 : BitVec 26) (s : State) (target : DWord),
    (target.toNat : Int) = ((s.pc.toNat : Int) + 4 * simm26.toInt) % 2 ^ 64 →
    HasTableFields (.b simm26) ∧
    ∃ t, exec (.b simm26) s = .next t ∧ Effect s t [] target s.flags ∧ MemoryKept s t ∧
      (s.Running → Config.memSize < target.toNat + 4 →
        stepWith halt t =
          .next { t with fault := some { cause := .memoryBoundViolation target 4 .fetch, pc := target } })

/-- 43_branch.md section 2 (R221), on the spec's decision D14 (which conditions are supported): B.cond goes to its target
if the condition holds and to `pc` + 4 if not; an unsupported condition code is undefined, whatever the flags. -/
def Obligations.BranchCondResult : Prop :=
  (∀ (simm19 : BitVec 19) (cond : Cond) (s : State) (target : DWord),
    (target.toNat : Int) = ((s.pc.toNat : Int) + 4 * simm19.toInt) % 2 ^ 64 →
    HasTableFields (.bCond simm19 cond) ∧
    ∃ t, exec (.bCond simm19 cond) s = .next t ∧
      Effect s t [] (if condHolds s.flags cond = true then target else s.pc + 4#64) s.flags ∧ MemoryKept s t) ∧
  (∀ halt word : Word, word ≠ halt → field word 24 8 = 0b01010100#8 → bit word 4 = false →
    (field word 0 4).toNat ∉ [0, 1, 10, 11, 12, 13, 14] →
    ∃ why, decodeWith halt word = .error (.undefinedInstruction why))

/-- 43_branch.md section 2 (R222), on the spec's decisions D14 and D26 (LT holds when N differs from V): the seven
predicates, and what they mean after a compare of two numbers of either width. -/
def Obligations.ConditionMeaning : Prop :=
  (∀ f : Flags,
    condHolds f .eq = f.z ∧ condHolds f .ne = !f.z ∧ condHolds f .ge = (f.n == f.v) ∧ condHolds f .lt = (f.n != f.v) ∧
    condHolds f .gt = (!f.z && (f.n == f.v)) ∧ condHolds f .le = !(!f.z && (f.n == f.v)) ∧ condHolds f .al = true) ∧
  (∀ (w : Width) (a b : BitVec w.bits) (f : Flags), f = (addSub a b true).flags →
    (condHolds f .eq = true ↔ a.toInt = b.toInt) ∧ (condHolds f .ne = true ↔ a.toInt ≠ b.toInt) ∧
    (condHolds f .ge = true ↔ b.toInt ≤ a.toInt) ∧ (condHolds f .lt = true ↔ a.toInt < b.toInt) ∧
    (condHolds f .gt = true ↔ b.toInt < a.toInt) ∧ (condHolds f .le = true ↔ a.toInt ≤ b.toInt))

/-- 43_branch.md R223: BR sets the whole `pc` from a 64-bit register (0 for number 31), unchecked, writes nothing else, and
a target outside memory faults at the next fetch; one that is inside is fetched from, aligned or not. -/
def Obligations.BranchRegisterResult : Prop :=
  ∀ (halt : Word) (xn : Reg) (s : State),
    HasTableFields (.br xn) ∧
    ∃ t, exec (.br xn) s = .next t ∧ Effect s t [] (s.readReg xn) s.flags ∧ MemoryKept s t ∧
      (xn = .zr → t.pc = 0#64) ∧
      (s.Running → Config.memSize < (s.readReg xn).toNat + 4 →
        stepWith halt t =
          .next { t with fault := some { cause := .memoryBoundViolation (s.readReg xn) 4 .fetch, pc := s.readReg xn } }) ∧
      (s.Running → (s.readReg xn).toNat + 4 ≤ Config.memSize →
        stepWith halt t =
          execWord halt (wordOfBytes (s.mem.byte (s.readReg xn).toNat) (s.mem.byte ((s.readReg xn).toNat + 1))
            (s.mem.byte ((s.readReg xn).toNat + 2)) (s.mem.byte ((s.readReg xn).toNat + 3))) t)

/-! ### Loads and stores -/

/-- 44_load_store.md R241: LDR (unsigned offset). -/
def Obligations.LoadUnsignedResult : Prop :=
  ∀ (w : Width) (imm12 : BitVec 12) (xn rt : Reg) (s : State) (addr : DWord), addr = s.unsignedAddress w xn imm12 →
    HasTableFields (.ldrUnsigned w imm12 xn rt) ∧
    addr.toNat = ((s.readReg xn).toNat + imm12.toNat * w.bytes) % 2 ^ 64 ∧
    (addr.toNat + w.bytes ≤ Config.memSize →
      ∃ t v, exec (.ldrUnsigned w imm12 xn rt) s = .next t ∧ LoadedValue s addr.toNat w.bytes v ∧
        Effect s t [(rt, v)] (s.pc + 4#64) s.flags ∧ MemoryKept s t) ∧
    (Config.memSize < addr.toNat + w.bytes → TakesBoundViolation (.ldrUnsigned w imm12 xn rt) s addr w.bytes .load)

/-- 44_load_store.md R242: STR (unsigned offset). -/
def Obligations.StoreUnsignedResult : Prop :=
  ∀ (w : Width) (imm12 : BitVec 12) (xn rt : Reg) (s : State) (addr : DWord), addr = s.unsignedAddress w xn imm12 →
    HasTableFields (.strUnsigned w imm12 xn rt) ∧
    addr.toNat = ((s.readReg xn).toNat + imm12.toNat * w.bytes) % 2 ^ 64 ∧
    (s.mem.wf = true → addr.toNat + w.bytes ≤ Config.memSize →
      ∃ t, exec (.strUnsigned w imm12 xn rt) s = .next t ∧ MemoryStored s t addr.toNat w.bytes (s.readReg rt) ∧
        Effect s t [] (s.pc + 4#64) s.flags) ∧
    (Config.memSize < addr.toNat + w.bytes → TakesBoundViolation (.strUnsigned w imm12 xn rt) s addr w.bytes .store)

/-- 44_load_store.md R243, R245: LDR, pre-indexed (access at the updated base) and post-indexed (access at the old base),
both with write-back; `UndefinedInstruction` when one general register is base and destination. -/
def Obligations.LoadIndexedResult : Prop :=
  ∀ (w : Width) (simm9 : BitVec 9) (xn rt : Reg) (s : State) (old new : DWord),
    old = s.readReg xn → new = s.indexedAddress xn simm9 →
    (HasTableFields (.ldrPre w simm9 xn rt) ∧ HasTableFields (.ldrPost w simm9 xn rt)) ∧
    (new.toNat : Int) = ((old.toNat : Int) + simm9.toInt) % 2 ^ 64 ∧
    (rt ≠ xn ∨ xn = .zr →
      (new.toNat + w.bytes ≤ Config.memSize →
        ∃ t v, exec (.ldrPre w simm9 xn rt) s = .next t ∧ LoadedValue s new.toNat w.bytes v ∧
          Effect s t [(xn, new), (rt, v)] (s.pc + 4#64) s.flags ∧ MemoryKept s t) ∧
      (Config.memSize < new.toNat + w.bytes → TakesBoundViolation (.ldrPre w simm9 xn rt) s new w.bytes .load) ∧
      (old.toNat + w.bytes ≤ Config.memSize →
        ∃ t v, exec (.ldrPost w simm9 xn rt) s = .next t ∧ LoadedValue s old.toNat w.bytes v ∧
          Effect s t [(xn, new), (rt, v)] (s.pc + 4#64) s.flags ∧ MemoryKept s t) ∧
      (Config.memSize < old.toNat + w.bytes → TakesBoundViolation (.ldrPost w simm9 xn rt) s old w.bytes .load)) ∧
    (rt = xn ∧ xn ≠ .zr → TakesUndefined (.ldrPre w simm9 xn rt) s ∧ TakesUndefined (.ldrPost w simm9 xn rt) s)

/-- 44_load_store.md R244, R246: STR, pre-indexed and post-indexed, both with write-back; `UndefinedInstruction` when one
general register is base and source. -/
def Obligations.StoreIndexedResult : Prop :=
  ∀ (w : Width) (simm9 : BitVec 9) (xn rt : Reg) (s : State) (old new : DWord),
    old = s.readReg xn → new = s.indexedAddress xn simm9 →
    (HasTableFields (.strPre w simm9 xn rt) ∧ HasTableFields (.strPost w simm9 xn rt)) ∧
    (new.toNat : Int) = ((old.toNat : Int) + simm9.toInt) % 2 ^ 64 ∧
    (rt ≠ xn ∨ xn = .zr →
      (s.mem.wf = true → new.toNat + w.bytes ≤ Config.memSize →
        ∃ t, exec (.strPre w simm9 xn rt) s = .next t ∧ MemoryStored s t new.toNat w.bytes (s.readReg rt) ∧
          Effect s t [(xn, new)] (s.pc + 4#64) s.flags) ∧
      (Config.memSize < new.toNat + w.bytes → TakesBoundViolation (.strPre w simm9 xn rt) s new w.bytes .store) ∧
      (s.mem.wf = true → old.toNat + w.bytes ≤ Config.memSize →
        ∃ t, exec (.strPost w simm9 xn rt) s = .next t ∧ MemoryStored s t old.toNat w.bytes (s.readReg rt) ∧
          Effect s t [(xn, new)] (s.pc + 4#64) s.flags) ∧
      (Config.memSize < old.toNat + w.bytes → TakesBoundViolation (.strPost w simm9 xn rt) s old w.bytes .store)) ∧
    (rt = xn ∧ xn ≠ .zr → TakesUndefined (.strPre w simm9 xn rt) s ∧ TakesUndefined (.strPost w simm9 xn rt) s)

/-- 44_load_store.md R248, R249: LDR and STR (register offset); `UndefinedInstruction` when bits 15:10 are not `011010`. -/
def Obligations.RegisterOffsetResult : Prop :=
  (∀ (w : Width) (xm xn rt : Reg) (s : State) (addr : DWord), addr = s.registerAddress xn xm →
    (HasTableFields (.ldrRegister w xm xn rt) ∧ HasTableFields (.strRegister w xm xn rt)) ∧
    addr.toNat = ((s.readReg xn).toNat + (s.readReg xm).toNat) % 2 ^ 64 ∧
    (addr.toNat + w.bytes ≤ Config.memSize →
      ∃ t v, exec (.ldrRegister w xm xn rt) s = .next t ∧ LoadedValue s addr.toNat w.bytes v ∧
        Effect s t [(rt, v)] (s.pc + 4#64) s.flags ∧ MemoryKept s t) ∧
    (s.mem.wf = true → addr.toNat + w.bytes ≤ Config.memSize →
      ∃ t, exec (.strRegister w xm xn rt) s = .next t ∧ MemoryStored s t addr.toNat w.bytes (s.readReg rt) ∧
        Effect s t [] (s.pc + 4#64) s.flags) ∧
    (Config.memSize < addr.toNat + w.bytes →
      TakesBoundViolation (.ldrRegister w xm xn rt) s addr w.bytes .load ∧
        TakesBoundViolation (.strRegister w xm xn rt) s addr w.bytes .store)) ∧
  (∀ halt word : Word, word ≠ halt → bit word 31 = true → field word 25 5 = 0b11100#5 → bit word 24 = false →
    bit word 23 = false → bit word 21 = true → field word 10 6 ≠ 0b011010#6 →
    ∃ why, decodeWith halt word = .error (.undefinedInstruction why))

/-- 44_load_store.md R250: LDR (literal), relative to the instruction's own address. -/
def Obligations.LoadLiteralResult : Prop :=
  ∀ (w : Width) (simm19 : BitVec 19) (rt : Reg) (s : State) (addr : DWord), addr = s.pcRelative simm19 →
    HasTableFields (.ldrLiteral w simm19 rt) ∧
    (addr.toNat : Int) = ((s.pc.toNat : Int) + 4 * simm19.toInt) % 2 ^ 64 ∧
    (addr.toNat + w.bytes ≤ Config.memSize →
      ∃ t v, exec (.ldrLiteral w simm19 rt) s = .next t ∧ LoadedValue s addr.toNat w.bytes v ∧
        Effect s t [(rt, v)] (s.pc + 4#64) s.flags ∧ MemoryKept s t) ∧
    (Config.memSize < addr.toNat + w.bytes → TakesBoundViolation (.ldrLiteral w simm19 rt) s addr w.bytes .load)

/-! ### Flags and widths -/

/-- 10_state.md section 4 (R32, R33), on the spec's decision D7: what the four flags of `AddSub` say of the exact sum or
difference. C is the unsigned carry, or no borrow; V says that the exact signed result does not fit. -/
def Obligations.AddSubFlagsMeaning : Prop :=
  ∀ (w : Width) (a b : BitVec w.bits) (isSub : Bool) (r : AddSubResult w.bits), r = addSub a b isSub →
    (isSub = false →
      r.result.toNat = (a.toNat + b.toNat) % 2 ^ w.bits ∧
      (r.flags.c = true ↔ r.result.toNat ≠ a.toNat + b.toNat) ∧
      (r.flags.v = true ↔ r.result.toInt ≠ a.toInt + b.toInt)) ∧
    (isSub = true →
      (r.result.toNat : Int) = ((a.toNat : Int) - b.toNat) % 2 ^ w.bits ∧
      (r.flags.c = true ↔ b.toNat ≤ a.toNat) ∧
      (r.flags.v = true ↔ r.result.toInt ≠ a.toInt - b.toInt)) ∧
    (r.flags.n = true ↔ r.result.toInt < 0) ∧ (r.flags.z = true ↔ r.result.toNat = 0)

/-- 41_dp_immediate.md section 4 and 42_dp_register.md section 5: a 32-bit data-processing instruction depends on the low
halves of the registers only, and leaves the upper half of its destination 0. -/
def Obligations.NarrowInstructionsIgnoreUpperHalves : Prop :=
  ∀ (i : Instr) (rd : Reg) (s s' t : State),
    (∃ sh imm12 rn, i = .addImm .w32 sh imm12 rn rd ∨ i = .addsImm .w32 sh imm12 rn rd ∨ i = .subImm .w32 sh imm12 rn rd ∨
      i = .subsImm .w32 sh imm12 rn rd) ∨
    (∃ hw imm16, i = .movn .w32 hw imm16 rd ∨ i = .movz .w32 hw imm16 rd ∨ i = .movk .w32 hw imm16 rd) ∨
    (∃ shift rm imm6 rn, i = .addReg .w32 shift rm imm6 rn rd ∨ i = .addsReg .w32 shift rm imm6 rn rd ∨
      i = .subReg .w32 shift rm imm6 rn rd ∨ i = .subsReg .w32 shift rm imm6 rn rd ∨ i = .and .w32 shift rm imm6 rn rd ∨
      i = .bic .w32 shift rm imm6 rn rd ∨ i = .orr .w32 shift rm imm6 rn rd ∨ i = .orn .w32 shift rm imm6 rn rd ∨
      i = .eor .w32 shift rm imm6 rn rd ∨ i = .eon .w32 shift rm imm6 rn rd ∨ i = .ands .w32 shift rm imm6 rn rd ∨
      i = .bics .w32 shift rm imm6 rn rd) ∨
    (∃ rm ra rn, i = .madd .w32 rm ra rn rd ∨ i = .msub .w32 rm ra rn rd) →
    (∀ r, s.regNat .w32 r = s'.regNat .w32 r) → s.flags = s'.flags → s.fault = none → s'.fault = none →
    exec i s = .next t → t.fault = none →
    ∃ t', exec i s' = .next t' ∧ t'.fault = none ∧ t'.readReg rd = t.readReg rd ∧ (t.readReg rd).toNat < 2 ^ 32 ∧
      t'.flags = t.flags

/-! ### The host's observation and the toolchain's contract -/

/-- 70_reset_and_hazards.md section 3 (R306), on the spec's decision D27: a halted state without fault, and no other, is
observed; the dump lists the registers, `pc`, the flags as the letters N, Z, C, V or `-`, and exactly the non-zero words at
multiples of 4. -/
def Obligations.ObservationContent : Prop :=
  ∀ s : State,
    (s.observe = some s.dump ↔ s.halted = true ∧ s.fault = none) ∧
    (s.observe = none ↔ ¬(s.halted = true ∧ s.fault = none)) ∧
    s.dump.registers.length = 31 ∧ (∀ i : Fin 31, s.dump.registers[i.val]? = some (s.readReg (.x i))) ∧
    s.dump.pc = s.pc ∧
    s.dump.flags = [if s.flags.n = true then 'N' else '-', if s.flags.z = true then 'Z' else '-',
      if s.flags.c = true then 'C' else '-', if s.flags.v = true then 'V' else '-'] ∧
    (∀ a v, (a, v) ∈ s.dump.words ↔
      a % 4 = 0 ∧ a + 4 ≤ Config.memSize ∧ s.memRead (BitVec.ofNat 64 a) .w32 .load = .ok v ∧ v ≠ 0#32) ∧
    s.dump.words.Pairwise (fun p q => p.1 < q.1)

/-- The dump computed from the listed bytes alone is the scan of all memory (92_eei_decisions.md D27). -/
def Obligations.FastDumpIsTheScan : Prop :=
  ∀ m : Memory, m.wf = true → m.nonzeroWordsFast = m.nonzeroWords

/-- 30_encoding.md R129: a label's address is four times the number of lines before it that take a slot; the last
definition of a name counts. -/
def Obligations.LabelAddressLaw : Prop :=
  ∀ (before after : List SourceLine) (name : String), .label name ∉ after →
    labelAddress 0 (before ++ .label name :: after) name = some (4 * slotCount before)

/-- 30_encoding.md section 11 (R132), the toolchain's contract that the model takes over (log entry 7): what the encoder's
range checks accept, negative values among those refused, and that an accepted value means what was asked; a branch to a
label that resolves within range goes to the label's address. -/
def Obligations.EncoderRangeChecks : Prop :=
  (∀ v : Int, (0 ≤ v ∧ v < 4096 → ∃ f, checkArithmeticImmediate v = some f ∧ (f.toNat : Int) = v) ∧
    (¬(0 ≤ v ∧ v < 4096) → checkArithmeticImmediate v = none)) ∧
  (∀ a : Int, (a % 16 = 0 ∧ 0 ≤ a ∧ a ≤ 48 → ∃ f, checkWideMoveShift a = some f ∧ (16 * f.toNat : Int) = a) ∧
    (¬(a % 16 = 0 ∧ 0 ≤ a ∧ a ≤ 48) → checkWideMoveShift a = none)) ∧
  (∀ (n : Nat) (target current : Int), n = 19 ∨ n = 26 → (target - current) % 4 = 0 →
    ((-2 ^ (n + 1) ≤ target - current ∧ target - current < 2 ^ (n + 1)) →
      ∃ f, checkWordOffset n target current = some f ∧ current + 4 * f.toInt = target) ∧
    (¬(-2 ^ (n + 1) ≤ target - current ∧ target - current < 2 ^ (n + 1)) → checkWordOffset n target current = none)) ∧
  (∀ (w : Width) (o : Int), (o % w.bytes = 0 ∧ 0 ≤ o ∧ o < 4096 * w.bytes →
      ∃ f, checkScaledOffset w o = some f ∧ ((scaledOffset w f).toNat : Int) = o) ∧
    (¬(o % w.bytes = 0 ∧ 0 ≤ o ∧ o < 4096 * w.bytes) → checkScaledOffset w o = none)) ∧
  (∀ o : Int, (-256 ≤ o ∧ o ≤ 255 → ∃ f, checkIndexOffset o = some f ∧ (byteOffset f).toInt = o) ∧
    (¬(-256 ≤ o ∧ o ≤ 255) → checkIndexOffset o = none)) ∧
  (∀ (labels : String → Option Nat) (name : String) (target : Nat) (s : State), labels name = some target →
    target % 4 = 0 → s.pc.toNat % 4 = 0 → target < 2 ^ 20 → s.pc.toNat < 2 ^ 20 →
    (∃ i t, slotInstr labels s.pc.toNat (.b name) = some i ∧ exec i s = .next t ∧ t.pc.toNat = target) ∧
    (∀ cond, condHolds s.flags cond = true →
      ∃ i t, slotInstr labels s.pc.toNat (.bCond cond name) = some i ∧ exec i s = .next t ∧ t.pc.toNat = target))

/-- 30_encoding.md section 11 (R130 to R132), the toolchain's contract that the model takes over (log entry 7): every line of
a program takes its own word. A line that stands for an instruction (its syntax, or its alias's expansion, with values in
range) emits that instruction's word; every other line is a local error, which emits the zero word with a diagnostic, and
encoding goes on. The local errors are then named one by one: an unresolved label, an unsupported operand or addressing
combination (read from R130 and R131, log entry 18), and a failed range check. The core does not recognise the zero
word (R126). -/
def Obligations.LocalErrorsEmitZeroWord : Prop :=
  (∀ (labels : String → Option Nat) (a addr : Nat) (before after : List SourceLine) (i : SourceInstr),
    addr = a + 4 * slotCount before →
    assembleFrom labels a (before ++ .instruction i :: after) =
      assembleFrom labels a before ++ emittedWord (slotInstr labels addr i) :: assembleFrom labels (addr + 4) after ∧
    (assembleFrom labels a before).length = slotCount before ∧
    (∀ j, LineStandsFor labels addr i j →
      (assembleFrom labels a (before ++ .instruction i :: after))[slotCount before]? = some (encode j) ∧
      addr ∉ localErrorsFrom labels a (before ++ .instruction i :: after)) ∧
    ((∀ j, ¬LineStandsFor labels addr i j) →
      (assembleFrom labels a (before ++ .instruction i :: after))[slotCount before]? = some 0#32 ∧
      addr ∈ localErrorsFrom labels a (before ++ .instruction i :: after))) ∧
  (∀ (labels : String → Option Nat) (a : Nat) (i : SourceInstr) (j : Instr),
    slotInstr labels a i = some j ↔ LineStandsFor labels a i j) ∧
  (∀ (labels : String → Option Nat) (a : Nat) (name : String) (rt : SourceReg) (cond : Cond), labels name = none →
    slotInstr labels a (.b name) = none ∧ slotInstr labels a (.bCond cond name) = none ∧
    slotInstr labels a (.ldr rt (.label name)) = none) ∧
  (∀ (labels : String → Option Nat) (a target : Nat) (name : String) (rt : SourceReg) (cond : Cond),
    labels name = some target →
    (¬(-2 ^ 25 ≤ ((target : Int) - a) / 4 ∧ ((target : Int) - a) / 4 < 2 ^ 25) → slotInstr labels a (.b name) = none) ∧
    (¬(-2 ^ 18 ≤ ((target : Int) - a) / 4 ∧ ((target : Int) - a) / 4 < 2 ^ 18) →
      slotInstr labels a (.bCond cond name) = none ∧ slotInstr labels a (.ldr rt (.label name)) = none)) ∧
  (∀ (labels : String → Option Nat) (a : Nat) (r n : SourceReg) (v : Int) (sh : Option SourceShift) (name : String),
    (∀ m, slotInstr labels a (.logical m r n (.immediate v sh)) = none) ∧
    slotInstr labels a (.tst n (.immediate v sh)) = none ∧ slotInstr labels a (.mvn r (.immediate v sh)) = none ∧
    slotInstr labels a (.mov r (.immediate v sh)) = none ∧
    slotInstr labels a (.str r (.label name)) = none ∧ slotInstr labels a (.str r (.integer v)) = none ∧
    (∀ q amount,
      (∀ m, slotInstr labels a (.arithmetic m r n (.register q (some ⟨.ror, amount⟩))) = none) ∧
      slotInstr labels a (.cmp n (.register q (some ⟨.ror, amount⟩))) = none ∧
      slotInstr labels a (.cmn n (.register q (some ⟨.ror, amount⟩))) = none ∧
      slotInstr labels a (.neg r (.register q (some ⟨.ror, amount⟩))) = none ∧
      slotInstr labels a (.negs r (.register q (some ⟨.ror, amount⟩))) = none)) ∧
  (∀ (labels : String → Option Nat) (a : Nat) (r n x : SourceReg) (v : Int), n.width = .w32 →
    slotInstr labels a (.br n) = none ∧
    ∀ address ∈ [SourceAddress.base n, .offset n v, .preIndexed n v, .postIndexed n v, .registerOffset n x,
        .registerOffset x n],
      slotInstr labels a (.ldr r address) = none ∧ slotInstr labels a (.str r address) = none) ∧
  (∀ (labels : String → Option Nat) (a : Nat) (r n q x : SourceReg) (op : SourceOperand) (sh : Option SourceShift),
    n.width ≠ r.width →
    (∀ m, slotInstr labels a (.arithmetic m r n op) = none ∧ slotInstr labels a (.arithmetic m r x (.register n sh)) = none) ∧
    (∀ m, slotInstr labels a (.logical m r n op) = none ∧ slotInstr labels a (.logical m r x (.register n sh)) = none) ∧
    (∀ i ∈ [SourceInstr.madd r n q x, .madd r q n x, .madd r q x n, .msub r n q x, .msub r q n x, .msub r q x n, .mul r n q,
        .mul r q n, .mneg r n q, .mneg r q n, .cmp r (.register n sh), .cmn r (.register n sh), .tst r (.register n sh),
        .neg r (.register n sh), .negs r (.register n sh), .mvn r (.register n sh), .mov r (.register n sh)],
      slotInstr labels a i = none)) ∧
  (∀ (labels : String → Option Nat) (a : Nat) (r n : SourceReg) (v : Int),
    (¬(0 ≤ v ∧ v < 4096) → ∀ m sh, slotInstr labels a (.arithmetic m r n (.immediate v sh)) = none) ∧
    (¬(v % 16 = 0 ∧ 0 ≤ v ∧ v ≤ 48) → ∀ m imm t, slotInstr labels a (.wide m r imm (some ⟨t, v⟩)) = none) ∧
    (¬(v % r.width.bytes = 0 ∧ 0 ≤ v ∧ v < 4096 * r.width.bytes) →
      slotInstr labels a (.ldr r (.offset n v)) = none ∧ slotInstr labels a (.str r (.offset n v)) = none) ∧
    (¬(-256 ≤ v ∧ v ≤ 255) →
      slotInstr labels a (.ldr r (.preIndexed n v)) = none ∧ slotInstr labels a (.str r (.preIndexed n v)) = none ∧
      slotInstr labels a (.ldr r (.postIndexed n v)) = none ∧ slotInstr labels a (.str r (.postIndexed n v)) = none)) ∧
  (∀ halt : Word, halt ≠ 0#32 → decodeWith halt 0#32 = .error .unknownClass)
end

