-- ==== Sys2Proof/Laws/Assembler.lean ====
section
/-! SUPPORT. For each shared operation of the toolchain's contract, one lemma that says all it can do. -/

namespace Sys2Proof.Machine

/-! ### Checks -/

/-- All that the unsigned range check can do. -/
theorem checkUnsigned_cases (n : Nat) (v : Int) :
    ((0 ≤ v ∧ v < 2 ^ n) ∧ ∃ f, checkUnsigned n v = some f ∧ (f.toNat : Int) = v) ∨
    (¬(0 ≤ v ∧ v < 2 ^ n) ∧ checkUnsigned n v = none) := by
  unfold checkUnsigned
  split
  next h =>
    refine .inl ⟨h, _, rfl, ?_⟩
    have hc : ((2 ^ n : Nat) : Int) = 2 ^ n := by push_cast; rfl
    rw [BitVec.toNat_ofInt, hc, Int.emod_eq_of_lt h.1 h.2]
    omega
  next h => exact .inr ⟨h, rfl⟩

/-- The unsigned range check gives the field that holds the value. -/
theorem checkUnsigned_eq_some {n : Nat} {v : Int} {f : BitVec n} : checkUnsigned n v = some f ↔ (f.toNat : Int) = v := by
  rcases checkUnsigned_cases n v with ⟨h, g, hg, e⟩ | ⟨h, hn⟩
  · rw [hg]
    constructor
    · rintro ⟨⟩; exact e
    · intro h'; congr 1; apply BitVec.eq_of_toNat_eq; omega
  · rw [hn]
    refine ⟨fun h' => (nomatch h'), fun e => absurd ?_ h⟩
    have hf : (f.toNat : Int) < ((2 ^ n : Nat) : Int) := by exact_mod_cast f.isLt
    push_cast at hf
    omega

/-- All that the check of an operand's width can do. -/
theorem registerAt_cases (w : Width) (r : SourceReg) :
    (r.width = w ∧ registerAt w r = some r.reg) ∨ (r.width ≠ w ∧ registerAt w r = none) := by
  unfold registerAt
  split
  next h => exact .inl ⟨h, rfl⟩
  next h => exact .inr ⟨h, rfl⟩

/-- The check of an operand's width gives its number. -/
theorem registerAt_eq_some {w : Width} {r : SourceReg} {q : Reg} : registerAt w r = some q ↔ r.width = w ∧ q = r.reg := by
  rcases registerAt_cases w r with ⟨h, e⟩ | ⟨h, e⟩ <;> rw [e] <;> simp [h, eq_comm]

/-! ### Operands -/

/-- The pre-shift flag of an immediate. -/
theorem checkImmediateShift_eq_some {shift : Option SourceShift} {flag : Bool} :
    checkImmediateShift shift = some flag ↔
      shift = (if flag then some { type := .lsl, amount := 12 } else none) := by
  cases shift with
  | none => cases flag <;> simp [checkImmediateShift]
  | some sh =>
    obtain ⟨t, amount⟩ := sh
    simp only [checkImmediateShift]
    split <;> cases flag <;> simp_all

/-- The shift of a register operand. -/
theorem checkRegisterShift_eq_some {rorToo : Bool} {shift : Option SourceShift} {t : ShiftType} {amount : BitVec 6} :
    checkRegisterShift rorToo shift = some (t, amount) ↔
      WrittenShift shift t amount ∧ (rorToo = false → t ≠ .ror) := by
  cases shift with
  | none =>
    simp only [checkRegisterShift, WrittenShift, Option.some.injEq, Prod.mk.injEq]
    constructor
    · rintro ⟨rfl, rfl⟩; exact ⟨⟨rfl, rfl⟩, fun _ h => nomatch h⟩
    · rintro ⟨⟨rfl, rfl⟩, _⟩; exact ⟨rfl, rfl⟩
  | some sh =>
    obtain ⟨u, v⟩ := sh
    simp only [checkRegisterShift, WrittenShift]
    split
    next h =>
      refine ⟨fun h' => (nomatch h'), ?_⟩
      rintro ⟨⟨rfl, _⟩, hn⟩
      exact absurd h.1 (hn h.2)
    next h =>
      simp only [Option.map_eq_some_iff, checkUnsigned_eq_some, Prod.mk.injEq]
      constructor
      · rintro ⟨g, h1, h2, rfl⟩; exact ⟨⟨h2.symm, h1⟩, by rintro e rfl; exact h ⟨h2, e⟩⟩
      · rintro ⟨⟨h1, h2⟩, _⟩; exact ⟨amount, h2, h1.symm, rfl⟩

/-- The instruction of a register operand. -/
theorem onRegister_eq_some {w : Width} {rorToo : Bool} {r : SourceReg} {shift : Option SourceShift}
    {k : ShiftType → Reg → BitVec 6 → Instr} {j : Instr} :
    onRegister w rorToo r shift k = some j ↔
      r.width = w ∧ ∃ t amount, WrittenShift shift t amount ∧ (rorToo = false → t ≠ .ror) ∧ j = k t r.reg amount := by
  unfold onRegister
  simp only [Option.bind_eq_bind, Option.bind_eq_some_iff, registerAt_eq_some, Prod.exists, checkRegisterShift_eq_some]
  constructor
  · rintro ⟨_, ⟨h, rfl⟩, t, amount, ⟨h1, h2⟩, h3⟩; cases h3; exact ⟨h, t, amount, h1, h2, rfl⟩
  · rintro ⟨h, t, amount, h1, h2, rfl⟩; exact ⟨_, ⟨h, rfl⟩, t, amount, ⟨h1, h2⟩, rfl⟩

/-- The word of a local error. -/
@[simp] theorem emittedWord_none : emittedWord none = 0#32 := rfl

/-- The word of an encoded line. -/
@[simp] theorem emittedWord_some (i : Instr) : emittedWord (some i) = encode i := rfl

/-! ### Lines -/

/-- One word for each slot. -/
@[simp] theorem length_assembleFrom (labels : String → Option Nat) (a : Nat) (ls : List SourceLine) :
    (assembleFrom labels a ls).length = slotCount ls := by
  induction ls generalizing a with
  | nil => rfl
  | cons l ls ih => cases l <;> simp [assembleFrom, slotCount, ih]

/-- The slots of two parts of a program. -/
theorem slotCount_append (before after : List SourceLine) :
    slotCount (before ++ after) = slotCount before + slotCount after := by
  induction before with
  | nil => simp [slotCount]
  | cons l ls ih => cases l <;> simp [slotCount, ih] <;> omega

/-- The words of two parts of a program; the second starts where the first ends. -/
theorem assembleFrom_append (labels : String → Option Nat) (a : Nat) (before after : List SourceLine) :
    assembleFrom labels a (before ++ after) =
      assembleFrom labels a before ++ assembleFrom labels (a + 4 * slotCount before) after := by
  induction before generalizing a with
  | nil => rfl
  | cons l ls ih => cases l <;> simp [assembleFrom, slotCount, ih] <;> congr 1 <;> omega

/-- The local errors of two parts of a program. -/
theorem localErrorsFrom_append (labels : String → Option Nat) (a : Nat) (before after : List SourceLine) :
    localErrorsFrom labels a (before ++ after) =
      localErrorsFrom labels a before ++ localErrorsFrom labels (a + 4 * slotCount before) after := by
  induction before generalizing a with
  | nil => rfl
  | cons l ls ih =>
    have e : a + 4 + 4 * slotCount ls = a + 4 * (slotCount ls + 1) := by omega
    cases l with
    | instruction i => simp only [List.cons_append, localErrorsFrom, slotCount, ih, e]; split <;> rfl
    | label n => exact ih a
    | int w => simp only [List.cons_append, localErrorsFrom, slotCount, ih, e]

/-- A local error lies at an address of its own lines. -/
theorem bounds_of_mem_localErrorsFrom {labels : String → Option Nat} {ls : List SourceLine} {a x : Nat}
    (h : x ∈ localErrorsFrom labels a ls) : a ≤ x ∧ x < a + 4 * slotCount ls := by
  induction ls generalizing a with
  | nil => simp [localErrorsFrom] at h
  | cons l ls ih =>
    cases l with
    | label n => exact ih h
    | int w => have := ih (a := a + 4) h; simp only [slotCount]; omega
    | instruction i =>
      simp only [localErrorsFrom] at h
      simp only [slotCount]
      split at h
      · rcases List.mem_cons.1 h with rfl | h
        · omega
        · have := ih h; omega
      · have := ih h; omega

/-- A name that no line defines has no address. -/
theorem labelAddress_eq_none {ls : List SourceLine} {q : String} (h : .label q ∉ ls) (a : Nat) : labelAddress a ls q = none := by
  induction ls generalizing a with
  | nil => rfl
  | cons l ls ih =>
    rw [List.mem_cons, not_or] at h
    cases l with
    | label n =>
      simp only [labelAddress, ih h.2]
      rw [if_neg]
      rintro rfl
      exact h.1 rfl
    | instruction i => exact ih h.2 _
    | int w => exact ih h.2 _

end Sys2Proof.Machine
end

