-- ==== Sys2Proof/Laws/Encoding.lean ====
section
/-! SUPPORT. The laws of fields: each field's conversions are inverse, and a field of a concatenation is a part of it. -/

namespace Sys2Proof

@[simp] theorem Reg.ofField_toField (r : Reg) : Reg.ofField r.toField = r := by
  cases r with
  | zr => rfl
  | x i =>
    have h : i.val % 32 = i.val := Nat.mod_eq_of_lt (by omega)
    simp [Reg.ofField, Reg.toField, h]

@[simp] theorem Reg.toField_ofField (f : BitVec 5) : (Reg.ofField f).toField = f := by
  by_cases h : f.toNat < 31
  · simp [Reg.ofField, h, Reg.toField]
  · simp only [Reg.ofField, h, dif_neg, not_false_eq_true, Reg.toField]
    apply BitVec.eq_of_toNat_eq
    have := f.isLt
    simp only [BitVec.toNat_ofNat]
    omega

@[simp] theorem ShiftType.ofField_toField (t : ShiftType) : ShiftType.ofField t.toField = t := by
  cases t <;> rfl

@[simp] theorem ShiftType.toField_ofField (f : BitVec 2) : (ShiftType.ofField f).toField = f := by
  revert f; decide

@[simp] theorem Cond.ofField_toField (c : Cond) : Cond.ofField c.toField = some c := by
  cases c <;> rfl

theorem Cond.toField_of_ofField {f : BitVec 4} {c : Cond} (h : Cond.ofField f = some c) : c.toField = f := by
  revert f c; decide

@[simp] theorem Width.ofBit_toField (w : Width) : Width.ofBit (w.toField.getLsbD 0) = w := by
  cases w <;> rfl

@[simp] theorem Width.ofBit_toField_getElem (w : Width) : Width.ofBit w.toField[0] = w := by
  cases w <;> rfl

@[simp] theorem Width.toField_ofBit (b : Bool) : (Width.ofBit b).toField = BitVec.ofBool b := by
  cases b <;> rfl

/-! ### Placed fields -/

/-- The bits of a placed field. -/
theorem bit_place {n : Nat} (lo i : Nat) (f : BitVec n) :
    bit (place lo f) i = (decide (i < 32) && decide (lo ≤ i) && f.getLsbD (i - lo)) := by
  rw [bit, place, BitVec.getLsbD_shiftLeft, BitVec.getLsbD_setWidth]
  by_cases h : i < 32
  · by_cases h2 : lo ≤ i
    · have h3 : ¬ i < lo := by omega
      have h4 : i - lo < 32 := by omega
      simp [h, h2, h3, h4]
    · have h3 : i < lo := by omega
      simp [h2, h3]
  · simp [h]

@[simp] theorem bit_or (a b : Word) (i : Nat) : bit (a ||| b) i = (bit a i || bit b i) := BitVec.getLsbD_or

/-- A bit inside a placed field. -/
theorem bit_place_inside {n : Nat} {lo i : Nat} (f : BitVec n) (h1 : lo ≤ i) (h2 : i < 32) :
    bit (place lo f) i = f.getLsbD (i - lo) := by
  rw [bit_place]; simp [h1, h2]

/-- A bit outside a placed field. -/
theorem bit_place_outside {n : Nat} {lo i : Nat} (f : BitVec n) (h : i < lo ∨ lo + n ≤ i) :
    bit (place lo f) i = false := by
  rw [bit_place]
  rcases h with h | h
  · have : ¬ lo ≤ i := by omega
    simp [this]
  · simp [BitVec.getLsbD_of_ge f (i - lo) (by omega)]

/-- The bits of a field. -/
theorem getLsbD_field (w : Word) (lo n i : Nat) : (field w lo n).getLsbD i = (decide (i < n) && bit w (lo + i)) := by
  rw [field, BitVec.getLsbD_extractLsb', bit]

@[simp] theorem field_or (a b : Word) (lo n : Nat) : field (a ||| b) lo n = field a lo n ||| field b lo n := by
  apply BitVec.eq_of_getLsbD_eq
  intro i hi
  rw [BitVec.getLsbD_or, getLsbD_field, getLsbD_field, getLsbD_field, bit_or]
  simp [hi]

/-- A placed field read back whole. -/
theorem field_place_same {n : Nat} {lo : Nat} (f : BitVec n) (h : lo + n ≤ 32) : field (place lo f) lo n = f := by
  apply BitVec.eq_of_getLsbD_eq
  intro i hi
  rw [getLsbD_field, bit_place_inside f (by omega) (by omega)]
  simp [hi]

/-- A part of a placed field. -/
theorem field_place_inside {n : Nat} {p lo k : Nat} (f : BitVec n) (h1 : p ≤ lo) (_h2 : lo + k ≤ p + n)
    (h3 : lo + k ≤ 32) : field (place p f) lo k = f.extractLsb' (lo - p) k := by
  apply BitVec.eq_of_getLsbD_eq
  intro i hi
  rw [getLsbD_field, bit_place_inside f (by omega) (by omega), BitVec.getLsbD_extractLsb',
    show lo + i - p = lo - p + i by omega]

/-- A field that a placed field does not meet. -/
theorem field_place_outside {n : Nat} {p lo k : Nat} (f : BitVec n) (h : lo + k ≤ p ∨ p + n ≤ lo) :
    field (place p f) lo k = 0#k := by
  apply BitVec.eq_of_getLsbD_eq
  intro i hi
  rw [getLsbD_field, bit_place_outside f (by omega)]
  simp

/-- A field as a number. -/
theorem toNat_field (w : Word) (lo n : Nat) : (field w lo n).toNat = w.toNat / 2 ^ lo % 2 ^ n := by
  rw [field, BitVec.extractLsb'_toNat, Nat.shiftRight_eq_div_pow]

/-- A word is the union of a low part and the rest. -/
theorem place_field_or_place_field (w : Word) (lo a b : Nat) :
    place (lo + a) (field w (lo + a) b) ||| place lo (field w lo a) = place lo (field w lo (a + b)) := by
  apply BitVec.eq_of_getLsbD_eq
  intro i hi
  change bit (place (lo + a) (field w (lo + a) b) ||| place lo (field w lo a)) i = bit (place lo (field w lo (a + b))) i
  rw [bit_or, bit_place, bit_place, bit_place, getLsbD_field, getLsbD_field, getLsbD_field]
  by_cases h1 : lo + a ≤ i
  · have h2 : lo ≤ i := by omega
    have h3 : ¬ i - lo < a := by omega
    have h4 : lo + a + (i - (lo + a)) = lo + (i - lo) := by omega
    have h5 : (i - (lo + a) < b) = (i - lo < a + b) := by apply propext; omega
    simp [hi, h1, h2, h3, h4, h5]
  · by_cases h2 : lo ≤ i
    · have h3 : i - lo < a := by omega
      have h5 : i - lo < a + b := by omega
      simp [hi, h1, h2, h3, h5]
    · simp [h1, h2]

/-- A word is its own field of all 32 bits. -/
theorem place_field_whole (w : Word) : place 0 (field w 0 32) = w := by
  apply BitVec.eq_of_getLsbD_eq
  intro i hi
  change bit (place 0 (field w 0 32)) i = bit w i
  rw [bit_place_inside _ (Nat.zero_le i) hi, getLsbD_field]
  simp [hi]

/-! ### The class field -/

/-- The class by the four bits of the class field (30_encoding.md R82). -/
theorem classOf_eq (w : Word) :
    classOf w =
      match bit w 28, bit w 27, bit w 26, bit w 25 with
      | true, false, false, _ => some .dpImmediate
      | _, true, false, true => some .dpRegister
      | _, true, _, false => some .loadStore
      | true, false, true, _ => some .branch
      | _, _, _, _ => none := by
  have h3 : ∀ lo, field w lo 3 = BitVec.ofBool (bit w (lo + 2)) ++ BitVec.ofBool (bit w (lo + 1)) ++ BitVec.ofBool (bit w lo) := by
    intro lo
    apply BitVec.eq_of_getLsbD_eq
    intro i hi
    rw [getLsbD_field]
    have : i = 0 ∨ i = 1 ∨ i = 2 := by omega
    rcases this with rfl | rfl | rfl <;> cases bit w (lo + 2) <;> cases bit w (lo + 1) <;> cases hb : bit w lo <;>
      simp_all
  unfold classOf
  rw [h3 26, h3 25]
  cases bit w 28 <;> cases bit w 27 <;> cases bit w 26 <;> cases bit w 25 <;> rfl

end Sys2Proof
end

