-- ==== Sys2Proof/Laws/State.lean ====
section
/-! SUPPORT. One lemma for every field under every named update of the state, and the laws of the register file. -/

namespace Sys2Proof.Machine

@[simp] theorem State.setPc_x (s : State) (t : DWord) : (s.setPc t).x = s.x := rfl
@[simp] theorem State.setPc_pc (s : State) (t : DWord) : (s.setPc t).pc = t := rfl
@[simp] theorem State.setPc_flags (s : State) (t : DWord) : (s.setPc t).flags = s.flags := rfl
@[simp] theorem State.setPc_mem (s : State) (t : DWord) : (s.setPc t).mem = s.mem := rfl
@[simp] theorem State.setPc_halted (s : State) (t : DWord) : (s.setPc t).halted = s.halted := rfl
@[simp] theorem State.setPc_fault (s : State) (t : DWord) : (s.setPc t).fault = s.fault := rfl
@[simp] theorem State.setPc_readReg (s : State) (t : DWord) (r : Reg) : (s.setPc t).readReg r = s.readReg r := by cases r <;> rfl
@[simp] theorem State.setPc_readRegAt (s : State) (t : DWord) (w : Width) (r : Reg) :
    (s.setPc t).readRegAt w r = s.readRegAt w r := by cases r <;> rfl

@[simp] theorem State.advance_x (s : State) : (s.advance).x = s.x := rfl
@[simp] theorem State.advance_pc (s : State) : (s.advance).pc = s.pc + 4#64 := rfl
@[simp] theorem State.advance_flags (s : State) : (s.advance).flags = s.flags := rfl
@[simp] theorem State.advance_mem (s : State) : (s.advance).mem = s.mem := rfl
@[simp] theorem State.advance_halted (s : State) : (s.advance).halted = s.halted := rfl
@[simp] theorem State.advance_fault (s : State) : (s.advance).fault = s.fault := rfl
@[simp] theorem State.advance_readReg (s : State) (r : Reg) : (s.advance).readReg r = s.readReg r := by cases r <;> rfl
@[simp] theorem State.advance_readRegAt (s : State) (w : Width) (r : Reg) :
    (s.advance).readRegAt w r = s.readRegAt w r := by cases r <;> rfl

@[simp] theorem State.setFlags_x (s : State) (f : Flags) : (s.setFlags f).x = s.x := rfl
@[simp] theorem State.setFlags_pc (s : State) (f : Flags) : (s.setFlags f).pc = s.pc := rfl
@[simp] theorem State.setFlags_flags (s : State) (f : Flags) : (s.setFlags f).flags = f := rfl
@[simp] theorem State.setFlags_mem (s : State) (f : Flags) : (s.setFlags f).mem = s.mem := rfl
@[simp] theorem State.setFlags_halted (s : State) (f : Flags) : (s.setFlags f).halted = s.halted := rfl
@[simp] theorem State.setFlags_fault (s : State) (f : Flags) : (s.setFlags f).fault = s.fault := rfl
@[simp] theorem State.setFlags_readReg (s : State) (f : Flags) (r : Reg) : (s.setFlags f).readReg r = s.readReg r := by cases r <;> rfl
@[simp] theorem State.setFlags_readRegAt (s : State) (f : Flags) (w : Width) (r : Reg) :
    (s.setFlags f).readRegAt w r = s.readRegAt w r := by cases r <;> rfl

@[simp] theorem State.setMem_x (s : State) (m : Memory) : (s.setMem m).x = s.x := rfl
@[simp] theorem State.setMem_pc (s : State) (m : Memory) : (s.setMem m).pc = s.pc := rfl
@[simp] theorem State.setMem_flags (s : State) (m : Memory) : (s.setMem m).flags = s.flags := rfl
@[simp] theorem State.setMem_mem (s : State) (m : Memory) : (s.setMem m).mem = m := rfl
@[simp] theorem State.setMem_halted (s : State) (m : Memory) : (s.setMem m).halted = s.halted := rfl
@[simp] theorem State.setMem_fault (s : State) (m : Memory) : (s.setMem m).fault = s.fault := rfl
@[simp] theorem State.setMem_readReg (s : State) (m : Memory) (r : Reg) : (s.setMem m).readReg r = s.readReg r := by cases r <;> rfl
@[simp] theorem State.setMem_readRegAt (s : State) (m : Memory) (w : Width) (r : Reg) :
    (s.setMem m).readRegAt w r = s.readRegAt w r := by cases r <;> rfl

@[simp] theorem State.setHalted_x (s : State) : (s.setHalted).x = s.x := rfl
@[simp] theorem State.setHalted_pc (s : State) : (s.setHalted).pc = s.pc := rfl
@[simp] theorem State.setHalted_flags (s : State) : (s.setHalted).flags = s.flags := rfl
@[simp] theorem State.setHalted_mem (s : State) : (s.setHalted).mem = s.mem := rfl
@[simp] theorem State.setHalted_halted (s : State) : (s.setHalted).halted = true := rfl
@[simp] theorem State.setHalted_fault (s : State) : (s.setHalted).fault = s.fault := rfl
@[simp] theorem State.setHalted_readReg (s : State) (r : Reg) : (s.setHalted).readReg r = s.readReg r := by cases r <;> rfl
@[simp] theorem State.setHalted_readRegAt (s : State) (w : Width) (r : Reg) :
    (s.setHalted).readRegAt w r = s.readRegAt w r := by cases r <;> rfl

@[simp] theorem State.raise_x (s : State) (c : Cause) : (s.raise c).x = s.x := rfl
@[simp] theorem State.raise_pc (s : State) (c : Cause) : (s.raise c).pc = s.pc := rfl
@[simp] theorem State.raise_flags (s : State) (c : Cause) : (s.raise c).flags = s.flags := rfl
@[simp] theorem State.raise_mem (s : State) (c : Cause) : (s.raise c).mem = s.mem := rfl
@[simp] theorem State.raise_halted (s : State) (c : Cause) : (s.raise c).halted = s.halted := rfl
@[simp] theorem State.raise_fault (s : State) (c : Cause) : (s.raise c).fault = some { cause := c, pc := s.pc } := rfl
@[simp] theorem State.raise_readReg (s : State) (c : Cause) (r : Reg) : (s.raise c).readReg r = s.readReg r := by cases r <;> rfl
@[simp] theorem State.raise_readRegAt (s : State) (c : Cause) (w : Width) (r : Reg) :
    (s.raise c).readRegAt w r = s.readRegAt w r := by cases r <;> rfl

@[simp] theorem State.writeReg_pc (s : State) (r : Reg) (v : DWord) : (s.writeReg r v).pc = s.pc := by cases r <;> rfl
@[simp] theorem State.writeReg_flags (s : State) (r : Reg) (v : DWord) : (s.writeReg r v).flags = s.flags := by cases r <;> rfl
@[simp] theorem State.writeReg_mem (s : State) (r : Reg) (v : DWord) : (s.writeReg r v).mem = s.mem := by cases r <;> rfl
@[simp] theorem State.writeReg_halted (s : State) (r : Reg) (v : DWord) : (s.writeReg r v).halted = s.halted := by cases r <;> rfl
@[simp] theorem State.writeReg_fault (s : State) (r : Reg) (v : DWord) : (s.writeReg r v).fault = s.fault := by cases r <;> rfl

@[simp] theorem State.writeRegAt_pc (s : State) (w : Width) (r : Reg) (v : BitVec w.bits) : (s.writeRegAt w r v).pc = s.pc := by cases r <;> rfl
@[simp] theorem State.writeRegAt_flags (s : State) (w : Width) (r : Reg) (v : BitVec w.bits) : (s.writeRegAt w r v).flags = s.flags := by cases r <;> rfl
@[simp] theorem State.writeRegAt_mem (s : State) (w : Width) (r : Reg) (v : BitVec w.bits) : (s.writeRegAt w r v).mem = s.mem := by cases r <;> rfl
@[simp] theorem State.writeRegAt_halted (s : State) (w : Width) (r : Reg) (v : BitVec w.bits) : (s.writeRegAt w r v).halted = s.halted := by cases r <;> rfl
@[simp] theorem State.writeRegAt_fault (s : State) (w : Width) (r : Reg) (v : BitVec w.bits) : (s.writeRegAt w r v).fault = s.fault := by cases r <;> rfl

/-! ### The register file -/

@[simp] theorem State.readReg_zr (s : State) : s.readReg .zr = 0#64 := rfl

@[simp] theorem State.readRegAt_zr (s : State) (w : Width) : s.readRegAt w .zr = 0#w.bits := by
  cases w <;> rfl

/-- A register reads as it was last written; the zero register reads as 0 whatever is written. -/
theorem State.readReg_writeReg (s : State) (r q : Reg) (v : DWord) :
    (s.writeReg r v).readReg q = if q = .zr then 0#64 else if q = r then v else s.readReg q := by
  cases q with
  | zr => rfl
  | x j =>
    cases r with
    | zr => simp [State.writeReg, State.readReg]
    | x i =>
      by_cases h : j = i
      · subst h; simp [State.writeReg, State.readReg]
      · have hv : i.val ≠ j.val := fun e => h (Fin.ext e.symm)
        simp [State.writeReg, State.readReg, h, Vector.getElem_set_ne, hv]

@[simp] theorem State.writeReg_zr (s : State) (v : DWord) : s.writeReg .zr v = s := rfl

/-- The read after a write at a width: the value zero-extended. -/
theorem State.readReg_writeRegAt (s : State) (w : Width) (r q : Reg) (v : BitVec w.bits) :
    (s.writeRegAt w r v).readReg q = if q = .zr then 0#64 else if q = r then v.setWidth 64 else s.readReg q :=
  s.readReg_writeReg r q _

/-- A register other than the written one reads as before. -/
theorem State.readReg_writeReg_ne (s : State) {r q : Reg} (v : DWord) (h : q ≠ r) :
    (s.writeReg r v).readReg q = s.readReg q := by
  rw [State.readReg_writeReg]
  cases q <;> simp [h]

theorem width_bits_le (w : Width) : w.bits ≤ 64 := by cases w <;> decide

theorem width_bits_eq (w : Width) : w.bits = 8 * w.bytes := by cases w <;> rfl

/-- `reg(i, W)` as a number: the register's value modulo 2^W. -/
theorem State.toNat_readRegAt (s : State) (w : Width) (r : Reg) :
    (s.readRegAt w r).toNat = (s.readReg r).toNat % 2 ^ w.bits := by
  simp [State.readRegAt, BitVec.toNat_setWidth]

/-- Two states are equal when all their registers and other fields are. -/
theorem State.ext_readReg {s t : State} (hx : ∀ r, s.readReg r = t.readReg r) (hpc : s.pc = t.pc)
    (hf : s.flags = t.flags) (hm : s.mem = t.mem) (hh : s.halted = t.halted) (hr : s.fault = t.fault) : s = t := by
  have hv : s.x = t.x := by
    apply Vector.ext
    intro i hi
    exact hx (.x ⟨i, hi⟩)
  cases s; cases t; simp_all

end Sys2Proof.Machine
end

