-- ==== Sys2Proof/Laws/Memory.lean ====
section
/-! SUPPORT. The laws of memory: reading after writing, the canonical form, and what the two accesses can do. -/

namespace Sys2Proof.Machine

/-! ### One byte -/

@[simp] theorem Memory.byte_nil (a : Nat) : Memory.byte [] a = unlistedByte := rfl

/-- Below the first address of a canonical memory nothing is listed. -/
theorem Memory.byte_of_lt {m : Memory} {lo a : Nat} (h : Memory.wfFrom lo m = true) (ha : a < lo) :
    m.byte a = unlistedByte := by
  induction m generalizing lo with
  | nil => rfl
  | cons c m ih =>
    obtain ⟨b, u⟩ := c
    simp only [Memory.wfFrom, Bool.and_eq_true, decide_eq_true_eq] at h
    have hb : a ≠ b := by omega
    simp only [Memory.byte, hb, if_false]
    exact ih h.2 (by omega)

/-- A canonical memory from `lo` on is canonical from any lower address on. -/
theorem Memory.wfFrom_mono {m : Memory} {lo lo' : Nat} (h : Memory.wfFrom lo m = true) (hl : lo' ≤ lo) :
    Memory.wfFrom lo' m = true := by
  cases m with
  | nil => rfl
  | cons c m =>
    obtain ⟨b, u⟩ := c
    simp only [Memory.wfFrom, Bool.and_eq_true, decide_eq_true_eq] at h ⊢
    exact ⟨⟨by omega, h.1.2⟩, h.2⟩

/-- The byte read after a byte is written, in a canonical memory. -/
theorem Memory.byte_setByte {m : Memory} {lo : Nat} (h : Memory.wfFrom lo m = true) (a b : Nat) (v : Byte) :
    (m.setByte a v).byte b = if b = a then v else m.byte b := by
  induction m generalizing lo with
  | nil =>
    by_cases hv : v = unlistedByte <;> by_cases hb : b = a <;> simp [Memory.setByte, Memory.byte, hv, hb]
  | cons c m ih =>
    obtain ⟨d, u⟩ := c
    have hw := h
    simp only [Memory.wfFrom, Bool.and_eq_true, decide_eq_true_eq] at hw
    by_cases h1 : a < d
    · have hget : Memory.byte ((d, u) :: m) a = unlistedByte :=
        Memory.byte_of_lt (lo := d)
          (by simp only [Memory.wfFrom, Bool.and_eq_true, decide_eq_true_eq]; exact ⟨⟨le_refl d, hw.1.2⟩, hw.2⟩) h1
      by_cases hv : v = unlistedByte
      · simp only [Memory.setByte, h1, hv, if_true]
        split
        · rename_i hb; rw [hb, hget]
        · rfl
      · simp only [Memory.setByte, h1, hv, if_true, if_false]
        rw [Memory.byte]
    · by_cases h2 : a = d
      · subst h2
        have htail : Memory.byte m a = unlistedByte := Memory.byte_of_lt hw.2 (by omega)
        by_cases hv : v = unlistedByte
        · simp only [Memory.setByte, lt_irrefl, if_false, if_true, hv]
          by_cases hb : b = a
          · simp [hb, htail]
          · simp [Memory.byte, hb]
        · simp only [Memory.setByte, lt_irrefl, if_false, if_true, hv]
          by_cases hb : b = a <;> simp [Memory.byte, hb]
      · simp only [Memory.setByte, h1, h2, if_false, Memory.byte, ih hw.2]
        by_cases hb : b = d
        · have : b ≠ a := by omega
          simp [hb]; intro e; omega
        · simp [hb]

/-- Writing a byte that exists keeps the canonical form. -/
theorem Memory.wfFrom_setByte {m : Memory} {lo : Nat} (h : Memory.wfFrom lo m = true) {a : Nat} (hl : lo ≤ a)
    (ha : a < Config.memSize) (v : Byte) : Memory.wfFrom lo (m.setByte a v) = true := by
  induction m generalizing lo with
  | nil =>
    by_cases hv : v = unlistedByte <;> simp [Memory.setByte, Memory.wfFrom, hv, hl, ha]
  | cons c m ih =>
    obtain ⟨d, u⟩ := c
    have hw := h
    simp only [Memory.wfFrom, Bool.and_eq_true, decide_eq_true_eq] at hw
    by_cases h1 : a < d
    · by_cases hv : v = unlistedByte
      · simpa only [Memory.setByte, h1, hv, if_true] using h
      · simp only [Memory.setByte, h1, hv, if_true, if_false, Memory.wfFrom, Bool.and_eq_true, decide_eq_true_eq]
        exact ⟨⟨hl, ha, by simpa using hv⟩, ⟨by omega, hw.1.2⟩, hw.2⟩
    · by_cases h2 : a = d
      · subst h2
        by_cases hv : v = unlistedByte
        · simp only [Memory.setByte, lt_irrefl, if_false, if_true, hv]
          exact Memory.wfFrom_mono hw.2 (by omega)
        · simp only [Memory.setByte, lt_irrefl, if_false, if_true, hv, Memory.wfFrom, Bool.and_eq_true, decide_eq_true_eq]
          exact ⟨⟨hl, ha, by simpa using hv⟩, hw.2⟩
      · simp only [Memory.setByte, h1, h2, if_false, Memory.wfFrom, Bool.and_eq_true, decide_eq_true_eq]
        exact ⟨⟨hw.1.1, hw.1.2⟩, ih hw.2 (by omega)⟩

/-- Writing a byte that exists keeps the canonical form. -/
theorem Memory.wf_setByte {m : Memory} (h : m.wf = true) {a : Nat} (ha : a < Config.memSize) (v : Byte) :
    (m.setByte a v).wf = true :=
  Memory.wfFrom_setByte h (Nat.zero_le a) ha v

/-- No byte is listed outside memory. -/
theorem Memory.byte_of_memSize_le {m : Memory} {lo : Nat} (h : Memory.wfFrom lo m = true) {a : Nat}
    (ha : Config.memSize ≤ a) : m.byte a = unlistedByte := by
  induction m generalizing lo with
  | nil => rfl
  | cons c m ih =>
    obtain ⟨b, u⟩ := c
    simp only [Memory.wfFrom, Bool.and_eq_true, decide_eq_true_eq] at h
    have hb : a ≠ b := by omega
    simp only [Memory.byte, hb, if_false]
    exact ih h.2

/-! ### Runs of bytes -/

/-- Writing bytes that exist keeps the canonical form. -/
theorem Memory.wf_writeBytes {m : Memory} (h : m.wf = true) (a : Nat) {k : Nat} (v : BitVec k) (n : Nat)
    (hb : a + n ≤ Config.memSize) : (m.writeBytes a v n).wf = true := by
  induction n with
  | zero => exact h
  | succ n ih => exact Memory.wf_setByte (ih (by omega)) (by omega) _

/-- The byte read after `n` bytes are written: byte `b - a` of the value inside, the old byte outside. -/
theorem Memory.byte_writeBytes {m : Memory} (h : m.wf = true) (a : Nat) {k : Nat} (v : BitVec k) (n : Nat)
    (hb : a + n ≤ Config.memSize) (b : Nat) :
    (m.writeBytes a v n).byte b = if a ≤ b ∧ b < a + n then v.extractLsb' (8 * (b - a)) 8 else m.byte b := by
  induction n with
  | zero =>
    have : ¬(a ≤ b ∧ b < a + 0) := by omega
    simp only [this, if_false, Memory.writeBytes]
  | succ n ih =>
    rw [Memory.writeBytes, Memory.byte_setByte (Memory.wf_writeBytes h a v n (by omega)), ih (by omega)]
    by_cases h1 : b = a + n
    · have h2 : a ≤ b ∧ b < a + (n + 1) := by omega
      simp only [h1, if_true]
      rw [if_pos (by omega), show a + n - a = n by omega]
    · by_cases h2 : a ≤ b ∧ b < a + n
      · rw [if_neg h1, if_pos h2, if_pos (by omega)]
      · rw [if_neg h1, if_neg h2, if_neg (by omega)]

/-- Bit `i` of the value of `n` bytes is bit `i % 8` of byte `i / 8`. -/
theorem Memory.getLsbD_readBytes (m : Memory) (a k n i : Nat) :
    (m.readBytes a k n).getLsbD i = (decide (i < k) && decide (i < 8 * n) && (m.byte (a + i / 8)).getLsbD (i % 8)) := by
  induction n with
  | zero => simp [Memory.readBytes]
  | succ n ih =>
    rw [Memory.readBytes, BitVec.getLsbD_or, ih]
    simp only [BitVec.getLsbD_shiftLeft, BitVec.getLsbD_setWidth]
    by_cases hk : i < k
    · by_cases h1 : i < 8 * n
      · have h2 : i < 8 * (n + 1) := by omega
        simp [hk, h1, h2]
      · by_cases h2 : i < 8 * (n + 1)
        · have hd : i / 8 = n := by omega
          have hm : i - 8 * n = i % 8 := by omega
          have h3 : i % 8 < k := by omega
          simp [hk, h1, h2, hd, hm, h3]
        · have h3 : (m.byte (a + n)).getLsbD (i - 8 * n) = false := BitVec.getLsbD_of_ge _ _ (by omega)
          simp [hk, h1, h2, h3]
    · simp [hk]

/-- Byte `j` of the value of `n` bytes is byte `a + j` of memory. -/
theorem Memory.extractLsb'_readBytes (m : Memory) (a k n j : Nat) (hj : j < n) (hk : 8 * n ≤ k) :
    (m.readBytes a k n).extractLsb' (8 * j) 8 = m.byte (a + j) := by
  apply BitVec.eq_of_getLsbD_eq
  intro i hi
  have h1 : (8 * j + i) / 8 = j := by omega
  have h2 : (8 * j + i) % 8 = i := by omega
  have h3 : 8 * j + i < k := by omega
  have h4 : 8 * j + i < 8 * n := by omega
  rw [BitVec.getLsbD_extractLsb', Memory.getLsbD_readBytes, h1, h2]
  simp [h3, h4, hi]

/-- Two memories that agree on the bytes read give the same value. -/
theorem Memory.readBytes_congr {m m' : Memory} {a a' n : Nat} (k : Nat)
    (h : ∀ j, j < n → m.byte (a + j) = m'.byte (a' + j)) : m.readBytes a k n = m'.readBytes a' k n := by
  apply BitVec.eq_of_getLsbD_eq
  intro i hi
  rw [Memory.getLsbD_readBytes, Memory.getLsbD_readBytes]
  by_cases h1 : i < 8 * n
  · rw [h (i / 8) (by omega)]
  · simp [h1]

/-- What was written at a place reads back there. -/
theorem Memory.readBytes_writeBytes {m : Memory} (h : m.wf = true) (a n : Nat) (v : BitVec (8 * n))
    (hb : a + n ≤ Config.memSize) : (m.writeBytes a v n).readBytes a (8 * n) n = v := by
  apply BitVec.eq_of_getLsbD_eq
  intro i hi
  rw [Memory.getLsbD_readBytes, Memory.byte_writeBytes h a v n hb]
  have h1 : a ≤ a + i / 8 ∧ a + i / 8 < a + n := by omega
  have h2 : a + i / 8 - a = i / 8 := by omega
  have h3 : 8 * (i / 8) + i % 8 = i := by omega
  rw [if_pos h1, h2, BitVec.getLsbD_extractLsb', h3]
  simp [hi, Nat.mod_lt]

/-! ### The two accesses -/

/-- All that `MemRead` can do. -/
theorem State.memRead_eq (s : State) (addr : DWord) (w : Width) (kind : AccessKind) :
    (inBounds addr w.bytes = true ∧ s.memRead addr w kind = .ok (s.mem.readBytes addr.toNat w.bits w.bytes)) ∨
    (inBounds addr w.bytes = false ∧
      s.memRead addr w kind = .error (.memoryBoundViolation addr w.bytes kind)) := by
  unfold State.memRead
  cases h : inBounds addr w.bytes <;> simp

/-- All that `MemWrite` can do. -/
theorem State.memWrite_eq (s : State) (addr : DWord) (w : Width) (v : BitVec w.bits) :
    (inBounds addr w.bytes = true ∧
      s.memWrite addr w v = .ok (s.setMem (s.mem.writeBytes addr.toNat v w.bytes))) ∨
    (inBounds addr w.bytes = false ∧
      s.memWrite addr w v = .error (.memoryBoundViolation addr w.bytes .store)) := by
  unfold State.memWrite
  cases h : inBounds addr w.bytes <;> simp

theorem inBounds_iff (addr : DWord) (n : Nat) : inBounds addr n = true ↔ addr.toNat + n ≤ Config.memSize := by
  simp [inBounds]

/-- A write that succeeds keeps the canonical form. -/
theorem State.memWrite_wf {s t : State} {addr : DWord} {w : Width} {v : BitVec w.bits} (h : s.mem.wf = true)
    (ht : s.memWrite addr w v = .ok t) : t.mem.wf = true := by
  rcases s.memWrite_eq addr w v with ⟨hb, he⟩ | ⟨_, he⟩
  · rw [he] at ht
    cases ht
    exact Memory.wf_writeBytes h _ _ _ ((inBounds_iff _ _).1 hb)
  · rw [he] at ht; cases ht

end Sys2Proof.Machine
end

