-- ==== Sys2Proof/Laws/Ops.lean ====
section
/-! SUPPORT. For each shared operation of the meanings and of the sequencer, one lemma that says all it can do. -/

namespace Sys2Proof.Machine

/-! ### Shared ends of the meanings -/

/-- All that `ifLegal` can do. -/
theorem ifLegal_cases (i : Instr) (s : State) (m : Host.Outcome State Fault Refusal) :
    (i.wellFormed = true ∧ ifLegal i s m = m) ∨
    (i.wellFormed = false ∧ ifLegal i s m = .next (s.raise (.undefinedInstruction (encode i)))) := by
  unfold ifLegal
  cases i.wellFormed <;> simp

/-- One register written at a width, `pc + 4`. -/
theorem Effect.write (s : State) (w : Width) (rd : Reg) (v : BitVec w.bits) :
    Effect s (s.writeRegAt w rd v).advance [(rd, v.setWidth 64)] (s.pc + 4#64) s.flags where
  written := by simp +contextual [State.readReg_writeRegAt]
  others := by
    intro r hr
    have : r ≠ rd := hr _ (List.mem_singleton.2 rfl)
    cases r <;> simp_all [State.readReg_writeRegAt]
  zero := rfl
  pc := by simp
  flags := by simp
  halted := by simp
  fault := by simp

/-- One register written at a width, the flags, `pc + 4`. -/
theorem Effect.writeFlags (s : State) (f : Flags) (w : Width) (rd : Reg) (v : BitVec w.bits) :
    Effect s ((s.setFlags f).writeRegAt w rd v).advance [(rd, v.setWidth 64)] (s.pc + 4#64) f where
  written := by simp +contextual [State.readReg_writeRegAt]
  others := by
    intro r hr
    have : r ≠ rd := hr _ (List.mem_singleton.2 rfl)
    cases r <;> simp_all [State.readReg_writeRegAt]
  zero := rfl
  pc := by simp
  flags := by simp
  halted := by simp
  fault := by simp

/-- Only `pc`. -/
theorem Effect.jump (s : State) (t : DWord) : Effect s (s.setPc t) [] t s.flags where
  written := by simp
  others := by simp
  zero := rfl
  pc := rfl
  flags := rfl
  halted := rfl
  fault := rfl

/-- A value loaded at a width and zero-extended is the little-endian value of its bytes. -/
theorem loadedValue_readBytes (s : State) (addr : Nat) (w : Width) :
    LoadedValue s addr w.bytes ((s.mem.readBytes addr w.bits w.bytes).setWidth 64) := by
  intro i hi
  rw [BitVec.getLsbD_setWidth, Memory.getLsbD_readBytes, width_bits_eq]
  by_cases h : i < 8 * w.bytes <;> simp [h, hi]

/-- All that a load can do. -/
theorem loadThen_cases (w : Width) (addr : DWord) (rt : Reg) (back : State → State) (s : State) :
    (inBounds addr w.bytes = true ∧
      loadThen w addr rt back s =
        .next ((back s).writeRegAt w rt (s.mem.readBytes addr.toNat w.bits w.bytes)).advance) ∨
    (inBounds addr w.bytes = false ∧
      loadThen w addr rt back s = .next (s.raise (.memoryBoundViolation addr w.bytes .load))) := by
  unfold loadThen
  rcases s.memRead_eq addr w .load with ⟨hb, he⟩ | ⟨hb, he⟩ <;> simp [hb, he]

/-- All that a store can do. -/
theorem storeThen_cases (w : Width) (addr : DWord) (rt : Reg) (back : State → State) (s : State) :
    (inBounds addr w.bytes = true ∧
      storeThen w addr rt back s =
        .next (back (s.setMem (s.mem.writeBytes addr.toNat (s.readRegAt w rt) w.bytes))).advance) ∨
    (inBounds addr w.bytes = false ∧
      storeThen w addr rt back s = .next (s.raise (.memoryBoundViolation addr w.bytes .store))) := by
  unfold storeThen
  rcases s.memWrite_eq addr w (s.readRegAt w rt) with ⟨hb, he⟩ | ⟨hb, he⟩ <;> simp [hb, he]

/-- The bytes a store leaves in a canonical memory. -/
theorem memoryStored_writeBytes {s t : State} (h : s.mem.wf = true) {addr : Nat} {w : Width} {rt : Reg}
    (hb : addr + w.bytes ≤ Config.memSize) (ht : t.mem = s.mem.writeBytes addr (s.readRegAt w rt) w.bytes) :
    MemoryStored s t addr w.bytes (s.readReg rt) := by
  intro a
  rw [ht, Memory.byte_writeBytes h _ _ _ hb]
  by_cases ha : addr ≤ a ∧ a < addr + w.bytes
  · rw [if_pos ha, if_pos ha]
    apply BitVec.eq_of_getLsbD_eq
    intro i hi
    have hw : 8 * (a - addr) + i < w.bits := by rw [width_bits_eq]; omega
    rw [BitVec.getLsbD_extractLsb', BitVec.getLsbD_extractLsb', State.readRegAt, BitVec.getLsbD_setWidth]
    simp [hw]
  · rw [if_neg ha, if_neg ha]

/-- A store leaves every byte outside those it stores to. -/
theorem byte_storeThen {w : Width} {addr : DWord} {rt : Reg} {back : State → State} {s t : State}
    (hb : ∀ u, (back u).mem = u.mem) (hwf : s.mem.wf = true) (h : storeThen w addr rt back s = .next t) {a : Nat}
    (ha : a < addr.toNat ∨ addr.toNat + w.bytes ≤ a) : t.mem.byte a = s.mem.byte a := by
  rcases storeThen_cases w addr rt back s with ⟨hi, he⟩ | ⟨_, he⟩ <;> rw [he] at h <;> cases h
  · rw [memoryStored_writeBytes (rt := rt) hwf (by simpa [inBounds] using hi) (by simp [hb]) a, if_neg (by omega)]
  · rfl

/-! ### The sequencer -/

/-- All that `Fetch` can do. -/
theorem fetch_cases (s : State) :
    (inBounds s.pc 4 = true ∧ s.fetch = .ok (s.mem.readBytes s.pc.toNat 32 4)) ∨
    (inBounds s.pc 4 = false ∧ s.fetch = .error (.memoryBoundViolation s.pc 4 .fetch)) :=
  s.memRead_eq s.pc .w32 .fetch

/-- The word fetched is the four bytes at `pc`, least significant first. -/
theorem fetch_eq_wordOfBytes {s : State} (h : s.pc.toNat + 4 ≤ Config.memSize) :
    s.fetch = .ok (wordOfBytes (s.mem.byte s.pc.toNat) (s.mem.byte (s.pc.toNat + 1)) (s.mem.byte (s.pc.toNat + 2))
      (s.mem.byte (s.pc.toNat + 3))) := by
  rcases fetch_cases s with ⟨_, he⟩ | ⟨hb, _⟩
  · rw [he]
    congr 1
    apply BitVec.eq_of_getLsbD_eq
    intro j hj
    rw [Memory.getLsbD_readBytes]
    simp only [wordOfBytes, BitVec.getLsbD_append]
    by_cases h1 : j < 8
    · simp [h1, hj, show j / 8 = 0 by omega, show j % 8 = j by omega]
    · by_cases h2 : j - 8 < 8
      · simp [h1, h2, hj, show j / 8 = 1 by omega, show j % 8 = j - 8 by omega]
      · by_cases h3 : j - 8 - 8 < 8
        · simp [h1, h2, h3, hj, show j / 8 = 2 by omega, show j % 8 = j - 8 - 8 by omega]
        · simp [h1, h2, h3, hj, show j / 8 = 3 by omega, show j % 8 = j - 8 - 8 - 8 by omega]
  · simp [inBounds] at hb; omega

/-- Taking the record of an exception away gives the state it was raised in (60_exceptions.md R273). -/
theorem State.raise_cleared {s : State} (h : s.fault = none) (c : Cause) : { s.raise c with fault := none } = s := by
  cases s
  cases h
  rfl

/-- All that the decoder's answer can lead to. -/
theorem execWord_cases (halt w : Word) (s : State) :
    (∃ i, decodeWith halt w = .ok i ∧ execWord halt w s = exec i s) ∨
    (∃ r, decodeWith halt w = .error r ∧ execWord halt w s = .next (s.raise (rejectCause w r))) := by
  unfold execWord
  cases decodeWith halt w <;> simp

/-- All that a cycle can do. -/
theorem cycle_cases (halt : Word) (s : State) :
    (∃ w, s.fetch = .ok w ∧ cycle halt s = execWord halt w s) ∨
    (inBounds s.pc 4 = false ∧ cycle halt s = .next (s.raise (.memoryBoundViolation s.pc 4 .fetch))) := by
  unfold cycle
  rcases fetch_cases s with ⟨hb, he⟩ | ⟨hb, he⟩ <;> simp [hb, he]

/-- All that a step can do. -/
theorem stepWith_cases (halt : Word) (s : State) :
    (∃ r, s.fault = some r ∧ stepWith halt s = .fault (.faulted r)) ∨
    (s.fault = none ∧ s.halted = true ∧ stepWith halt s = .fault .halted) ∨
    (s.Running ∧ stepWith halt s = cycle halt s) := by
  unfold stepWith State.Running
  cases s.fault <;> cases s.halted <;> simp

/-! ### The image -/

/-- Byte `a` of the memory that an image placed at `base` gives. -/
theorem byte_imageMemory (base : Nat) (image : List Byte) (a : Nat) :
    (imageMemory base image).byte a = if base ≤ a then image.getD (a - base) unlistedByte else unlistedByte := by
  induction image generalizing base with
  | nil => simp [imageMemory]
  | cons v vs ih =>
    have hs : base ≤ a → a ≠ base → (v :: vs).getD (a - base) unlistedByte = vs.getD (a - (base + 1)) unlistedByte := by
      intro h1 h2
      obtain ⟨k, hk⟩ : ∃ k, a - base = k + 1 := ⟨a - base - 1, by omega⟩
      rw [hk, show a - (base + 1) = k by omega]; rfl
    by_cases h1 : a = base
    · subst h1
      by_cases hv : v = unlistedByte <;> simp [imageMemory, Memory.byte, hv, ih]
    · by_cases h2 : base ≤ a
      · have h3 : base + 1 ≤ a := by omega
        rw [if_pos h2, hs h2 h1]
        by_cases hv : v = unlistedByte <;> simp [imageMemory, Memory.byte, hv, ih, h1, h3]
      · have h3 : ¬ base + 1 ≤ a := by omega
        by_cases hv : v = unlistedByte <;> simp [imageMemory, Memory.byte, hv, ih, h1, h2, h3]

/-- The memory of an image that fits is canonical. -/
theorem wfFrom_imageMemory (base : Nat) (image : List Byte) (h : base + image.length ≤ Config.memSize) :
    Memory.wfFrom base (imageMemory base image) = true := by
  induction image generalizing base with
  | nil => rfl
  | cons v vs ih =>
    rw [List.length_cons] at h
    have h1 := ih (base + 1) (by omega)
    by_cases hv : v = unlistedByte
    · simpa only [imageMemory, hv, if_true] using Memory.wfFrom_mono h1 (Nat.le_succ base)
    · simp only [imageMemory, hv, if_false, Memory.wfFrom, Bool.and_eq_true, decide_eq_true_eq]
      exact ⟨⟨le_refl base, by omega, by simpa using hv⟩, h1⟩

end Sys2Proof.Machine
end

