-- ==== Sys2Proof/Laws/Exec.lean ====
section
/-! SUPPORT. All that an instruction can do, in one lemma over all constructors: HALT halts; any other instruction is
undefined, leaves the memory bound, or completes within its frame. -/

namespace Sys2Proof.Machine

/-- What a completed instruction other than HALT does at most (10_state.md R25, R30; 40_step_and_halt.md R142). -/
structure Completed (i : Instr) (s t : State) : Prop where
  halted : t.halted = s.halted
  fault : t.fault = s.fault
  flags : setsFlags i = false → t.flags = s.flags
  pc : setsPc i = false → t.pc = s.pc + 4#64
  regs : ∀ r, r ∉ writtenRegs i → t.readReg r = s.readReg r
  mem : writesMemory i = false → t.mem = s.mem
  wf : s.mem.wf = true → t.mem.wf = true

theorem readReg_writeRegAt_ne (s : State) (w : Width) {r q : Reg} (v : BitVec w.bits) (h : q ≠ r) :
    (s.writeRegAt w r v).readReg q = s.readReg q := s.readReg_writeReg_ne _ h

/-- All that an instruction other than HALT can do. -/
inductive ExecCases (i : Instr) (s : State) (m : Host.Outcome State Fault Refusal) : Prop where
  | undefined (hw : i.wellFormed = false) (he : m = .next (s.raise (.undefinedInstruction (encode i))))
  | bound (addr : DWord) (w : Width) (kind : AccessKind) (hk : kind ≠ .fetch) (hb : inBounds addr w.bytes = false)
      (he : m = .next (s.raise (.memoryBoundViolation addr w.bytes kind)))
  | done (t : State) (he : m = .next t) (hc : Completed i s t)

theorem ExecCases.legal {i : Instr} {s : State} {m} (h : ExecCases i s m) : ExecCases i s (ifLegal i s m) := by
  rcases ifLegal_cases i s m with ⟨_, he⟩ | ⟨hw, he⟩ <;> rw [he]
  · exact h
  · exact .undefined hw rfl

theorem ExecCases.write {i : Instr} {s : State} {w : Width} {rd : Reg} {v : BitVec w.bits} (h : writtenRegs i = [rd]) :
    ExecCases i s (.next (s.writeRegAt w rd v).advance) :=
  .done _ rfl ⟨by simp, by simp, by simp, by simp, by
    intro r hr; rw [h, List.mem_singleton] at hr; simpa using readReg_writeRegAt_ne s w v hr, by simp, by simp⟩

theorem ExecCases.writeFlags {i : Instr} {s : State} {f : Flags} {w : Width} {rd : Reg} {v : BitVec w.bits}
    (h : writtenRegs i = [rd]) (hf : setsFlags i = true) :
    ExecCases i s (.next ((s.setFlags f).writeRegAt w rd v).advance) :=
  .done _ rfl ⟨by simp, by simp, by simp [hf], by simp, by
    intro r hr; rw [h, List.mem_singleton] at hr; simpa using readReg_writeRegAt_ne (s.setFlags f) w v hr, by simp, by simp⟩

theorem ExecCases.load {i : Instr} {s : State} {w : Width} {addr : DWord} {rt : Reg} (h : writtenRegs i = [rt]) :
    ExecCases i s (loadThen w addr rt id s) := by
  rcases loadThen_cases w addr rt id s with ⟨_, he⟩ | ⟨hb, he⟩ <;> rw [he]
  · exact .write h
  · exact .bound addr w .load (by decide) hb rfl

theorem ExecCases.loadBack {i : Instr} {s : State} {w : Width} {addr b : DWord} {xn rt : Reg} (h : writtenRegs i = [xn, rt]) :
    ExecCases i s (loadThen w addr rt (fun t => t.writeReg xn b) s) := by
  rcases loadThen_cases w addr rt (fun t => t.writeReg xn b) s with ⟨_, he⟩ | ⟨hb, he⟩ <;> rw [he]
  · exact .done _ rfl ⟨by simp, by simp, by simp, by simp, by
      intro r hr
      rw [h] at hr
      simp only [List.mem_cons, List.not_mem_nil, or_false, not_or] at hr
      simpa [readReg_writeRegAt_ne _ w _ hr.2] using s.readReg_writeReg_ne b hr.1, by simp, by simp⟩
  · exact .bound addr w .load (by decide) hb rfl

theorem ExecCases.store {i : Instr} {s : State} {w : Width} {addr : DWord} {rt : Reg} (hm : writesMemory i = true) :
    ExecCases i s (storeThen w addr rt id s) := by
  rcases storeThen_cases w addr rt id s with ⟨hb, he⟩ | ⟨hb, he⟩ <;> rw [he]
  · exact .done _ rfl ⟨by simp, by simp, by simp, by simp, by simp, by simp [hm], fun hw => by
      simpa using Memory.wf_writeBytes hw _ _ _ ((inBounds_iff _ _).1 hb)⟩
  · exact .bound addr w .store (by decide) hb rfl

theorem ExecCases.storeBack {i : Instr} {s : State} {w : Width} {addr b : DWord} {xn rt : Reg} (h : writtenRegs i = [xn])
    (hm : writesMemory i = true) : ExecCases i s (storeThen w addr rt (fun t => t.writeReg xn b) s) := by
  rcases storeThen_cases w addr rt (fun t => t.writeReg xn b) s with ⟨hb, he⟩ | ⟨hb, he⟩ <;> rw [he]
  · exact .done _ rfl ⟨by simp, by simp, by simp, by simp, by
      intro r hr
      rw [h, List.mem_singleton] at hr
      simpa using (s.setMem _).readReg_writeReg_ne b hr, by simp [hm], fun hw => by
      simpa using Memory.wf_writeBytes hw _ _ _ ((inBounds_iff _ _).1 hb)⟩
  · exact .bound addr w .store (by decide) hb rfl

theorem ExecCases.jump {i : Instr} {s : State} {t : DWord} (h : setsPc i = true) : ExecCases i s (.next (s.setPc t)) :=
  .done _ rfl ⟨by simp, by simp, by simp, by simp [h], by simp, by simp, by simp⟩

/-- All that `exec` can do. -/
theorem exec_cases (i : Instr) (s : State) :
    (i = .halt ∧ exec i s = .next s.setHalted) ∨ (i ≠ .halt ∧ ExecCases i s (exec i s)) := by
  cases i with
  | halt => exact .inl ⟨rfl, rfl⟩
  | addImm | subImm => exact .inr ⟨by simp, .write rfl⟩
  | addsImm | subsImm => exact .inr ⟨by simp, .writeFlags rfl rfl⟩
  | movn | movz | movk | addReg | subReg | and | bic | orr | orn | eor | eon => exact .inr ⟨by simp, .legal (.write rfl)⟩
  | addsReg | subsReg | ands | bics => exact .inr ⟨by simp, .legal (.writeFlags rfl rfl)⟩
  | madd | msub => exact .inr ⟨by simp, .write rfl⟩
  | b | br => exact .inr ⟨by simp, .jump rfl⟩
  | bCond simm19 cond =>
    refine .inr ⟨by simp, ?_⟩
    simp only [exec, execBCond]
    split
    · exact .jump rfl
    · exact .jump rfl
  | strUnsigned | strRegister => exact .inr ⟨by simp, .store rfl⟩
  | ldrUnsigned | ldrRegister | ldrLiteral => exact .inr ⟨by simp, .load rfl⟩
  | strPost | strPre => exact .inr ⟨by simp, .legal (.storeBack rfl rfl)⟩
  | ldrPost | ldrPre => exact .inr ⟨by simp, .legal (.loadBack rfl)⟩
end Sys2Proof.Machine
end

