-- ==== Sys2Proof/Laws/PerInstr.lean ====
section
/-! SUPPORT. What is said of every instruction, one lemma for each constructor: its word holds the fields that its row of
spec/opcode_table.json lists, fixed fields and operands (30_encoding.md R87 to R103, R120). -/

namespace Sys2Proof.Laws

/-- The number of a register's field. -/
@[simp] theorem toNat_reg_toField (r : Reg) : r.toField.toNat = Machine.regNumber r := by
  cases r with
  | zr => rfl
  | x i => simp [Reg.toField, Machine.regNumber]; omega

@[simp] theorem toNat_width_toField (w : Width) : w.toField.toNat = Machine.sfBit w := by cases w <;> rfl

@[simp] theorem toNat_shift_toField (t : ShiftType) : t.toField.toNat = Machine.shiftCode t := by cases t <;> rfl

@[simp] theorem toNat_cond_toField (c : Cond) : c.toField.toNat = Machine.condCode c := by cases c <;> rfl

@[simp] theorem toNat_ofBool_toNat (b : Bool) : (BitVec.ofBool b).toNat = b.toNat := by cases b <;> rfl

/-- A word holds the listed fields: (highest bit, lowest bit, value). -/
def Holds (w : Word) (fs : List (Nat × Nat × Nat)) : Prop :=
  ∀ f ∈ fs, w.toNat / 2 ^ f.2.1 % 2 ^ (f.1 - f.2.1 + 1) = f.2.2

theorem Holds.nil (w : Word) : Holds w [] := fun _ h => nomatch h

/-- One more field. -/
theorem Holds.cons {w : Word} {hi lo v : Nat} {fs : List (Nat × Nat × Nat)}
    (h : (field w lo (hi - lo + 1)).toNat = v) (hs : Holds w fs) : Holds w ((hi, lo, v) :: fs) := by
  intro f hf
  rcases List.mem_cons.1 hf with rfl | hf
  · rw [← h, toNat_field]
  · exact hs f hf

/-! ### One lemma for each format -/

open Machine

theorem arithmeticImmediateWord_fields (opc : BitVec 2) (w : Width) (sh : Bool) (imm12 : BitVec 12) (rn rd : Reg) :
    Holds (arithmeticImmediateWord opc w sh imm12 rn rd)
      [(31, 31, sfBit w), (30, 23, opc.toNat * 64 + 34), (22, 22, sh.toNat), (21, 10, imm12.toNat), (9, 5, regNumber rn), (4, 0, regNumber rd)] := by
  refine Holds.cons ?_ (Holds.cons ?_ (Holds.cons ?_ (Holds.cons ?_ (Holds.cons ?_ (Holds.cons ?_ (Holds.nil _)))))) <;>
    simp (disch := omega) [arithmeticImmediateWord, field_place_same, field_place_outside]
  · revert opc; decide

theorem wideMoveWord_fields (opc : BitVec 2) (w : Width) (hw : BitVec 2) (imm16 : BitVec 16) (rd : Reg) :
    Holds (wideMoveWord opc w hw imm16 rd)
      [(31, 31, sfBit w), (30, 23, opc.toNat * 64 + 37), (22, 21, hw.toNat), (20, 5, imm16.toNat), (4, 0, regNumber rd)] := by
  refine Holds.cons ?_ (Holds.cons ?_ (Holds.cons ?_ (Holds.cons ?_ (Holds.cons ?_ (Holds.nil _))))) <;>
    simp (disch := omega) [wideMoveWord, field_place_same, field_place_outside]
  · revert opc; decide

theorem arithmeticRegisterWord_fields (opc : BitVec 2) (w : Width) (shift : ShiftType) (rm : Reg) (imm6 : BitVec 6) (rn rd : Reg) :
    Holds (arithmeticRegisterWord opc w shift rm imm6 rn rd)
      [(31, 31, sfBit w), (30, 24, opc.toNat * 32 + 11), (23, 22, shiftCode shift), (21, 21, 0), (20, 16, regNumber rm), (15, 10, imm6.toNat), (9, 5, regNumber rn), (4, 0, regNumber rd)] := by
  refine Holds.cons ?_ (Holds.cons ?_ (Holds.cons ?_ (Holds.cons ?_ (Holds.cons ?_ (Holds.cons ?_ (Holds.cons ?_ (Holds.cons ?_ (Holds.nil _)))))))) <;>
    simp (disch := omega) [arithmeticRegisterWord, field_place_same, field_place_outside]
  · revert opc; decide

theorem logicalRegisterWord_fields (opc : BitVec 2) (n : BitVec 1) (w : Width) (shift : ShiftType) (rm : Reg) (imm6 : BitVec 6) (rn rd : Reg) :
    Holds (logicalRegisterWord opc n w shift rm imm6 rn rd)
      [(31, 31, sfBit w), (30, 24, opc.toNat * 32 + 10), (23, 22, shiftCode shift), (21, 21, n.toNat), (20, 16, regNumber rm), (15, 10, imm6.toNat), (9, 5, regNumber rn), (4, 0, regNumber rd)] := by
  refine Holds.cons ?_ (Holds.cons ?_ (Holds.cons ?_ (Holds.cons ?_ (Holds.cons ?_ (Holds.cons ?_ (Holds.cons ?_ (Holds.cons ?_ (Holds.nil _)))))))) <;>
    simp (disch := omega) [logicalRegisterWord, field_place_same, field_place_outside]
  · revert opc; decide

theorem multiplyWord_fields (x : BitVec 1) (w : Width) (rm ra rn rd : Reg) :
    Holds (multiplyWord x w rm ra rn rd)
      [(31, 31, sfBit w), (30, 21, 216), (20, 16, regNumber rm), (15, 15, x.toNat), (14, 10, regNumber ra), (9, 5, regNumber rn), (4, 0, regNumber rd)] := by
  refine Holds.cons ?_ (Holds.cons ?_ (Holds.cons ?_ (Holds.cons ?_ (Holds.cons ?_ (Holds.cons ?_ (Holds.cons ?_ (Holds.nil _))))))) <;>
    simp (disch := omega) [multiplyWord, field_place_same, field_place_outside]
  · rfl

theorem branchWord_fields (simm26 : BitVec 26) :
    Holds (branchWord simm26)
      [(31, 26, 5), (25, 0, simm26.toNat)] := by
  refine Holds.cons ?_ (Holds.cons ?_ (Holds.nil _)) <;>
    simp (disch := omega) [branchWord, field_place_same, field_place_outside]

theorem branchCondWord_fields (simm19 : BitVec 19) (cond : Cond) :
    Holds (branchCondWord simm19 cond)
      [(31, 24, 84), (23, 5, simm19.toNat), (4, 4, 0), (3, 0, condCode cond)] := by
  refine Holds.cons ?_ (Holds.cons ?_ (Holds.cons ?_ (Holds.cons ?_ (Holds.nil _)))) <;>
    simp (disch := omega) [branchCondWord, field_place_same, field_place_outside]

theorem branchRegisterWord_fields (xn : Reg) :
    Holds (branchRegisterWord xn)
      [(31, 10, 3508160), (9, 5, regNumber xn), (4, 0, 0)] := by
  refine Holds.cons ?_ (Holds.cons ?_ (Holds.cons ?_ (Holds.nil _))) <;>
    simp (disch := omega) [branchRegisterWord, field_place_same, field_place_outside]

theorem unsignedOffsetWord_fields (load : BitVec 1) (w : Width) (imm12 : BitVec 12) (xn rt : Reg) :
    Holds (unsignedOffsetWord load w imm12 xn rt)
      [(31, 31, 1), (30, 30, sfBit w), (29, 22, 228 + load.toNat), (21, 10, imm12.toNat), (9, 5, regNumber xn), (4, 0, regNumber rt)] := by
  refine Holds.cons ?_ (Holds.cons ?_ (Holds.cons ?_ (Holds.cons ?_ (Holds.cons ?_ (Holds.cons ?_ (Holds.nil _)))))) <;>
    simp (disch := omega) [unsignedOffsetWord, field_place_same, field_place_outside]
  · revert load; decide

theorem indexedWord_fields (load pre : BitVec 1) (w : Width) (simm9 : BitVec 9) (xn rt : Reg) :
    Holds (indexedWord load pre w simm9 xn rt)
      [(31, 31, 1), (30, 30, sfBit w), (29, 21, 448 + 2 * load.toNat), (20, 12, simm9.toNat), (11, 10, 2 * pre.toNat + 1), (9, 5, regNumber xn), (4, 0, regNumber rt)] := by
  refine Holds.cons ?_ (Holds.cons ?_ (Holds.cons ?_ (Holds.cons ?_ (Holds.cons ?_ (Holds.cons ?_ (Holds.cons ?_ (Holds.nil _))))))) <;>
    simp (disch := omega) [indexedWord, field_place_same, field_place_outside]
  · revert load; decide
  · revert pre; decide

theorem registerOffsetWord_fields (load : BitVec 1) (w : Width) (xm xn rt : Reg) :
    Holds (registerOffsetWord load w xm xn rt)
      [(31, 31, 1), (30, 30, sfBit w), (29, 21, 449 + 2 * load.toNat), (20, 16, regNumber xm), (15, 10, 26), (9, 5, regNumber xn), (4, 0, regNumber rt)] := by
  refine Holds.cons ?_ (Holds.cons ?_ (Holds.cons ?_ (Holds.cons ?_ (Holds.cons ?_ (Holds.cons ?_ (Holds.cons ?_ (Holds.nil _))))))) <;>
    simp (disch := omega) [registerOffsetWord, field_place_same, field_place_outside]
  · revert load; decide

theorem literalWord_fields (w : Width) (simm19 : BitVec 19) (rt : Reg) :
    Holds (literalWord w simm19 rt)
      [(31, 31, 0), (30, 30, sfBit w), (29, 24, 24), (23, 5, simm19.toNat), (4, 0, regNumber rt)] := by
  refine Holds.cons ?_ (Holds.cons ?_ (Holds.cons ?_ (Holds.cons ?_ (Holds.cons ?_ (Holds.nil _))))) <;>
    simp (disch := omega) [literalWord, field_place_same, field_place_outside]

namespace TableFields

/-- The statement of the family. -/
def Statement (i : Instr) : Prop := HasTableFields i

theorem halt : Statement .halt := Holds.nil _

theorem addImm (w : Width) (sh : Bool) (imm12 : BitVec 12) (rn rd : Reg) :
    Statement (.addImm w sh imm12 rn rd) :=
  arithmeticImmediateWord_fields 0b00#2 w sh imm12 rn rd

theorem addsImm (w : Width) (sh : Bool) (imm12 : BitVec 12) (rn rd : Reg) :
    Statement (.addsImm w sh imm12 rn rd) :=
  arithmeticImmediateWord_fields 0b01#2 w sh imm12 rn rd

theorem subImm (w : Width) (sh : Bool) (imm12 : BitVec 12) (rn rd : Reg) :
    Statement (.subImm w sh imm12 rn rd) :=
  arithmeticImmediateWord_fields 0b10#2 w sh imm12 rn rd

theorem subsImm (w : Width) (sh : Bool) (imm12 : BitVec 12) (rn rd : Reg) :
    Statement (.subsImm w sh imm12 rn rd) :=
  arithmeticImmediateWord_fields 0b11#2 w sh imm12 rn rd

theorem movn (w : Width) (hw : BitVec 2) (imm16 : BitVec 16) (rd : Reg) :
    Statement (.movn w hw imm16 rd) :=
  wideMoveWord_fields 0b00#2 w hw imm16 rd

theorem movz (w : Width) (hw : BitVec 2) (imm16 : BitVec 16) (rd : Reg) :
    Statement (.movz w hw imm16 rd) :=
  wideMoveWord_fields 0b10#2 w hw imm16 rd

theorem movk (w : Width) (hw : BitVec 2) (imm16 : BitVec 16) (rd : Reg) :
    Statement (.movk w hw imm16 rd) :=
  wideMoveWord_fields 0b11#2 w hw imm16 rd

theorem addReg (w : Width) (shift : ShiftType) (rm : Reg) (imm6 : BitVec 6) (rn rd : Reg) :
    Statement (.addReg w shift rm imm6 rn rd) :=
  arithmeticRegisterWord_fields 0b00#2 w shift rm imm6 rn rd

theorem addsReg (w : Width) (shift : ShiftType) (rm : Reg) (imm6 : BitVec 6) (rn rd : Reg) :
    Statement (.addsReg w shift rm imm6 rn rd) :=
  arithmeticRegisterWord_fields 0b01#2 w shift rm imm6 rn rd

theorem subReg (w : Width) (shift : ShiftType) (rm : Reg) (imm6 : BitVec 6) (rn rd : Reg) :
    Statement (.subReg w shift rm imm6 rn rd) :=
  arithmeticRegisterWord_fields 0b10#2 w shift rm imm6 rn rd

theorem subsReg (w : Width) (shift : ShiftType) (rm : Reg) (imm6 : BitVec 6) (rn rd : Reg) :
    Statement (.subsReg w shift rm imm6 rn rd) :=
  arithmeticRegisterWord_fields 0b11#2 w shift rm imm6 rn rd

theorem and (w : Width) (shift : ShiftType) (rm : Reg) (imm6 : BitVec 6) (rn rd : Reg) :
    Statement (.and w shift rm imm6 rn rd) :=
  logicalRegisterWord_fields 0b00#2 0b0#1 w shift rm imm6 rn rd

theorem bic (w : Width) (shift : ShiftType) (rm : Reg) (imm6 : BitVec 6) (rn rd : Reg) :
    Statement (.bic w shift rm imm6 rn rd) :=
  logicalRegisterWord_fields 0b00#2 0b1#1 w shift rm imm6 rn rd

theorem orr (w : Width) (shift : ShiftType) (rm : Reg) (imm6 : BitVec 6) (rn rd : Reg) :
    Statement (.orr w shift rm imm6 rn rd) :=
  logicalRegisterWord_fields 0b01#2 0b0#1 w shift rm imm6 rn rd

theorem orn (w : Width) (shift : ShiftType) (rm : Reg) (imm6 : BitVec 6) (rn rd : Reg) :
    Statement (.orn w shift rm imm6 rn rd) :=
  logicalRegisterWord_fields 0b01#2 0b1#1 w shift rm imm6 rn rd

theorem eor (w : Width) (shift : ShiftType) (rm : Reg) (imm6 : BitVec 6) (rn rd : Reg) :
    Statement (.eor w shift rm imm6 rn rd) :=
  logicalRegisterWord_fields 0b10#2 0b0#1 w shift rm imm6 rn rd

theorem eon (w : Width) (shift : ShiftType) (rm : Reg) (imm6 : BitVec 6) (rn rd : Reg) :
    Statement (.eon w shift rm imm6 rn rd) :=
  logicalRegisterWord_fields 0b10#2 0b1#1 w shift rm imm6 rn rd

theorem ands (w : Width) (shift : ShiftType) (rm : Reg) (imm6 : BitVec 6) (rn rd : Reg) :
    Statement (.ands w shift rm imm6 rn rd) :=
  logicalRegisterWord_fields 0b11#2 0b0#1 w shift rm imm6 rn rd

theorem bics (w : Width) (shift : ShiftType) (rm : Reg) (imm6 : BitVec 6) (rn rd : Reg) :
    Statement (.bics w shift rm imm6 rn rd) :=
  logicalRegisterWord_fields 0b11#2 0b1#1 w shift rm imm6 rn rd

theorem madd (w : Width) (rm ra rn rd : Reg) :
    Statement (.madd w rm ra rn rd) :=
  multiplyWord_fields 0b0#1 w rm ra rn rd

theorem msub (w : Width) (rm ra rn rd : Reg) :
    Statement (.msub w rm ra rn rd) :=
  multiplyWord_fields 0b1#1 w rm ra rn rd

theorem b (simm26 : BitVec 26) :
    Statement (.b simm26) :=
  branchWord_fields simm26

theorem bCond (simm19 : BitVec 19) (cond : Cond) :
    Statement (.bCond simm19 cond) :=
  branchCondWord_fields simm19 cond

theorem br (xn : Reg) :
    Statement (.br xn) :=
  branchRegisterWord_fields xn

theorem strUnsigned (w : Width) (imm12 : BitVec 12) (xn rt : Reg) :
    Statement (.strUnsigned w imm12 xn rt) :=
  unsignedOffsetWord_fields 0b0#1 w imm12 xn rt

theorem ldrUnsigned (w : Width) (imm12 : BitVec 12) (xn rt : Reg) :
    Statement (.ldrUnsigned w imm12 xn rt) :=
  unsignedOffsetWord_fields 0b1#1 w imm12 xn rt

theorem strPost (w : Width) (simm9 : BitVec 9) (xn rt : Reg) :
    Statement (.strPost w simm9 xn rt) :=
  indexedWord_fields 0b0#1 0b0#1 w simm9 xn rt

theorem strPre (w : Width) (simm9 : BitVec 9) (xn rt : Reg) :
    Statement (.strPre w simm9 xn rt) :=
  indexedWord_fields 0b0#1 0b1#1 w simm9 xn rt

theorem ldrPost (w : Width) (simm9 : BitVec 9) (xn rt : Reg) :
    Statement (.ldrPost w simm9 xn rt) :=
  indexedWord_fields 0b1#1 0b0#1 w simm9 xn rt

theorem ldrPre (w : Width) (simm9 : BitVec 9) (xn rt : Reg) :
    Statement (.ldrPre w simm9 xn rt) :=
  indexedWord_fields 0b1#1 0b1#1 w simm9 xn rt

theorem strRegister (w : Width) (xm xn rt : Reg) :
    Statement (.strRegister w xm xn rt) :=
  registerOffsetWord_fields 0b0#1 w xm xn rt

theorem ldrRegister (w : Width) (xm xn rt : Reg) :
    Statement (.ldrRegister w xm xn rt) :=
  registerOffsetWord_fields 0b1#1 w xm xn rt

theorem ldrLiteral (w : Width) (simm19 : BitVec 19) (rt : Reg) :
    Statement (.ldrLiteral w simm19 rt) :=
  literalWord_fields w simm19 rt

end TableFields

end Sys2Proof.Laws
end

