-- ==== Sys2Proof/Tests/Slice0.lean ====
section
/-! SUPPORT. Tests. Expected values come from spec/ (the rules' worked examples and the vectors of 95_test_vectors.md, named in
the comments), never from the model. After them, for every statement with hypotheses, states and operands that meet them,
at the boundaries of each clause. -/

namespace Sys2Proof.Tests

open Sys2Proof.Machine

/-! ### Helpers -/

/-- General register `x<i>`. -/
def xr (i : Fin 31) : Reg := .x i

/-- The state with the listed registers written. -/
def withRegs (l : List (Reg × DWord)) (s : State) : State := l.foldl (fun s p => s.writeReg p.1 p.2) s

/-- The state with a 32-bit word stored at an address. -/
def withWord (a : Nat) (w : Word) (s : State) : State := s.setMem (s.mem.writeBytes a w 4)

/-- The state after one step that runs the word `w`. -/
def after (w : Word) (s : State) : Option State :=
  match step (s.withFetchWord 32 w.toNat) with
  | .next t => some t
  | _ => none

/-- One register, the flags and `pc` after one step that runs the word `w`. -/
def see (r : Reg) (w : Word) (s : State) : Option (DWord × Flags × DWord) :=
  (after w s).map fun t => (t.readReg r, t.flags, t.pc)

/-- Two memory words after one step that runs the word `w`. -/
def seeMem (a b : Nat) (w : Word) (s : State) : Option (Word × Word) :=
  (after w s).map fun t => (t.mem.readBytes a 32 4, t.mem.readBytes b 32 4)

/-- The flags by the letters of 95_test_vectors.md. -/
def fl (n z c v : Bool) : Flags := { n := n, z := z, c := c, v := v }

/-- The flags after reset, `-Z--`. -/
def fz : Flags := fl false true false false

/-- `mem word 0x110 = 0x55667788, 0x114 = 0x11223344`, the memory of vector M1. -/
def memM1 (s : State) : State := withWord 0x114 0x11223344#32 (withWord 0x110 0x55667788#32 s)

/-- A running state with a word at address 0. -/
def atZero (w : Word) : State := withWord 0 w State.reset

/-- Whether an outcome is a next state. -/
def isNext : Host.Outcome State Fault Refusal → Bool
  | .next _ => true
  | _ => false

/-- The next state of an outcome that is one. -/
def nextOf : Host.Outcome State Fault Refusal → Option State
  | .next t => some t
  | _ => none

/-- An outcome whose next state is `t` is `next t`. -/
theorem eq_next_of_nextOf {o : Host.Outcome State Fault Refusal} {t : State} (h : nextOf o = some t) : o = .next t := by
  cases o <;> simp_all [nextOf]

/-! ### WellFormed refuses an ill-formed term for each check, and takes its legal neighbour -/

theorem test_wellFormed_halfWord :
    (Instr.movz .w32 2#2 1#16 (xr 1)).wellFormed = false ∧ (Instr.movz .w32 1#2 1#16 (xr 1)).wellFormed = true ∧
    (Instr.movn .w32 3#2 1#16 (xr 1)).wellFormed = false ∧ (Instr.movk .w64 3#2 1#16 (xr 1)).wellFormed = true := by decide

theorem test_wellFormed_shiftAmount :
    (Instr.addReg .w32 .lsl (xr 1) 32#6 (xr 2) (xr 3)).wellFormed = false ∧
    (Instr.addReg .w32 .lsl (xr 1) 31#6 (xr 2) (xr 3)).wellFormed = true ∧
    (Instr.orn .w32 .ror (xr 1) 40#6 (xr 2) (xr 3)).wellFormed = false ∧
    (Instr.orn .w64 .ror (xr 1) 63#6 (xr 2) (xr 3)).wellFormed = true := by decide

theorem test_wellFormed_arithmeticRor :
    (Instr.subsReg .w64 .ror (xr 1) 0#6 (xr 2) (xr 3)).wellFormed = false ∧
    (Instr.subsReg .w64 .asr (xr 1) 0#6 (xr 2) (xr 3)).wellFormed = true := by decide

theorem test_wellFormed_writeBack :
    (Instr.ldrPost .w64 8#9 (xr 1) (xr 1)).wellFormed = false ∧ (Instr.strPre .w64 8#9 (xr 1) (xr 1)).wellFormed = false ∧
    (Instr.ldrPost .w64 8#9 .zr .zr).wellFormed = true ∧ (Instr.strPre .w64 8#9 (xr 1) (xr 2)).wellFormed = true := by decide

/-! ### One word of every family, written out field by field from 30_encoding.md -/

/-- R87: sf opc 100010 sh imm12 Rn Rd. -/
theorem test_fields_addImm :
    decode (0b1#1 ++ 0b00#2 ++ 0b100010#6 ++ 0b1#1 ++ 0b000000000101#12 ++ 0b00001#5 ++ 0b00010#5 : BitVec 32) =
      .ok (.addImm .w64 true 5#12 (xr 1) (xr 2)) := by decide

/-- R88: sf opc 100101 hw imm16 Rd. -/
theorem test_fields_movk :
    decode (0b1#1 ++ 0b11#2 ++ 0b100101#6 ++ 0b10#2 ++ 0xBEEF#16 ++ 0b11110#5 : BitVec 32) =
      .ok (.movk .w64 2#2 0xBEEF#16 (xr 30)) := by decide

/-- R92: sf opc 01011 shift 0 Rm imm6 Rn Rd. -/
theorem test_fields_subsReg :
    decode (0b0#1 ++ 0b11#2 ++ 0b01011#5 ++ 0b10#2 ++ 0b0#1 ++ 0b00011#5 ++ 0b011111#6 ++ 0b00001#5 ++ 0b11111#5 : BitVec 32) =
      .ok (.subsReg .w32 .asr (xr 3) 31#6 (xr 1) .zr) := by decide

/-- R93: sf opc 01010 shift N Rm imm6 Rn Rd. -/
theorem test_fields_eon :
    decode (0b1#1 ++ 0b10#2 ++ 0b01010#5 ++ 0b11#2 ++ 0b1#1 ++ 0b00010#5 ++ 0b000100#6 ++ 0b00001#5 ++ 0b00000#5 : BitVec 32) =
      .ok (.eon .w64 .ror (xr 2) 4#6 (xr 1) (xr 0)) := by decide

/-- R94: sf 00 11011 000 Rm x Ra Rn Rd. -/
theorem test_fields_msub :
    decode (0b1#1 ++ 0b00#2 ++ 0b11011#5 ++ 0b000#3 ++ 0b00100#5 ++ 0b1#1 ++ 0b00011#5 ++ 0b00010#5 ++ 0b00001#5 : BitVec 32) =
      .ok (.msub .w64 (xr 4) (xr 3) (xr 2) (xr 1)) := by decide

/-- R95: 000101 simm26. -/
theorem test_fields_b :
    decode (0b000101#6 ++ 0x3FFFFFE#26 : BitVec 32) =
      .ok (.b 0x3FFFFFE#26) := by decide

/-- R96: 01010100 simm19 0 cond. -/
theorem test_fields_bCond :
    decode (0b01010100#8 ++ 0x7FFFE#19 ++ 0b0#1 ++ 0b1101#4 : BitVec 32) =
      .ok (.bCond 0x7FFFE#19 .le) := by decide

/-- R97: 1101011000011111000000 Xn 00000. -/
theorem test_fields_br :
    decode (0b1101011000011111000000#22 ++ 0b11101#5 ++ 0b00000#5 : BitVec 32) =
      .ok (.br (xr 29)) := by decide

/-- R99, R100: 1 sf 11100 1 0 L imm12 Xn Rt. -/
theorem test_fields_strUnsigned :
    decode (0b1#1 ++ 0b0#1 ++ 0b11100#5 ++ 0b1#1 ++ 0b0#1 ++ 0b0#1 ++ 0xFFF#12 ++ 0b00001#5 ++ 0b00000#5 : BitVec 32) =
      .ok (.strUnsigned .w32 0xFFF#12 (xr 1) (xr 0)) := by decide

/-- R99, R101: 1 sf 11100 0 0 L 0 simm9 I 1 Xn Rt. -/
theorem test_fields_ldrPost :
    decode (0b1#1 ++ 0b1#1 ++ 0b11100#5 ++ 0b0#1 ++ 0b0#1 ++ 0b1#1 ++ 0b0#1 ++ 0b100000000#9 ++ 0b0#1 ++ 0b1#1 ++ 0b00001#5 ++ 0b00000#5 : BitVec 32) =
      .ok (.ldrPost .w64 0x100#9 (xr 1) (xr 0)) := by decide

/-- R99, R102: 1 sf 11100 0 0 L 1 Xm 011010 Xn Rt. -/
theorem test_fields_ldrRegister :
    decode (0b1#1 ++ 0b0#1 ++ 0b11100#5 ++ 0b0#1 ++ 0b0#1 ++ 0b1#1 ++ 0b1#1 ++ 0b00010#5 ++ 0b011010#6 ++ 0b00001#5 ++ 0b00000#5 : BitVec 32) =
      .ok (.ldrRegister .w32 (xr 2) (xr 1) (xr 0)) := by decide

/-- R103: 0 sf 011000 simm19 Rt. -/
theorem test_fields_ldrLiteral :
    decode (0b0#1 ++ 0b1#1 ++ 0b011000#6 ++ 0x7FFFF#19 ++ 0b00010#5 : BitVec 32) =
      .ok (.ldrLiteral .w64 0x7FFFF#19 (xr 2)) := by decide

/-! ### A word of every constructor, from the worked examples and vectors of spec/, decoded and encoded -/

/-- R105. -/
theorem test_word_halt : decode 0x8A000000#32 = .ok .halt ∧ encode .halt = 0x8A000000#32 ∧
    decodeTableWord 32 0x8A000000 = some .halt := by decide

/-- A1. -/
theorem test_word_addImm : decode 0x91001420#32 = .ok (.addImm .w64 false 5#12 (xr 1) (xr 0)) ∧ encode (.addImm .w64 false 5#12 (xr 1) (xr 0)) = 0x91001420#32 ∧
    decodeTableWord 32 0x91001420 = some (.addImm .w64 false 5#12 (xr 1) (xr 0)) := by decide

/-- A5. -/
theorem test_word_addsImm : decode 0x310007E0#32 = .ok (.addsImm .w32 false 1#12 .zr (xr 0)) ∧ encode (.addsImm .w32 false 1#12 .zr (xr 0)) = 0x310007E0#32 ∧
    decodeTableWord 32 0x310007E0 = some (.addsImm .w32 false 1#12 .zr (xr 0)) := by decide

/-- A11. -/
theorem test_word_subImm : decode 0xD1400442#32 = .ok (.subImm .w64 true 1#12 (xr 2) (xr 2)) ∧ encode (.subImm .w64 true 1#12 (xr 2) (xr 2)) = 0xD1400442#32 ∧
    decodeTableWord 32 0xD1400442 = some (.subImm .w64 true 1#12 (xr 2) (xr 2)) := by decide

/-- A20. -/
theorem test_word_subsImm : decode 0xF17FFC20#32 = .ok (.subsImm .w64 true 0xFFF#12 (xr 1) (xr 0)) ∧ encode (.subsImm .w64 true 0xFFF#12 (xr 1) (xr 0)) = 0xF17FFC20#32 ∧
    decodeTableWord 32 0xF17FFC20 = some (.subsImm .w64 true 0xFFF#12 (xr 1) (xr 0)) := by decide

/-- A23. -/
theorem test_word_movn : decode 0x92C24683#32 = .ok (.movn .w64 2#2 0x1234#16 (xr 3)) ∧ encode (.movn .w64 2#2 0x1234#16 (xr 3)) = 0x92C24683#32 ∧
    decodeTableWord 32 0x92C24683 = some (.movn .w64 2#2 0x1234#16 (xr 3)) := by decide

/-- A27. -/
theorem test_word_movz : decode 0x52B579A5#32 = .ok (.movz .w32 1#2 0xABCD#16 (xr 5)) ∧ encode (.movz .w32 1#2 0xABCD#16 (xr 5)) = 0x52B579A5#32 ∧
    decodeTableWord 32 0x52B579A5 = some (.movz .w32 1#2 0xABCD#16 (xr 5)) := by decide

/-- A31. -/
theorem test_word_movk : decode 0xF2F7DDE0#32 = .ok (.movk .w64 3#2 0xBEEF#16 (xr 0)) ∧ encode (.movk .w64 3#2 0xBEEF#16 (xr 0)) = 0xF2F7DDE0#32 ∧
    decodeTableWord 32 0xF2F7DDE0 = some (.movk .w64 3#2 0xBEEF#16 (xr 0)) := by decide

/-- G6. -/
theorem test_word_addReg : decode 0x0B827C20#32 = .ok (.addReg .w32 .asr (xr 2) 31#6 (xr 1) (xr 0)) ∧ encode (.addReg .w32 .asr (xr 2) 31#6 (xr 1) (xr 0)) = 0x0B827C20#32 ∧
    decodeTableWord 32 0x0B827C20 = some (.addReg .w32 .asr (xr 2) 31#6 (xr 1) (xr 0)) := by decide

/-- G13. -/
theorem test_word_addsReg : decode 0xAB02003F#32 = .ok (.addsReg .w64 .lsl (xr 2) 0#6 (xr 1) .zr) ∧ encode (.addsReg .w64 .lsl (xr 2) 0#6 (xr 1) .zr) = 0xAB02003F#32 ∧
    decodeTableWord 32 0xAB02003F = some (.addsReg .w64 .lsl (xr 2) 0#6 (xr 1) .zr) := by decide

/-- R185. -/
theorem test_word_subReg : decode 0xCB820420#32 = .ok (.subReg .w64 .asr (xr 2) 1#6 (xr 1) (xr 0)) ∧ encode (.subReg .w64 .asr (xr 2) 1#6 (xr 1) (xr 0)) = 0xCB820420#32 ∧
    decodeTableWord 32 0xCB820420 = some (.subReg .w64 .asr (xr 2) 1#6 (xr 1) (xr 0)) := by decide

/-- G23. -/
theorem test_word_subsReg : decode 0xEB0203E0#32 = .ok (.subsReg .w64 .lsl (xr 2) 0#6 .zr (xr 0)) ∧ encode (.subsReg .w64 .lsl (xr 2) 0#6 .zr (xr 0)) = 0xEB0203E0#32 ∧
    decodeTableWord 32 0xEB0203E0 = some (.subsReg .w64 .lsl (xr 2) 0#6 .zr (xr 0)) := by decide

/-- R187. -/
theorem test_word_and : decode 0x8AC22020#32 = .ok (.and .w64 .ror (xr 2) 8#6 (xr 1) (xr 0)) ∧ encode (.and .w64 .ror (xr 2) 8#6 (xr 1) (xr 0)) = 0x8AC22020#32 ∧
    decodeTableWord 32 0x8AC22020 = some (.and .w64 .ror (xr 2) 8#6 (xr 1) (xr 0)) := by decide

/-- G25. -/
theorem test_word_bic : decode 0x8A220020#32 = .ok (.bic .w64 .lsl (xr 2) 0#6 (xr 1) (xr 0)) ∧ encode (.bic .w64 .lsl (xr 2) 0#6 (xr 1) (xr 0)) = 0x8A220020#32 ∧
    decodeTableWord 32 0x8A220020 = some (.bic .w64 .lsl (xr 2) 0#6 (xr 1) (xr 0)) := by decide

/-- R189. -/
theorem test_word_orr : decode 0x2AC223E0#32 = .ok (.orr .w32 .ror (xr 2) 8#6 .zr (xr 0)) ∧ encode (.orr .w32 .ror (xr 2) 8#6 .zr (xr 0)) = 0x2AC223E0#32 ∧
    decodeTableWord 32 0x2AC223E0 = some (.orr .w32 .ror (xr 2) 8#6 .zr (xr 0)) := by decide

/-- R190. -/
theorem test_word_orn : decode 0xAA3F03E0#32 = .ok (.orn .w64 .lsl .zr 0#6 .zr (xr 0)) ∧ encode (.orn .w64 .lsl .zr 0#6 .zr (xr 0)) = 0xAA3F03E0#32 ∧
    decodeTableWord 32 0xAA3F03E0 = some (.orn .w64 .lsl .zr 0#6 .zr (xr 0)) := by decide

/-- R191. -/
theorem test_word_eor : decode 0x4A827C20#32 = .ok (.eor .w32 .asr (xr 2) 31#6 (xr 1) (xr 0)) ∧ encode (.eor .w32 .asr (xr 2) 31#6 (xr 1) (xr 0)) = 0x4A827C20#32 ∧
    decodeTableWord 32 0x4A827C20 = some (.eor .w32 .asr (xr 2) 31#6 (xr 1) (xr 0)) := by decide

/-- R192. -/
theorem test_word_eon : decode 0xCA220020#32 = .ok (.eon .w64 .lsl (xr 2) 0#6 (xr 1) (xr 0)) ∧ encode (.eon .w64 .lsl (xr 2) 0#6 (xr 1) (xr 0)) = 0xCA220020#32 ∧
    decodeTableWord 32 0xCA220020 = some (.eon .w64 .lsl (xr 2) 0#6 (xr 1) (xr 0)) := by decide

/-- G42. -/
theorem test_word_ands : decode 0xEA02003F#32 = .ok (.ands .w64 .lsl (xr 2) 0#6 (xr 1) .zr) ∧ encode (.ands .w64 .lsl (xr 2) 0#6 (xr 1) .zr) = 0xEA02003F#32 ∧
    decodeTableWord 32 0xEA02003F = some (.ands .w64 .lsl (xr 2) 0#6 (xr 1) .zr) := by decide

/-- G31. -/
theorem test_word_bics : decode 0xEA220020#32 = .ok (.bics .w64 .lsl (xr 2) 0#6 (xr 1) (xr 0)) ∧ encode (.bics .w64 .lsl (xr 2) 0#6 (xr 1) (xr 0)) = 0xEA220020#32 ∧
    decodeTableWord 32 0xEA220020 = some (.bics .w64 .lsl (xr 2) 0#6 (xr 1) (xr 0)) := by decide

/-- G47. -/
theorem test_word_madd : decode 0x9B020C20#32 = .ok (.madd .w64 (xr 2) (xr 3) (xr 1) (xr 0)) ∧ encode (.madd .w64 (xr 2) (xr 3) (xr 1) (xr 0)) = 0x9B020C20#32 ∧
    decodeTableWord 32 0x9B020C20 = some (.madd .w64 (xr 2) (xr 3) (xr 1) (xr 0)) := by decide

/-- G53. -/
theorem test_word_msub : decode 0x9B02FC20#32 = .ok (.msub .w64 (xr 2) .zr (xr 1) (xr 0)) ∧ encode (.msub .w64 (xr 2) .zr (xr 1) (xr 0)) = 0x9B02FC20#32 ∧
    decodeTableWord 32 0x9B02FC20 = some (.msub .w64 (xr 2) .zr (xr 1) (xr 0)) := by decide

/-- B2. -/
theorem test_word_b : decode 0x17FFFFFF#32 = .ok (.b 0x3FFFFFF#26) ∧ encode (.b 0x3FFFFFF#26) = 0x17FFFFFF#32 ∧
    decodeTableWord 32 0x17FFFFFF = some (.b 0x3FFFFFF#26) := by decide

/-- B20. -/
theorem test_word_bCond : decode 0x54800000#32 = .ok (.bCond 0x40000#19 .eq) ∧ encode (.bCond 0x40000#19 .eq) = 0x54800000#32 ∧
    decodeTableWord 32 0x54800000 = some (.bCond 0x40000#19 .eq) := by decide

/-- P5. -/
theorem test_word_br : decode 0xD61F03C0#32 = .ok (.br (xr 30)) ∧ encode (.br (xr 30)) = 0xD61F03C0#32 ∧
    decodeTableWord 32 0xD61F03C0 = some (.br (xr 30)) := by decide

/-- M13. -/
theorem test_word_strUnsigned : decode 0xB9000420#32 = .ok (.strUnsigned .w32 1#12 (xr 1) (xr 0)) ∧ encode (.strUnsigned .w32 1#12 (xr 1) (xr 0)) = 0xB9000420#32 ∧
    decodeTableWord 32 0xB9000420 = some (.strUnsigned .w32 1#12 (xr 1) (xr 0)) := by decide

/-- M7. -/
theorem test_word_ldrUnsigned : decode 0xF97FFC20#32 = .ok (.ldrUnsigned .w64 0xFFF#12 (xr 1) (xr 0)) ∧ encode (.ldrUnsigned .w64 0xFFF#12 (xr 1) (xr 0)) = 0xF97FFC20#32 ∧
    decodeTableWord 32 0xF97FFC20 = some (.ldrUnsigned .w64 0xFFF#12 (xr 1) (xr 0)) := by decide

/-- M24. -/
theorem test_word_strPost : decode 0xB81FC420#32 = .ok (.strPost .w32 0x1FC#9 (xr 1) (xr 0)) ∧ encode (.strPost .w32 0x1FC#9 (xr 1) (xr 0)) = 0xB81FC420#32 ∧
    decodeTableWord 32 0xB81FC420 = some (.strPost .w32 0x1FC#9 (xr 1) (xr 0)) := by decide

/-- M23. -/
theorem test_word_strPre : decode 0xF81F0C20#32 = .ok (.strPre .w64 0x1F0#9 (xr 1) (xr 0)) ∧ encode (.strPre .w64 0x1F0#9 (xr 1) (xr 0)) = 0xF81F0C20#32 ∧
    decodeTableWord 32 0xF81F0C20 = some (.strPre .w64 0x1F0#9 (xr 1) (xr 0)) := by decide

/-- M30. -/
theorem test_word_ldrPost : decode 0xF84087FF#32 = .ok (.ldrPost .w64 8#9 .zr .zr) ∧ encode (.ldrPost .w64 8#9 .zr .zr) = 0xF84087FF#32 ∧
    decodeTableWord 32 0xF84087FF = some (.ldrPost .w64 8#9 .zr .zr) := by decide

/-- M20. -/
theorem test_word_ldrPre : decode 0xB8500C20#32 = .ok (.ldrPre .w32 0x100#9 (xr 1) (xr 0)) ∧ encode (.ldrPre .w32 0x100#9 (xr 1) (xr 0)) = 0xB8500C20#32 ∧
    decodeTableWord 32 0xB8500C20 = some (.ldrPre .w32 0x100#9 (xr 1) (xr 0)) := by decide

/-- M35. -/
theorem test_word_strRegister : decode 0xB822683F#32 = .ok (.strRegister .w32 (xr 2) (xr 1) .zr) ∧ encode (.strRegister .w32 (xr 2) (xr 1) .zr) = 0xB822683F#32 ∧
    decodeTableWord 32 0xB822683F = some (.strRegister .w32 (xr 2) (xr 1) .zr) := by decide

/-- M36. -/
theorem test_word_ldrRegister : decode 0xF8616820#32 = .ok (.ldrRegister .w64 (xr 1) (xr 1) (xr 0)) ∧ encode (.ldrRegister .w64 (xr 1) (xr 1) (xr 0)) = 0xF8616820#32 ∧
    decodeTableWord 32 0xF8616820 = some (.ldrRegister .w64 (xr 1) (xr 1) (xr 0)) := by decide

/-- M44. -/
theorem test_word_ldrLiteral : decode 0x18FFFFC3#32 = .ok (.ldrLiteral .w32 0x7FFFE#19 (xr 3)) ∧ encode (.ldrLiteral .w32 0x7FFFE#19 (xr 3)) = 0x18FFFFC3#32 ∧
    decodeTableWord 32 0x18FFFFC3 = some (.ldrLiteral .w32 0x7FFFE#19 (xr 3)) := by decide

/-! ### Words that are no instruction, each place of 60_exceptions.md R275 and each unknown class of R271 -/

/-- S3, S6, S7, S8, S9, S10, S11. -/
theorem test_unknownClass :
    [0x00000000#32, 0x02000000#32, 0x04000000#32, 0x06000000#32, 0x0E000000#32, 0x1E000000#32, 0xFFFFFFFF#32].all
      (fun w => decide (decode w = .error .unknownClass)) = true := by decide

/-- A33 to A39. -/
theorem test_undefined_dpImmediate :
    decode 0x52C00020#32 = undef .halfWord ∧ decode 0x72E00020#32 = undef .halfWord ∧
    decode 0xB2800020#32 = undef .wideMoveOpc ∧ decode 0x92000000#32 = undef .subClass ∧
    decode 0x10000000#32 = undef .subClass ∧ decode 0x93407C20#32 = undef .subClass ∧
    decode 0x91800000#32 = undef .subClass := by decide

/-- G55 to G62. -/
theorem test_undefined_dpRegister :
    decode 0x8BC20420#32 = undef .arithmeticRor ∧ decode 0x0B028020#32 = undef .shiftAmount ∧
    decode 0x2A02A020#32 = undef .shiftAmount ∧ decode 0x8B220020#32 = undef .extendedRegister ∧
    decode 0x9B220C20#32 = undef .multiplyForm ∧ decode 0xBB020C20#32 = undef .multiplyForm ∧
    decode 0x9AC20820#32 = undef .multiplyForm ∧ decode 0x9A820020#32 = undef .multiplyForm := by decide

/-- B26 to B37. -/
theorem test_undefined_branch :
    [0x94000001#32, 0xD503201F#32, 0xD65F03C0#32, 0xD63F0020#32, 0xB4000040#32, 0x54000030#32, 0xD61F0061#32, 0xD4000001#32,
      0xD69F03E0#32].all (fun w => decide (decode w = undef .branchForm)) = true ∧
    [0x54000022#32, 0x54000024#32, 0x5400002F#32].all (fun w => decide (decode w = undef .condition)) = true := by decide

/-- M28, M29, M38, M39, M46 to M55. -/
theorem test_undefined_loadStore :
    [0xF8408421#32, 0xF8008C21#32].all (fun w => decide (decode w = undef .writeBack)) = true ∧
    [0xF8627820#32, 0xF8624820#32, 0x39400020#32, 0x79400020#32, 0xF8408020#32, 0xA9400400#32, 0x98000040#32, 0xB9800020#32,
      0xF9C00020#32, 0x3DC00020#32, 0xC85F7C20#32, 0xF8400820#32].all
      (fun w => decide (decode w = undef .loadStoreForm)) = true := by decide

/-- 30_encoding.md R83: another halt word frees the AND encoding. -/
theorem test_halt_parameter :
    decodeWith 0x12345678#32 0x8A000000#32 = .ok (.and .w64 .lsl (xr 0) 0#6 (xr 0) (xr 0)) ∧
    decodeWith 0x12345678#32 0x12345678#32 = .ok .halt := by decide

/-- A row of fewer bits than a word: the bits above are zero. -/
theorem test_tableWord_short : decodeTableWord 8 0x1E0 = none ∧ decodeTableWord 31 0x94000002 = some (.b 2#26) := by decide

/-! ### One step of every instruction -/

/-- A3. -/
theorem test_addImm_width :
    see (xr 0) 0x117FFC20#32 (withRegs [((xr 1), 0xFFFFFFFF00000005#64), ((xr 0), 0xAAAAAAAAAAAAAAAA#64)] State.reset) =
      some (0x0000000000FFF005#64, fz, 0x4#64) := by decide

/-- A2. -/
theorem test_addImm_wraps :
    see (xr 0) 0x91001420#32 ((withRegs [((xr 1), 0xFFFFFFFFFFFFFFFE#64)] State.reset).setFlags (fl true false true true)) =
      some (0x3#64, fl true false true true, 0x4#64) := by decide

/-- A7. -/
theorem test_addsImm_overflow :
    see (xr 0) 0x31000420#32 (withRegs [((xr 1), 0x123456787FFFFFFF#64)] State.reset) =
      some (0x80000000#64, fl true false false true, 0x4#64) := by decide

/-- A9. -/
theorem test_addsImm_carry :
    see (xr 0) 0xB1000420#32 (withRegs [((xr 1), 0xFFFFFFFFFFFFFFFF#64)] State.reset) =
      some (0x0#64, fl false true true false, 0x4#64) := by decide

/-- A13. -/
theorem test_subImm_narrow :
    see (xr 0) 0x51000420#32 (withRegs [] State.reset) =
      some (0xFFFFFFFF#64, fz, 0x4#64) := by decide

/-- A16. -/
theorem test_subsImm_overflow :
    see (xr 0) 0xF1000420#32 (withRegs [((xr 1), 0x8000000000000000#64)] State.reset) =
      some (0x7FFFFFFFFFFFFFFF#64, fl false false true true, 0x4#64) := by decide

/-- A19. -/
theorem test_subsImm_discards :
    see .zr 0xF10007FF#32 (withRegs [] State.reset) =
      some (0x0#64, fl true false false false, 0x4#64) := by decide

/-- A24. -/
theorem test_movn_narrow :
    see (xr 3) 0x12BFFFE3#32 (withRegs [] State.reset) =
      some (0xFFFF#64, fz, 0x4#64) := by decide

/-- A23. -/
theorem test_movn_slot :
    see (xr 3) 0x92C24683#32 (withRegs [] State.reset) =
      some (0xFFFFEDCBFFFFFFFF#64, fz, 0x4#64) := by decide

/-- A25. -/
theorem test_movz_clears :
    see (xr 0) 0xD2A24680#32 (withRegs [((xr 0), 0xFFFFFFFFFFFFFFFF#64)] State.reset) =
      some (0x12340000#64, fz, 0x4#64) := by decide

/-- A30. -/
theorem test_movk_keeps :
    see (xr 0) 0xF2D7DDE0#32 (withRegs [((xr 0), 0x1111222233334444#64)] State.reset) =
      some (0x1111BEEF33334444#64, fz, 0x4#64) := by decide

/-- A32. -/
theorem test_movk_narrow :
    see (xr 0) 0x72B7DDE0#32 (withRegs [((xr 0), 0x1111222233334444#64)] State.reset) =
      some (0xBEEF4444#64, fz, 0x4#64) := by decide

/-- G5. -/
theorem test_addReg_asr :
    see (xr 0) 0x8B82FC20#32 (withRegs [((xr 2), 0x8000000000000000#64)] State.reset) =
      some (0xFFFFFFFFFFFFFFFF#64, fz, 0x4#64) := by decide

/-- G7. -/
theorem test_addReg_narrow :
    see (xr 0) 0x0B421020#32 (withRegs [((xr 2), 0xFFFFFFFF80000000#64)] State.reset) =
      some (0x8000000#64, fz, 0x4#64) := by decide

/-- G10. -/
theorem test_addsReg_carry :
    see (xr 0) 0xAB020020#32 (withRegs [((xr 1), 0x8000000000000000#64), ((xr 2), 0x8000000000000000#64)] State.reset) =
      some (0x0#64, fl false true true true, 0x4#64) := by decide

/-- G11. -/
theorem test_addsReg_same :
    see (xr 0) 0x2B010000#32 (withRegs [((xr 0), 1#64), ((xr 1), 0xFFFFFFFF#64)] State.reset) =
      some (0x0#64, fl false true true false, 0x4#64) := by decide

/-- R185, second example. -/
theorem test_subReg_asr :
    see (xr 0) 0x4B821020#32 (withRegs [((xr 2), 0x80000000#64)] State.reset) =
      some (0x8000000#64, fz, 0x4#64) := by decide

/-- G18. -/
theorem test_subsReg_borrow :
    see .zr 0xEB02003F#32 (withRegs [((xr 1), 3#64), ((xr 2), 5#64)] State.reset) =
      some (0x0#64, fl true false false false, 0x4#64) := by decide

/-- G22. -/
theorem test_subsReg_narrow :
    see (xr 0) 0x6B020020#32 (withRegs [((xr 1), 0xAAAAAAAA00000000#64), ((xr 2), 0xBBBBBBBB00000001#64)] State.reset) =
      some (0xFFFFFFFF#64, fl true false false false, 0x4#64) := by decide

/-- G24. -/
theorem test_and_flags :
    see (xr 0) 0x8A020020#32 ((withRegs [((xr 1), 0xFF00FF00FF00FF00#64), ((xr 2), 0x0FF00FF00FF00FF0#64)] State.reset).setFlags (fl false false true true)) =
      some (0x0F000F000F000F00#64, fl false false true true, 0x4#64) := by decide

/-- G40. -/
theorem test_and_asr :
    see (xr 0) 0x0A822020#32 (withRegs [((xr 1), 0xFFFFFFFF#64), ((xr 2), 0x80000000#64)] State.reset) =
      some (0xFF800000#64, fz, 0x4#64) := by decide

/-- G25. -/
theorem test_bic :
    see (xr 0) 0x8A220020#32 ((withRegs [((xr 1), 0xFF00FF00FF00FF00#64), ((xr 2), 0x0FF00FF00FF00FF0#64)] State.reset).setFlags (fl false false true true)) =
      some (0xF000F000F000F000#64, fl false false true true, 0x4#64) := by decide

/-- G37. -/
theorem test_orr_ror :
    see (xr 0) 0x2AC21020#32 (withRegs [((xr 2), 0xF#64)] State.reset) =
      some (0xF0000000#64, fz, 0x4#64) := by decide

/-- G33. -/
theorem test_orn_narrow :
    see (xr 0) 0x2A2203E0#32 (withRegs [((xr 2), 0#64)] State.reset) =
      some (0xFFFFFFFF#64, fz, 0x4#64) := by decide

/-- G38. -/
theorem test_eor_ror :
    see (xr 0) 0xCAC2FC20#32 (withRegs [((xr 2), 0x8000000000000001#64)] State.reset) =
      some (0x3#64, fz, 0x4#64) := by decide

/-- G29. -/
theorem test_eon :
    see (xr 0) 0xCA220020#32 (withRegs [((xr 1), 0xFF00FF00FF00FF00#64), ((xr 2), 0x0FF00FF00FF00FF0#64)] State.reset) =
      some (0x0F0F0F0F0F0F0F0F#64, fz, 0x4#64) := by decide

/-- G30. -/
theorem test_ands_clears :
    see (xr 0) 0xEA020020#32 ((withRegs [((xr 1), 0xFF00FF00FF00FF00#64), ((xr 2), 0x0FF00FF00FF00FF0#64)] State.reset).setFlags (fl false false true true)) =
      some (0x0F000F000F000F00#64, fl false false false false, 0x4#64) := by decide

/-- G43. -/
theorem test_ands_narrow :
    see (xr 0) 0x6A020020#32 (withRegs [((xr 1), 0x80000000#64), ((xr 2), 0x80000000#64)] State.reset) =
      some (0x80000000#64, fl true false false false, 0x4#64) := by decide

/-- G31. -/
theorem test_bics_clears :
    see (xr 0) 0xEA220020#32 ((withRegs [((xr 1), 0xFF00FF00FF00FF00#64), ((xr 2), 0x0FF00FF00FF00FF0#64)] State.reset).setFlags (fl false false true true)) =
      some (0xF000F000F000F000#64, fl true false false false, 0x4#64) := by decide

/-- G49. -/
theorem test_madd :
    see (xr 0) 0x9B020C20#32 (withRegs [((xr 1), 0x123456789ABCDEF0#64), ((xr 2), 0x0FEDCBA987654321#64), ((xr 3), 0xFFFFFFFFFFFFFFFF#64)] State.reset) =
      some (0x2236D88FE5618CEF#64, fz, 0x4#64) := by decide

/-- G51. -/
theorem test_madd_narrow :
    see (xr 0) 0x1B020C20#32 (withRegs [((xr 1), 0xDEADBEEF00000003#64), ((xr 2), 0xCAFEBABE00000005#64), ((xr 3), 0x1111111100000001#64)] State.reset) =
      some (0x10#64, fz, 0x4#64) := by decide

/-- G52. -/
theorem test_msub :
    see (xr 0) 0x9B028C20#32 (withRegs [((xr 1), 6#64), ((xr 2), 7#64), ((xr 3), 100#64)] State.reset) =
      some (0x3A#64, fz, 0x4#64) := by decide

/-- G54. -/
theorem test_msub_narrow :
    see (xr 0) 0x1B028C20#32 (withRegs [((xr 1), 1#64), ((xr 2), 1#64)] State.reset) =
      some (0xFFFFFFFF#64, fz, 0x4#64) := by decide

/-- B6. -/
theorem test_b_backward :
    see (xr 0) 0x16000000#32 (withRegs [] State.reset) =
      some (0x0#64, fz, 0xFFFFFFFFF8000000#64) := by decide

/-- B7. -/
theorem test_bCond_lt :
    see (xr 0) 0x5400004B#32 ((withRegs [] State.reset).setFlags (fl true false false false)) =
      some (0x0#64, fl true false false false, 0x8#64) := by decide

/-- B9. -/
theorem test_bCond_notTaken :
    see (xr 0) 0x5400004B#32 ((withRegs [] State.reset).setFlags (fl true false false true)) =
      some (0x0#64, fl true false false true, 0x4#64) := by decide

/-- B25, first cycle. -/
theorem test_br :
    see (xr 3) 0xD61F0060#32 (withRegs [((xr 3), 0xFFFFFFFFFFFFFFFF#64)] State.reset) =
      some (0xFFFFFFFFFFFFFFFF#64, fz, 0xFFFFFFFFFFFFFFFF#64) := by decide

/-- B22. -/
theorem test_br_zero :
    see (xr 0) 0xD61F03E0#32 ((withRegs [] State.reset).setPc 0x40#64) =
      some (0x0#64, fz, 0x0#64) := by decide

/-- M1. -/
theorem test_ldrUnsigned :
    see (xr 0) 0xF9400820#32 (memM1 (withRegs [((xr 1), 0x100#64)] State.reset)) =
      some (0x1122334455667788#64, fz, 0x4#64) := by decide

/-- M4. -/
theorem test_ldrUnsigned_misaligned :
    see (xr 0) 0xF9400020#32 (memM1 (withRegs [((xr 1), 0x112#64)] State.reset)) =
      some (0x0000112233445566#64, fz, 0x4#64) := by decide

/-- M21. -/
theorem test_ldrPre :
    see (xr 0) 0xF84FFC20#32 (memM1 (withRegs [((xr 1), 0x11#64)] State.reset)) =
      some (0x1122334455667788#64, fz, 0x4#64) := by decide

/-- M20. -/
theorem test_ldrPre_back :
    see (xr 1) 0xB8500C20#32 (memM1 (withRegs [((xr 1), 0x210#64)] State.reset)) =
      some (0x110#64, fz, 0x4#64) := by decide

/-- M19. -/
theorem test_ldrPost :
    see (xr 0) 0xF8408420#32 (memM1 (withRegs [((xr 1), 0x110#64)] State.reset)) =
      some (0x1122334455667788#64, fz, 0x4#64) := by decide

/-- M22. -/
theorem test_ldrPost_back :
    see (xr 1) 0xF85F8420#32 (withRegs [] State.reset) =
      some (0xFFFFFFFFFFFFFFF8#64, fz, 0x4#64) := by decide

/-- M33. -/
theorem test_ldrRegister :
    see (xr 0) 0xB8626820#32 (memM1 (withRegs [((xr 1), 0x200#64), ((xr 2), 0xFFFFFFFFFFFFFF14#64)] State.reset)) =
      some (0x11223344#64, fz, 0x4#64) := by decide

/-- M36. -/
theorem test_ldrRegister_same :
    see (xr 0) 0xF8616820#32 (memM1 (withRegs [((xr 1), 0x88#64)] State.reset)) =
      some (0x1122334455667788#64, fz, 0x4#64) := by decide

/-- M42. -/
theorem test_ldrLiteral :
    see (xr 2) 0x58000002#32 (withWord 4 0x7#32 (withRegs [] State.reset)) =
      some (0x0000000758000002#64, fz, 0x4#64) := by decide

/-- M44. -/
theorem test_ldrLiteral_backward :
    see (xr 3) 0x18FFFFC3#32 (withWord 0x18 0x0BADF00D#32 ((withRegs [] State.reset).setPc 0x20#64)) =
      some (0x0BADF00D#64, fz, 0x24#64) := by decide

/-- M12. -/
theorem test_strUnsigned :
    seeMem 0x108 0x10C 0xF9000420#32 (withRegs [((xr 0), 0x1122334455667788#64), ((xr 1), 0x100#64)] State.reset) = some (0x55667788#32, 0x11223344#32) := by decide

/-- M14. -/
theorem test_strUnsigned_misaligned :
    seeMem 0x100 0x104 0xB9000020#32 (withRegs [((xr 0), 0xAABBCCDD#64), ((xr 1), 0x101#64)] State.reset) = some (0xBBCCDD00#32, 0x000000AA#32) := by decide

/-- M23. -/
theorem test_strPre :
    seeMem 0x110 0x114 0xF81F0C20#32 (withRegs [((xr 0), 0x1122334455667788#64), ((xr 1), 0x120#64)] State.reset) = some (0x55667788#32, 0x11223344#32) := by decide

/-- M25. -/
theorem test_strPre_back :
    see (xr 1) 0xF81F8C20#32 (withRegs [((xr 0), 7#64), ((xr 1), 0x200000#64)] State.reset) =
      some (0x1FFFF8#64, fz, 0x4#64) := by decide

/-- M24. -/
theorem test_strPost :
    seeMem 0x120 0x124 0xB81FC420#32 (withRegs [((xr 0), 0x1122334455667788#64), ((xr 1), 0x120#64)] State.reset) = some (0x55667788#32, 0x0#32) := by decide

/-- M24. -/
theorem test_strPost_back :
    see (xr 1) 0xB81FC420#32 (withRegs [((xr 0), 0x1122334455667788#64), ((xr 1), 0x120#64)] State.reset) =
      some (0x11C#64, fz, 0x4#64) := by decide

/-- M34. -/
theorem test_strRegister :
    seeMem 0x120 0x124 0xF8226820#32 (withRegs [((xr 0), 0x1122334455667788#64), ((xr 1), 0x100#64), ((xr 2), 0x20#64)] State.reset) = some (0x55667788#32, 0x11223344#32) := by decide

/-- M35. -/
theorem test_strRegister_zero :
    seeMem 0x104 0x108 0xB822683F#32 (withWord 0x108 0xFFFFFFFF#32 (withWord 0x104 0xFFFFFFFF#32 (withRegs [((xr 1), 0x100#64), ((xr 2), 4#64)] State.reset))) = some (0x0#32, 0xFFFFFFFF#32) := by decide

/-- S1, S2: HALT changes `halted` only, also at the last word of memory. -/
theorem test_halt :
    after 0x8A000000#32 State.reset = some { (atZero 0x8A000000#32) with halted := true } ∧
    (after 0x8A000000#32 (State.reset.setPc 0x1FFFFC#64)).map (fun t => (t.halted, t.pc)) = some (true, 0x1FFFFC#64) := by decide

/-! ### Exceptions -/

/-- M26: a bound violation of a pre-indexed store leaves base, memory and `pc` (60_exceptions.md R274). -/
theorem test_boundViolation_precise :
    after 0xF8008C20#32 (withRegs [(xr 0, 7#64), (xr 1, 0x1FFFF8#64)] State.reset) =
      some ((withRegs [(xr 0, 7#64), (xr 1, 0x1FFFF8#64)] (atZero 0xF8008C20#32)).raise
        (.memoryBoundViolation 0x200000#64 8 .store)) := by decide

/-- M8 and M9: the last four bytes can be loaded, eight from there cannot. -/
theorem test_boundViolation_edge :
    (after 0xF9400020#32 (withRegs [(xr 1, 0x1FFFFC#64)] State.reset)).map (·.fault) =
      some (some { cause := .memoryBoundViolation 0x1FFFFC#64 8 .load, pc := 0#64 }) ∧
    (after 0xB9400020#32 (withRegs [(xr 1, 0x1FFFFC#64)] State.reset)).map (·.fault) = some none := by decide

/-- S12, S13: a fetch that is not wholly inside memory. -/
theorem test_fetchViolation :
    step (State.reset.setPc 0x1FFFFD#64) =
      .next ((State.reset.setPc 0x1FFFFD#64).raise (.memoryBoundViolation 0x1FFFFD#64 4 .fetch)) ∧
    step (State.reset.setPc 0x200000#64) =
      .next ((State.reset.setPc 0x200000#64).raise (.memoryBoundViolation 0x200000#64 4 .fetch)) :=
  ⟨eq_next_of_nextOf (by decide), eq_next_of_nextOf (by decide)⟩

/-- S3: from reset with the empty image the first step raises `UnknownClass`; then there is no further step. -/
theorem test_reset_emptyImage :
    step State.reset = .next (State.reset.raise (.unknownClass 0#32)) ∧
    step (State.reset.raise (.unknownClass 0#32)) = .fault (.faulted { cause := .unknownClass 0#32, pc := 0#64 }) ∧
    step State.reset.setHalted = .fault .halted := ⟨eq_next_of_nextOf (by decide), rfl, rfl⟩

/-- A33, and 60_exceptions.md R276: an ill-formed pre-indexed load out of bounds is undefined, not a bound violation. -/
theorem test_undefined_first :
    step (atZero 0x52C00020#32) = .next ((atZero 0x52C00020#32).raise (.undefinedInstruction 0x52C00020#32)) ∧
    (after 0xF8408C21#32 (withRegs [(xr 1, 0x200000#64)] State.reset)).map (·.fault) =
      some (some { cause := .undefinedInstruction 0xF8408C21#32, pc := 0#64 }) :=
  ⟨eq_next_of_nextOf (by decide), by decide⟩

/-- B24: a misaligned `pc` fetches the four bytes as they lie. -/
theorem test_misaligned_fetch :
    step (withWord 8 0x00008A00#32 (State.reset.setPc 6#64)) =
      .next { (withWord 8 0x00008A00#32 (State.reset.setPc 6#64)) with halted := true } :=
  eq_next_of_nextOf (by decide)

/-! ### The host's part and the toolchain's -/

/-- P8's image: load, first cycle, then the zero word. -/
theorem test_load_and_run :
    emulateWith haltWord (imageOfWords [0xD2800020#32]) 5 =
      some (.error ((withRegs [(xr 0, 1#64)] ((atZero 0xD2800020#32).setPc 4#64)).raise (.unknownClass 0#32))
        { cause := .unknownClass 0#32, pc := 4#64 }) := by decide

/-- 70_reset_and_hazards.md R306, on one word stored across two aligned words. -/
theorem test_dump_words :
    (withWord 0x101 0xAABBCCDD#32 State.reset).mem.nonzeroWordsFast = [(0x100, 0xBBCCDD00#32), (0x104, 0x000000AA#32)] := by
  decide

/-- General register `x<i>` and `w<i>` as written in source. -/
def sx (i : Fin 31) : SourceReg := { width := .w64, reg := .x i }

/-- See `sx`. -/
def sw (i : Fin 31) : SourceReg := { width := .w32, reg := .x i }

/-- A register operand without shift. -/
def opx (i : Fin 31) : SourceOperand := .register (sx i) none

/-- The line `and x0, x0, x0` that halts. -/
def haltLine : SourceLine := .instruction (.logical .and (sx 0) (sx 0) (opx 0))

/-- Program P1 of 95_test_vectors.md. -/
def programP1 : List SourceLine :=
  [.instruction (.wide .movz (sx 0) 0 none), .instruction (.wide .movz (sx 1) 10 none), .label "loop",
    .instruction (.arithmetic .add (sx 0) (sx 0) (opx 1)),
    .instruction (.arithmetic .subs (sx 1) (sx 1) (.immediate 1 none)), .instruction (.bCond .ne "loop"), haltLine]

/-- 95_test_vectors.md E2: in program P1 the label `loop` follows two instruction lines and resolves to 8; P1's words. -/
theorem test_assemble_P1 :
    labelAddress 0 programP1 "loop" = some 8 ∧ localErrors programP1 = [] ∧
    assemble programP1 =
      [0xD2800000#32, 0xD2800141#32, 0x8B010000#32, 0xF1000421#32, 0x54FFFFC1#32, 0x8A000000#32] := by decide

/-- Program P2: a literal defined after its use, every addressing form but the register offset. -/
theorem test_assemble_P2 :
    assemble
      [.instruction (.wide .movz (sx 1) 0x100 none), .instruction (.ldr (sx 2) (.label "data")),
        .instruction (.str (sx 2) (.base (sx 1))), .instruction (.str (sw 2) (.offset (sx 1) 8)),
        .instruction (.ldr (sx 3) (.postIndexed (sx 1) 8)), .instruction (.ldr (sw 4) (.base (sx 1))),
        .instruction (.arithmetic .add (sx 5) (sx 3) (opx 4)), .instruction (.str (sx 5) (.preIndexed (sx 1) 8)), haltLine,
        .label "data", .int 0x89ABCDEF#32, .int 0x01234567#32] =
      [0xD2802001#32, 0x58000102#32, 0xF9000022#32, 0xB9000822#32, 0xF8408423#32, 0xB9400024#32, 0x8B040065#32, 0xF8008C25#32,
        0x8A000000#32, 0x89ABCDEF#32, 0x01234567#32] := by decide

/-- Program P4: aliases and forward branches; and lines of P3, P5 and vectors A11, A25, G53, G33, M34. -/
theorem test_assemble_P4 :
    assemble
      [.instruction (.wide .movn (sx 1) 2 none), .instruction (.wide .movz (sx 2) 7 none), .instruction (.cmp (sx 1) (opx 2)),
        .instruction (.bCond .lt "second"), .instruction (.mov (sx 0) (opx 1)), .instruction (.b "done"), .label "second",
        .instruction (.mov (sx 0) (opx 2)), .label "done", haltLine] =
      [0x92800041#32, 0xD28000E2#32, 0xEB02003F#32, 0x5400006B#32, 0xAA0103E0#32, 0x14000002#32, 0xAA0203E0#32, 0x8A000000#32] ∧
    assemble
      [.instruction (.mul (sx 0) (sx 0) (sx 1)), .instruction (.cmp (sx 1) (.immediate 1 none)), .instruction (.br (sx 30)),
        .instruction (.arithmetic .sub (sx 2) (sx 2) (.immediate 1 (some ⟨.lsl, 12⟩))),
        .instruction (.wide .movz (sx 0) 0x1234 (some ⟨.lsl, 16⟩)), .instruction (.mneg (sx 0) (sx 1) (sx 2)),
        .instruction (.mvn (sw 0) (.register (sw 2) none)), .instruction (.str (sx 0) (.registerOffset (sx 1) (sx 2)))] =
      [0x9B017C00#32, 0xF100043F#32, 0xD61F03C0#32, 0xD1400442#32, 0xD2A24680#32, 0x9B02FC20#32, 0x2A2203E0#32, 0xF8226820#32] := by
  decide

/-- 30_encoding.md R131, R132, 90_conflicts.md C2, 95_test_vectors.md E7: an unresolved label, `tst` with an immediate, an
immediate of -1 and an offset that is no multiple of 8 each give the zero word, and encoding goes on. -/
theorem test_local_errors :
    assemble
      [.instruction (.b "nowhere"), .instruction (.tst (sx 1) (.immediate 1 none)),
        .instruction (.arithmetic .adds (sw 0) (sw 0) (.immediate (-1) none)), .instruction (.ldr (sx 0) (.offset (sx 1) 4)),
        .instruction (.ldr (sw 0) (.offset (sx 1) 4))] = [0#32, 0#32, 0#32, 0#32, 0xB9400420#32] ∧
    localErrors
      [.instruction (.b "nowhere"), .label "here", .instruction (.b "here"),
        .instruction (.arithmetic .adds (sw 0) (sw 0) (.immediate (-1) none))] = [0, 8] := by decide

/-- 95_test_vectors.md E9: offsets of `b.ne` at 0x10 to 8 and of `ldr` at 4 to 0x24. E7: offset 4 at scale 8 has no word. -/
theorem test_offsets :
    checkWordOffset 19 8 0x10 = some 0x7FFFE#19 ∧ checkWordOffset 19 0x24 4 = some 8#19 ∧
    checkScaledOffset .w64 4 = none ∧ checkScaledOffset .w32 4 = some 1#12 ∧ checkScaledOffset .w64 (-8) = none ∧
    checkArithmeticImmediate 4096 = none ∧ checkArithmeticImmediate (-1) = none ∧ checkWideMoveShift 64 = none ∧
    checkIndexOffset (-257) = none := by decide

/-- 30_encoding.md R131 with the words of G48, G53, A14, G17, A10, G13, G42, G15, G23, G33, G34. -/
theorem test_aliases :
    encode (aliasMul .w64 (xr 0) (xr 1) (xr 2)) = 0x9B027C20#32 ∧ encode (aliasMneg .w64 (xr 0) (xr 1) (xr 2)) = 0x9B02FC20#32 ∧
    encode (aliasCmpImm .w64 (xr 1) false 0#12) = 0xF100003F#32 ∧ encode (aliasCmpReg .w64 (xr 1) (xr 2) .lsl 0#6) = 0xEB02003F#32 ∧
    encode (aliasCmnImm .w64 (xr 1) false 0#12) = 0xB100003F#32 ∧ encode (aliasCmnReg .w64 (xr 1) (xr 2) .lsl 0#6) = 0xAB02003F#32 ∧
    encode (aliasTst .w64 (xr 1) (xr 2) .lsl 0#6) = 0xEA02003F#32 ∧ encode (aliasNegReg .w64 (xr 0) (xr 2) .lsl 0#6) = 0xCB0203E0#32 ∧
    encode (aliasNegsReg .w64 (xr 0) (xr 2) .lsl 0#6) = 0xEB0203E0#32 ∧ encode (aliasNegsImm .w64 .zr false 1#12) = 0xF10007FF#32 ∧
    encode (aliasMvn .w32 (xr 0) (xr 2) .lsl 0#6) = 0x2A2203E0#32 ∧ encode (aliasMov .w64 (xr 0) (xr 2)) = 0xAA0203E0#32 := by decide

/-! ### The hypotheses of the statements are met, at the boundaries of each clause -/

/-- ResetEstablishesSpecState, ImageLiesAtLoadBase, ExecutionBeginsAtFirstWord: images of 0 bytes and of all of memory. -/
theorem wit_image_fits :
    ([] : List Byte).length ≤ Config.memSize ∧ (List.replicate Config.memSize 0x20#8).length ≤ Config.memSize ∧
    4 * (List.replicate 0x80000 0x91001420#32).length ≤ Config.memSize ∧
    4 * ((List.replicate 0x7FFFF 0x91001420#32).length + 1) ≤ Config.memSize := by
  refine ⟨Nat.zero_le _, ?_, ?_, ?_⟩ <;> simp only [List.length_replicate] <;> decide

/-- OversizedImageRefused: one byte too many. -/
theorem wit_image_too_long : Config.memSize < (List.replicate (Config.memSize + 1) 0x20#8).length := by simp

/-- RegisterFileLaws: a general register, and one that differs from it. -/
theorem wit_RegisterFileLaws : xr 30 ≠ Reg.zr ∧ xr 0 ≠ xr 30 ∧ Reg.zr ≠ xr 30 := by decide

/-- MemReadIsLittleEndian and MemWriteIsExact: the last address inside and the first outside, for both widths. -/
theorem wit_memory_bounds :
    (0x1FFFF8#64).toNat + Width.bytes .w64 ≤ Config.memSize ∧ Config.memSize < (0x1FFFF9#64).toNat + Width.bytes .w64 ∧
    (0x1FFFFC#64).toNat + Width.bytes .w32 ≤ Config.memSize ∧ Config.memSize < (0x1FFFFD#64).toNat + Width.bytes .w32 ∧
    (memM1 State.reset).mem.wf = true := by decide

/-- MixedWidthAccesses. -/
theorem wit_MixedWidthAccesses : (memM1 State.reset).mem.wf = true ∧ (0x1FFFF8#64).toNat + 8 ≤ Config.memSize := by decide

/-- StoreIsSeenByNextFetch: the store of vector P6 moved to the next word, at the last word of memory, and across the next
word's start in a pre-indexed form of 64 bits; `byteAfter` is its own definition. -/
theorem wit_StoreIsSeenByNextFetch :
    State.reset.Running ∧ State.reset.mem.wf = true ∧ (Instr.strUnsigned .w32 1#12 .zr (xr 1)).wellFormed = true ∧
    storeTarget (.strUnsigned .w32 1#12 .zr (xr 1)) State.reset = some (State.reset.pc + 4#64, .w32, xr 1) ∧
    (State.reset.pc + 4#64).toNat + Width.bytes .w32 ≤ Config.memSize ∧ (State.reset.pc + 4#64).toNat + 4 ≤ Config.memSize ∧
    storeTarget (.strPost .w32 8#9 (xr 1) (xr 0)) (withRegs [(xr 1, 0x1FFFFC#64)] (State.reset.setPc 0x1FFFF8#64)) =
      some (0x1FFFF8#64 + 4#64, .w32, xr 0) ∧
    (0x1FFFF8#64 + 4#64).toNat + Width.bytes .w32 ≤ Config.memSize ∧
    (Instr.strPre .w64 1#9 (xr 1) (xr 0)).wellFormed = true ∧
    storeTarget (.strPre .w64 1#9 (xr 1) (xr 0)) (withRegs [(xr 1, 1#64)] State.reset) = some (2#64, .w64, xr 0) ∧
    (2#64).toNat + Width.bytes .w64 ≤ Config.memSize ∧
    storeTarget (.strRegister .w64 (xr 2) (xr 1) (xr 0)) State.reset = some (0#64, .w64, xr 0) := by
  refine ⟨⟨rfl, rfl⟩, by decide, by decide, by decide, by decide, by decide, by decide, by decide, by decide, by decide,
    by decide, by decide⟩

/-- DecodeOfEncode: an instruction whose word is not the halt word, and HALT. -/
theorem wit_DecodeOfEncode :
    (Instr.strPre .w64 0x1F0#9 (xr 1) (xr 0)).wellFormed = true ∧ encode (.strPre .w64 0x1F0#9 (xr 1) (xr 0)) ≠ haltWord ∧
    Instr.wellFormed .halt = true ∧ encode .halt = haltWord := by decide

/-- EncodeOfDecode and DecodedWordHasTableFields. -/
theorem wit_EncodeOfDecode :
    decodeWith haltWord 0xF81F0C20#32 = .ok (.strPre .w64 0x1F0#9 (xr 1) (xr 0)) ∧
    (20, 12, 0x1F0) ∈ wordFields (.strPre .w64 0x1F0#9 (xr 1) (xr 0)) := by decide

/-- IllFormedWordsRejected: one term for each check. -/
theorem wit_IllFormedWordsRejected :
    [Instr.movz .w32 2#2 1#16 (xr 1), .orn .w32 .ror (xr 1) 32#6 (xr 2) (xr 3), .subsReg .w64 .ror (xr 1) 0#6 (xr 2) (xr 3),
      .ldrPost .w64 8#9 (xr 1) (xr 1)].all (fun i => !i.wellFormed && decide (encode i ≠ haltWord)) = true := by decide

/-- UnknownClassWords and UndefinedInstructionWords: running states that fetch a word of either kind, and a legal one. -/
theorem wit_rejected_words :
    State.reset.Running ∧ State.reset.fetch = .ok 0#32 ∧ (0#32).toNat / 2 ^ 25 % 16 ∈ [0, 1, 2, 3, 7, 15] ∧
    (atZero 0x52C00020#32).Running ∧ (atZero 0x52C00020#32).fetch = .ok 0x52C00020#32 ∧
    (0x52C00020#32).toNat / 2 ^ 25 % 16 ∉ [0, 1, 2, 3, 7, 15] ∧
    (atZero 0x91001420#32).Running ∧ (atZero 0x91001420#32).fetch = .ok 0x91001420#32 := by
  refine ⟨⟨rfl, rfl⟩, by decide, by decide, ⟨rfl, rfl⟩, by decide, by decide, ⟨rfl, rfl⟩, by decide⟩

/-- HaltTestComesFirst: a word that is not the halt word, and a halt word that is not the default. -/
theorem wit_HaltTestComesFirst : 0x91001420#32 ≠ haltWord ∧ 0x12345678#32 ≠ 0x8A000000#32 := by decide

/-- DecodersAgree: both ends of the range of `nbits`. -/
theorem wit_DecodersAgree : 0 ≤ 32 ∧ 32 ≤ 32 := by decide

/-- StepRunsDecodedInstruction: the last `pc` inside and the first outside, and a word of each of the four kinds. -/
theorem wit_StepRunsDecodedInstruction :
    (State.reset.setPc 0x1FFFFD#64).Running ∧ Config.memSize < (State.reset.setPc 0x1FFFFD#64).pc.toNat + 4 ∧
    (State.reset.setPc 0x1FFFFC#64).Running ∧ (State.reset.setPc 0x1FFFFC#64).pc.toNat + 4 ≤ Config.memSize ∧
    wordOfBytes 0x00#8 0x00#8 0x00#8 0x8A#8 = haltWord ∧
    decodeWith haltWord (wordOfBytes 0x20#8 0x14#8 0x00#8 0x91#8) = .ok (.addImm .w64 false 5#12 (xr 1) (xr 0)) ∧
    decodeWith haltWord (wordOfBytes 0#8 0#8 0#8 0#8) = .error .unknownClass ∧
    decodeWith haltWord (wordOfBytes 0x20#8 0x00#8 0xC0#8 0x52#8) = .error (.undefinedInstruction .halfWord) ∧
    (atZero 0x91001420#32).mem.byte 0 = 0x20#8 ∧ (atZero 0x91001420#32).mem.byte 3 = 0x91#8 := by
  refine ⟨⟨rfl, rfl⟩, by decide, ⟨rfl, rfl⟩, by decide, by decide, by decide, by decide, by decide, by decide, by decide⟩

/-- OnlyTerminalStatesStop: a faulted, a halted and a running state. -/
theorem wit_OnlyTerminalStatesStop :
    (State.reset.raise (.unknownClass 0#32)).fault = some { cause := .unknownClass 0#32, pc := 0#64 } ∧
    State.reset.setHalted.fault = none ∧ State.reset.setHalted.halted = true ∧ State.reset.Running := by
  refine ⟨rfl, rfl, rfl, ⟨rfl, rfl⟩⟩

/-- A state with a program satisfies the invariant. -/
theorem inv_atZero : (atZero 0x91001420#32).Inv haltWord where
  memory := by decide
  haltedOnHaltWord := fun h => nomatch h
  faultSound := fun _ h => nomatch h
  faultRaised := fun _ h => nomatch h

/-- StepKeepsInvariant: a state with the invariant that has a next state. -/
theorem wit_StepKeepsInvariant : (atZero 0x91001420#32).Inv haltWord ∧ isNext (step (atZero 0x91001420#32)) = true :=
  ⟨inv_atZero, by decide⟩

/-- InvariantHoldsAtReset: an image that the host accepts. -/
theorem wit_InvariantHoldsAtReset : isNext (loadImage [0x20#8, 0x14#8, 0x00#8, 0x91#8]) = true := by decide

/-- RaiseChangesOnlyTheFault. -/
theorem wit_RaiseChangesOnlyTheFault :
    State.reset.fault = none ∧ stepWith haltWord State.reset = .next (State.reset.raise (.unknownClass 0#32)) ∧
    (State.reset.raise (.unknownClass 0#32)).fault = some { cause := .unknownClass 0#32, pc := 0#64 } :=
  ⟨rfl, eq_next_of_nextOf (by decide), rfl⟩

/-- HaltedOnlyByHaltWord: a step that halts and one that does not. -/
theorem wit_HaltedOnlyByHaltWord :
    stepWith haltWord (atZero haltWord) = .next (atZero haltWord).setHalted ∧ (atZero haltWord).setHalted.halted = true ∧
    isNext (stepWith haltWord (atZero 0x91001420#32)) = true :=
  ⟨eq_next_of_nextOf (by decide), rfl, by decide⟩

/-- FlagsWrittenOnlyByFlagSetters, FrameOfEveryInstruction, PcAlignmentKept: an instruction that completes. -/
theorem wit_frames :
    setsFlags (.addImm .w64 false 5#12 (xr 1) (xr 0)) = false ∧
    isNext (exec (.addImm .w64 false 5#12 (xr 1) (xr 0)) State.reset) = true ∧
    xr 1 ∉ writtenRegs (.addImm .w64 false 5#12 (xr 1) (xr 0)) ∧
    writesMemory (.addImm .w64 false 5#12 (xr 1) (xr 0)) = false ∧ State.reset.mem.wf = true ∧
    isNext (exec (.strUnsigned .w64 1#12 (xr 1) (xr 0)) State.reset) = true ∧
    writesMemory (.strUnsigned .w64 1#12 (xr 1) (xr 0)) = true ∧
    storeTarget (.strUnsigned .w64 1#12 (xr 1) (xr 0)) State.reset = some (8#64, .w64, xr 0) ∧ 7 < (8#64).toNat ∧
    (8#64).toNat + Width.bytes .w64 ≤ 16 ∧ State.reset.pc.toNat % 4 = 0 := by decide

/-- PcAlignmentKept: ADD is no BR. -/
theorem wit_PcAlignmentKept : ∀ xn, Instr.addImm .w64 false 5#12 (xr 1) (xr 0) ≠ .br xn := by simp

/-- OnlyBCondReadsFlags: ADDS is no B.cond and completes; B.cond completes. -/
theorem wit_OnlyBCondReadsFlags :
    (∀ simm19 cond, Instr.addsImm .w64 false 5#12 (xr 1) (xr 0) ≠ .bCond simm19 cond) ∧
    isNext (exec (.addsImm .w64 false 5#12 (xr 1) (xr 0)) State.reset) = true ∧
    isNext (exec (.bCond 2#19 .lt) State.reset) = true :=
  ⟨by simp, by decide, by decide⟩

/-- PcAdvancesByFour: an instruction that completes without a fault, and LDR (literal) with its address. -/
theorem wit_PcAdvancesByFour :
    setsPc (.addImm .w64 false 5#12 (xr 1) (xr 0)) = false ∧ Instr.addImm .w64 false 5#12 (xr 1) (xr 0) ≠ .halt ∧
    State.reset.fault = none ∧
    (match exec (.addImm .w64 false 5#12 (xr 1) (xr 0)) State.reset with | .next t => t.fault == none | _ => false) = true ∧
    xr 2 ≠ Reg.zr ∧ ((8 : Nat) : Int) = ((State.reset.pc.toNat : Int) + 4 * (2#19).toInt) % 2 ^ 64 ∧
    (match exec (.ldrLiteral .w64 2#19 (xr 2)) State.reset with | .next t => t.fault == none | _ => false) = true := by decide

/-- FetchWordIsRunNext: the last `pc` that is kept. -/
theorem wit_FetchWordIsRunNext :
    State.reset.mem.wf = true ∧ (State.reset.setPc 0x1FFFFC#64).pc.toNat + 4 ≤ Config.memSize := by decide

/-- RunEndIsFinal: a run that ends normally and one that ends in error. -/
theorem wit_RunEndIsFinal :
    runWith haltWord 1 (atZero haltWord) = .normal (atZero haltWord).setHalted ∧
    runWith haltWord 1 State.reset =
      .error (State.reset.raise (.unknownClass 0#32)) { cause := .unknownClass 0#32, pc := 0#64 } := by decide

/-- HaltResult: a running state that fetches the halt word. -/
theorem wit_HaltResult : (atZero haltWord).Running ∧ (atZero haltWord).fetch = .ok haltWord := ⟨⟨rfl, rfl⟩, by decide⟩

/-- AddSubImmediateResult and AddsSubsImmediateResult: the largest immediate, with and without the shift. -/
theorem wit_immediates :
    (0xFFF000 : Nat) = (0xFFF#12).toNat * (if true then 4096 else 1) ∧
    (0xFFF : Nat) = (0xFFF#12).toNat * (if false then 4096 else 1) := by decide

/-- WideMoveResult: the last legal half-word and the first illegal one at 32 bits, the last at 64. -/
theorem wit_WideMoveResult :
    (Width.w64 = .w64 ∨ (3#2).toNat < 2) ∧ (Width.w32 = .w64 ∨ (1#2).toNat < 2) ∧ (Width.w32 = .w32 ∧ 2 ≤ (2#2).toNat) := by
  decide

/-- SubThenAddRestores. -/
theorem wit_SubThenAddRestores : xr 0 ≠ Reg.zr := by decide

/-- ShiftOpMeaning: the largest amounts. -/
theorem wit_ShiftOpMeaning : 31 < Width.bits .w32 ∧ 63 < Width.bits .w64 := by decide

/-- The register forms (AddSubRegisterResult, AddsSubsRegisterResult, LogicalResult, LogicalComplementResult,
AndsBicsResult): the largest legal amount, the first illegal one, a legal shift and ROR, and an operand. -/
theorem wit_shiftedRegisters :
    ((Width.w64 = .w64 ∨ (63#6).toNat < 32) ∧ ShiftType.asr ≠ .ror) ∧ ((Width.w32 = .w64 ∨ (31#6).toNat < 32) ∧ ShiftType.lsl ≠ .ror) ∧
    (Width.w32 = .w32 ∧ 32 ≤ (32#6).toNat) ∧ ShiftType.ror = .ror ∧
    (0xF0000000 : Nat) = (withRegs [(xr 2, 0xF#64)] State.reset).operandNat .w32 (xr 2) .ror 4#6 ∧
    (0x0FFFFFFF : Nat) = complementOf 32 ((withRegs [(xr 2, 0xF#64)] State.reset).operandNat .w32 (xr 2) .ror 4#6) := by decide

/-- AddSubRegisterResult, last clause: the word of G58. -/
theorem wit_extendedRegister :
    0x8B220020#32 ≠ haltWord ∧ field 0x8B220020#32 24 5 = 0b01011#5 ∧ bit 0x8B220020#32 21 = true := by decide

/-- MultiplyResult, last clause: the words of G59 (another `opr`) and G60 (another `opc`). -/
theorem wit_multiplyForm :
    [0x9B220C20#32, 0xBB020C20#32].all (fun w => decide (w ≠ haltWord) && decide (field w 25 3 = 0b101#3) && bit w 28 &&
      !(decide (field w 21 4 = 0b1000#4) && decide (field w 29 2 = 0b00#2))) = true := by decide

/-- BranchResult: a target below 0 (B2), which is outside memory, and one at the last word. -/
theorem wit_BranchResult :
    ((0xFFFFFFFFFFFFFFFC#64).toNat : Int) = ((State.reset.pc.toNat : Int) + 4 * (0x3FFFFFF#26).toInt) % 2 ^ 64 ∧
    Config.memSize < (0xFFFFFFFFFFFFFFFC#64).toNat + 4 ∧
    ((0x1FFFFC#64).toNat : Int) = ((State.reset.pc.toNat : Int) + 4 * (0x7FFFF#26).toInt) % 2 ^ 64 ∧
    State.reset.Running := by
  refine ⟨by decide, by decide, by decide, ⟨rfl, rfl⟩⟩

/-- BranchCondResult: the farthest backward target (B20), and the word of B33. -/
theorem wit_BranchCondResult :
    ((0x0#64).toNat : Int) = (((State.reset.setPc 0x100000#64).pc.toNat : Int) + 4 * (0x40000#19).toInt) % 2 ^ 64 ∧
    0x5400002F#32 ≠ haltWord ∧ field 0x5400002F#32 24 8 = 0b01010100#8 ∧ bit 0x5400002F#32 4 = false ∧
    (field 0x5400002F#32 0 4).toNat ∉ [0, 1, 10, 11, 12, 13, 14] := by decide

/-- ConditionMeaning: the flags of the compare of G18. -/
theorem wit_ConditionMeaning : fl true false false false = (addSub (3#64) 5#64 true).flags := by decide

/-- BranchRegisterResult: number 31, the last target inside memory and the first outside. -/
theorem wit_BranchRegisterResult :
    State.reset.Running ∧ ((withRegs [(xr 3, 0x1FFFFC#64)] State.reset).readReg (xr 3)).toNat + 4 ≤ Config.memSize ∧
    Config.memSize < ((withRegs [(xr 3, 0x1FFFFD#64)] State.reset).readReg (xr 3)).toNat + 4 ∧ Reg.zr = .zr := by
  refine ⟨⟨rfl, rfl⟩, by decide, by decide, rfl⟩

/-- LoadUnsignedResult and StoreUnsignedResult: the last address inside (M7) and the first outside, both widths. -/
theorem wit_unsignedOffset :
    0x1FFFF8#64 = (withRegs [(xr 1, 0x1F8000#64)] State.reset).unsignedAddress .w64 (xr 1) 0xFFF#12 ∧
    (0x1FFFF8#64).toNat + Width.bytes .w64 ≤ Config.memSize ∧
    0x1FFFFD#64 = (withRegs [(xr 1, 0x1FFFFD#64)] State.reset).unsignedAddress .w32 (xr 1) 0#12 ∧
    Config.memSize < (0x1FFFFD#64).toNat + Width.bytes .w32 ∧ State.reset.mem.wf = true := by decide

/-- LoadIndexedResult and StoreIndexedResult: legal register pairs and the illegal one, `old` and `new` inside and
outside (M25, M26). -/
theorem wit_indexed :
    (xr 0 ≠ xr 1 ∨ xr 1 = .zr) ∧ (Reg.zr ≠ .zr ∨ Reg.zr = .zr) ∧ (xr 1 = xr 1 ∧ xr 1 ≠ .zr) ∧
    0x200000#64 = (withRegs [(xr 1, 0x200000#64)] State.reset).readReg (xr 1) ∧
    0x1FFFF8#64 = (withRegs [(xr 1, 0x200000#64)] State.reset).indexedAddress (xr 1) 0x1F8#9 ∧
    (0x1FFFF8#64).toNat + Width.bytes .w64 ≤ Config.memSize ∧ Config.memSize < (0x200000#64).toNat + Width.bytes .w64 ∧
    0x200000#64 = (withRegs [(xr 1, 0x1FFFF8#64)] State.reset).indexedAddress (xr 1) 8#9 ∧ State.reset.mem.wf = true := by decide

/-- RegisterOffsetResult: an address that wraps (M33), and the word of M38. -/
theorem wit_RegisterOffsetResult :
    0x114#64 = (withRegs [(xr 1, 0x200#64), (xr 2, 0xFFFFFFFFFFFFFF14#64)] State.reset).registerAddress (xr 1) (xr 2) ∧
    (0x114#64).toNat + Width.bytes .w64 ≤ Config.memSize ∧ State.reset.mem.wf = true ∧
    0x200000#64 = (withRegs [(xr 1, 0x1FFFF8#64), (xr 2, 8#64)] State.reset).registerAddress (xr 1) (xr 2) ∧
    Config.memSize < (0x200000#64).toNat + Width.bytes .w32 ∧
    0xF8627820#32 ≠ haltWord ∧ bit 0xF8627820#32 31 = true ∧ field 0xF8627820#32 25 5 = 0b11100#5 ∧
    bit 0xF8627820#32 24 = false ∧ bit 0xF8627820#32 23 = false ∧ bit 0xF8627820#32 21 = true ∧
    field 0xF8627820#32 10 6 ≠ 0b011010#6 := by decide

/-- LoadLiteralResult: the last address inside for a word and, eight bytes from there, outside (M45). -/
theorem wit_LoadLiteralResult :
    0x1FFFFC#64 = (State.reset.setPc 0x100000#64).pcRelative 0x3FFFF#19 ∧
    (0x1FFFFC#64).toNat + Width.bytes .w32 ≤ Config.memSize ∧ Config.memSize < (0x1FFFFC#64).toNat + Width.bytes .w64 := by
  decide

/-- AddSubFlagsMeaning: an addition and a subtraction (A7, A16). -/
theorem wit_AddSubFlagsMeaning :
    ({ result := 0x80000000#32, flags := fl true false false true } : AddSubResult 32) = addSub 0x7FFFFFFF#32 1#32 false ∧
    ({ result := 0x7FFFFFFFFFFFFFFF#64, flags := fl false false true true } : AddSubResult 64) =
      addSub 0x8000000000000000#64 1#64 true := by decide

/-- NarrowInstructionsIgnoreUpperHalves: two states that differ in the upper half of a register, and an instruction that
completes. -/
theorem wit_NarrowInstructionsIgnoreUpperHalves :
    (∀ r, (withRegs [(xr 1, 0xFFFFFFFF00000005#64)] State.reset).regNat .w32 r =
      (withRegs [(xr 1, 0x0000000000000005#64)] State.reset).regNat .w32 r) ∧
    (withRegs [(xr 1, 0xFFFFFFFF00000005#64)] State.reset).flags = (withRegs [(xr 1, 0x5#64)] State.reset).flags ∧
    (withRegs [(xr 1, 0xFFFFFFFF00000005#64)] State.reset).fault = none ∧
    (match exec (.addsImm .w32 false 1#12 (xr 1) (xr 0)) (withRegs [(xr 1, 0xFFFFFFFF00000005#64)] State.reset) with
      | .next t => t.fault == none
      | _ => false) = true := by
  refine ⟨?_, by decide, by decide, by decide⟩
  intro r
  cases r with
  | zr => rfl
  | x i => revert i; decide

/-- FastDumpIsTheScan: a memory with listed bytes. -/
theorem wit_FastDumpIsTheScan : (withWord 0x101 0xAABBCCDD#32 State.reset).mem.wf = true := by decide

/-- LabelAddressLaw: an earlier definition of the same name does not count. -/
theorem wit_LabelAddressLaw :
    SourceLine.label "a" ∉ [SourceLine.label "b", .int 0#32] ∧
    labelAddress 0 [.label "a", .int 0#32, .label "a", .label "b", .int 0#32] "a" = some 4 := by decide

/-- EncoderRangeChecks: each range at its ends and one past them, and a branch to a label. -/
theorem wit_EncoderRangeChecks :
    ((0 : Int) ≤ 0 ∧ (4095 : Int) < 4096) ∧ ¬((0 : Int) ≤ -1 ∧ (-1 : Int) < 4096) ∧ ¬((0 : Int) ≤ 4096 ∧ (4096 : Int) < 4096) ∧
    ((48 : Int) % 16 = 0 ∧ (0 : Int) ≤ 48 ∧ (48 : Int) ≤ 48) ∧ ¬((64 : Int) % 16 = 0 ∧ (0 : Int) ≤ 64 ∧ (64 : Int) ≤ 48) ∧
    ¬((8 : Int) % 16 = 0 ∧ (0 : Int) ≤ 8 ∧ (8 : Int) ≤ 48) ∧ ¬((-16 : Int) % 16 = 0 ∧ (0 : Int) ≤ -16 ∧ (-16 : Int) ≤ 48) ∧
    (-2 ^ (19 + 1) ≤ (0 : Int) - 1048576 ∧ (0 : Int) - 1048576 < 2 ^ (19 + 1)) ∧
    ¬(-2 ^ (19 + 1) ≤ (1048576 : Int) - 0 ∧ (1048576 : Int) - 0 < 2 ^ (19 + 1)) ∧
    (-2 ^ (26 + 1) ≤ (134217724 : Int) - 0 ∧ (134217724 : Int) - 0 < 2 ^ (26 + 1)) ∧ ((1048576 : Int) - 0) % 4 = 0 ∧
    ((32760 : Int) % Width.bytes .w64 = 0 ∧ (0 : Int) ≤ 32760 ∧ (32760 : Int) < 4096 * Width.bytes .w64) ∧
    ¬((32768 : Int) % Width.bytes .w64 = 0 ∧ (0 : Int) ≤ 32768 ∧ (32768 : Int) < 4096 * Width.bytes .w64) ∧
    ¬((4 : Int) % Width.bytes .w64 = 0 ∧ (0 : Int) ≤ 4 ∧ (4 : Int) < 4096 * Width.bytes .w64) ∧
    ((-256 : Int) ≤ -256 ∧ (-256 : Int) ≤ 255) ∧ ((-256 : Int) ≤ 255 ∧ (255 : Int) ≤ 255) ∧
    ¬((-256 : Int) ≤ 256 ∧ (256 : Int) ≤ 255) ∧
    labelAddress 0 programP1 "loop" = some 8 ∧ 8 % 4 = 0 ∧ State.reset.pc.toNat % 4 = 0 ∧ 8 < 2 ^ 20 ∧
    State.reset.pc.toNat < 2 ^ 20 ∧ condHolds State.reset.flags .eq = true := by decide

/-- LocalErrorsEmitZeroWord: a line that stands for an instruction, one that stands for none between two others, an
unresolved label, word offsets one past their ranges, a `w` base, two widths, and a value out of each range. -/
theorem wit_LocalErrorsEmitZeroWord :
    LineStandsFor (labelAddress 0 programP1) 16 (.bCond .ne "loop") (.bCond 0x7FFFE#19 .ne) ∧
    (∀ j, ¬LineStandsFor (fun _ => none) (0 + 4 * slotCount [haltLine]) (.tst (sx 1) (.immediate 1 none)) j) ∧
    (fun _ : String => (none : Option Nat)) "nowhere" = none ∧
    (fun _ : String => some 0x8000000) "far" = some 0x8000000 ∧
    ¬(-2 ^ 25 ≤ (((0x8000000 : Nat) : Int) - (0 : Nat)) / 4 ∧ (((0x8000000 : Nat) : Int) - (0 : Nat)) / 4 < 2 ^ 25) ∧
    ¬(-2 ^ 18 ≤ (((0x100000 : Nat) : Int) - (0 : Nat)) / 4 ∧ (((0x100000 : Nat) : Int) - (0 : Nat)) / 4 < 2 ^ 18) ∧
    (sw 1).width = .w32 ∧ (sw 1).width ≠ (sx 0).width ∧ ¬((0 : Int) ≤ -1 ∧ (-1 : Int) < 4096) ∧
    ¬((64 : Int) % 16 = 0 ∧ (0 : Int) ≤ 64 ∧ (64 : Int) ≤ 48) ∧
    ¬((4 : Int) % (sx 0).width.bytes = 0 ∧ (0 : Int) ≤ 4 ∧ (4 : Int) < 4096 * (sx 0).width.bytes) ∧
    ¬((-256 : Int) ≤ 256 ∧ (256 : Int) ≤ 255) ∧ haltWord ≠ 0#32 := by
  refine ⟨⟨8, 0x7FFFE#19, by decide, by unfold WordOffset; decide, rfl⟩, fun _ h => h.2.elim, rfl, rfl, by decide, by decide, by decide,
    by decide, by decide, by decide, by decide, by decide, by decide⟩

end Sys2Proof.Tests
end

section
/-! PROOFS for 10_state.md: who sets `halted` (R35) and who reads the flags (R31). -/

namespace Sys2Proof.Machine

/-! ### The halt word in the decoder (30_encoding.md R83) -/

theorem decodeDpImmediate_ne_halt (w : Word) : decodeDpImmediate w ≠ .ok .halt := by
  simp only [decodeDpImmediate, undef]
  split_ifs <;> simp

theorem decodeDpRegister_ne_halt (w : Word) : decodeDpRegister w ≠ .ok .halt := by
  simp only [decodeDpRegister, undef]
  split_ifs <;> simp

theorem decodeBranch_ne_halt (w : Word) : decodeBranch w ≠ .ok .halt := by
  unfold decodeBranch undef
  cases Cond.ofField (field w 0 4) <;> split_ifs <;> simp

theorem decodeLoadStore_ne_halt (w : Word) : decodeLoadStore w ≠ .ok .halt := by
  simp only [decodeLoadStore, undef]
  split_ifs <;> simp

@[simp] theorem decodeWith_self (halt : Word) : decodeWith halt halt = .ok .halt := if_pos rfl

/-- No format decodes to HALT, so only the halt test gives it. -/
theorem decodeWith_eq_ok_halt {halt w : Word} : decodeWith halt w = .ok .halt ↔ w = halt := by
  refine ⟨fun h => ?_, by rintro rfl; exact decodeWith_self w⟩
  by_contra hne
  rw [decodeWith, if_neg hne] at h
  split at h
  · exact decodeDpImmediate_ne_halt w h
  · exact decodeDpRegister_ne_halt w h
  · exact decodeLoadStore_ne_halt w h
  · exact decodeBranch_ne_halt w h
  · cases h

/-! ### What a step to a next state did -/

/-- All that a step to a next state can be (40_step_and_halt.md R140): the fetch raised, the decoder rejected the word, or
the decoded instruction ran. -/
inductive StepCases (halt : Word) (s t : State) : Prop where
  | fetchRaised (c : Cause) (hf : s.fetch = .error c) (ht : t = s.raise c)
  | rejected (w : Word) (r : Reject) (hf : s.fetch = .ok w) (hd : decodeWith halt w = .error r)
      (ht : t = s.raise (rejectCause w r))
  | ran (w : Word) (i : Instr) (hf : s.fetch = .ok w) (hd : decodeWith halt w = .ok i) (he : exec i s = .next t)

theorem stepCases_of_cycle {halt : Word} {s t : State} (h : cycle halt s = .next t) : StepCases halt s t := by
  unfold cycle at h
  cases hf : s.fetch with
  | error c => rw [hf] at h; cases h; exact .fetchRaised c hf rfl
  | ok w =>
    rw [hf] at h
    rcases execWord_cases halt w s with ⟨i, hd, he⟩ | ⟨r, hd, he⟩
    · exact .ran w i hf hd (he ▸ h)
    · cases he.symm.trans h; exact .rejected w r hf hd rfl

/-- Only a running state steps, and it does so in one of the three ways. -/
theorem stepCases_of_stepWith {halt : Word} {s t : State} (h : stepWith halt s = .next t) :
    s.Running ∧ StepCases halt s t := by
  rcases stepWith_cases halt s with ⟨r, _, he⟩ | ⟨_, _, he⟩ | ⟨hr, he⟩ <;> rw [he] at h
  · cases h
  · cases h
  · exact ⟨hr, stepCases_of_cycle h⟩

/-- HALT is the one instruction that sets `halted` (R35). -/
theorem exec_halted {i : Instr} {s t : State} (h : exec i s = .next t) (hs : s.halted = false) :
    t.halted = true ↔ i = .halt := by
  rcases exec_cases i s with ⟨rfl, he⟩ | ⟨hi, hc⟩
  · cases he.symm.trans h; simp
  · have ht : t.halted = s.halted := by
      cases hc with
      | undefined _ he => cases he.symm.trans h; rfl
      | bound _ _ _ _ _ he => cases he.symm.trans h; rfl
      | done u he hc => cases he.symm.trans h; exact hc.halted
    simp [ht, hs, hi]

/-- A step sets `halted` exactly if it fetched the halt word. -/
theorem StepCases.halted_iff {halt : Word} {s t : State} (h : StepCases halt s t) (hs : s.halted = false) :
    t.halted = true ↔ s.fetch = .ok halt := by
  cases h with
  | fetchRaised c hf ht => simp [ht, hf, hs]
  | rejected w r hf hd ht =>
    have hw : w ≠ halt := by rintro rfl; simp at hd
    simp [ht, hf, hs, hw]
  | ran w i hf hd he =>
    calc t.halted = true ↔ i = .halt := exec_halted he hs
      _ ↔ w = halt := by rw [← decodeWith_eq_ok_halt, hd, Except.ok.injEq]
      _ ↔ s.fetch = .ok halt := by rw [hf, Except.ok.injEq]

/-- A running state that fetches the halt word runs HALT, which sets `halted` and nothing else (40_step_and_halt.md R141). -/
theorem stepWith_of_fetch_halt {halt : Word} {s : State} (hr : s.Running) (hf : s.fetch = .ok halt) :
    stepWith halt s = .next s.setHalted := by
  obtain ⟨hs, hn⟩ := hr
  simp [stepWith, cycle, execWord, hs, hn, hf, exec, execHalt]

/-- A halted state without a fault has no further step (R144). -/
theorem stepWith_of_halted {s : State} (halt : Word) (hn : s.fault = none) (hs : s.halted = true) :
    stepWith halt s = .fault .halted := by
  simp [stepWith, hn, hs]

/-- Settles O24: of the ways a step can go, only the one that runs HALT sets `halted`, and only the halt word decodes to
HALT; that step adds no fault, so the next one stops. -/
theorem haltedOnlyByHaltWord : Obligations.HaltedOnlyByHaltWord := by
  refine ⟨rfl, fun halt s t h => ?_⟩
  obtain ⟨hr, hc⟩ := stepCases_of_stepWith h
  have hiff : t.halted = true ↔ s.fetch = .ok halt := hc.halted_iff hr.1
  refine ⟨hiff, fun ht => ?_⟩
  have hfault : t.fault = none := by
    cases h.symm.trans (stepWith_of_fetch_halt hr (hiff.1 ht))
    exact hr.2
  exact ⟨hfault, stepWith_of_halted halt hfault ht⟩

/-! ### Updates commute with writing the flags -/

theorem State.setFlags_advance (s : State) (f : Flags) : (s.setFlags f).advance = s.advance.setFlags f := rfl

theorem State.setFlags_writeReg (s : State) (f : Flags) (r : Reg) (v : DWord) :
    (s.setFlags f).writeReg r v = (s.writeReg r v).setFlags f := by cases r <;> rfl

theorem State.setFlags_writeRegAt (s : State) (f : Flags) (w : Width) (r : Reg) (v : BitVec w.bits) :
    (s.setFlags f).writeRegAt w r v = (s.writeRegAt w r v).setFlags f := s.setFlags_writeReg f r _

theorem State.setFlags_memRead (s : State) (f : Flags) (addr : DWord) (w : Width) (kind : AccessKind) :
    (s.setFlags f).memRead addr w kind = s.memRead addr w kind := rfl

theorem State.setFlags_memWrite (s : State) (f : Flags) (addr : DWord) (w : Width) (v : BitVec w.bits) :
    (s.setFlags f).memWrite addr w v = (s.memWrite addr w v).map (fun t => t.setFlags f) := by
  unfold State.memWrite
  rw [State.setFlags_mem]
  split <;> rfl

/-! ### Instructions that do not read the flags -/

/-- The outcomes `m` from `s` and `m'` from `s` with flags `f` differ in the flags at most: both keep the flags they
began with, or both reach one same state, whose flags do not come from the old ones. -/
inductive FlagsUnread (s : State) (f : Flags) (m m' : Host.Outcome State Fault Refusal) : Prop where
  | kept (t : State) (hm : m = .next t) (hm' : m' = .next (t.setFlags f)) (hk : t.flags = s.flags)
  | written (t : State) (hm : m = .next t) (hm' : m' = .next t)

section
variable {s : State} {f : Flags}

theorem FlagsUnread.raise (c : Cause) : FlagsUnread s f (.next (s.raise c)) (.next ((s.setFlags f).raise c)) :=
  .kept _ rfl rfl rfl

theorem FlagsUnread.jump (t : DWord) : FlagsUnread s f (.next (s.setPc t)) (.next ((s.setFlags f).setPc t)) :=
  .kept _ rfl rfl rfl

theorem FlagsUnread.legal {i : Instr} {m m'} (h : FlagsUnread s f m m') :
    FlagsUnread s f (ifLegal i s m) (ifLegal i (s.setFlags f) m') := by
  unfold ifLegal
  split
  · exact h
  · exact .raise _

theorem FlagsUnread.write (w : Width) (rd : Reg) (v : BitVec w.bits) :
    FlagsUnread s f (.next (s.writeRegAt w rd v).advance) (.next ((s.setFlags f).writeRegAt w rd v).advance) :=
  .kept _ rfl (by rw [State.setFlags_writeRegAt, State.setFlags_advance]) (by simp)

theorem FlagsUnread.writeFlags (g : Flags) (w : Width) (rd : Reg) (v : BitVec w.bits) :
    FlagsUnread s f (.next ((s.setFlags g).writeRegAt w rd v).advance)
      (.next (((s.setFlags f).setFlags g).writeRegAt w rd v).advance) :=
  .written _ rfl rfl

/-- A load whose write-back neither reads nor writes the flags. -/
theorem FlagsUnread.load (w : Width) (addr : DWord) (rt : Reg) (back : State → State)
    (hb : ∀ u g, back (u.setFlags g) = (back u).setFlags g) (hk : ∀ u, (back u).flags = u.flags) :
    FlagsUnread s f (loadThen w addr rt back s) (loadThen w addr rt back (s.setFlags f)) := by
  unfold loadThen
  rw [State.setFlags_memRead]
  cases s.memRead addr w .load with
  | ok v =>
    exact .kept _ rfl (by simp only [hb, State.setFlags_writeRegAt, State.setFlags_advance]) (by simp [hk])
  | error c => exact .raise c

/-- A store whose write-back neither reads nor writes the flags. -/
theorem FlagsUnread.store (w : Width) (addr : DWord) (rt : Reg) (back : State → State)
    (hb : ∀ u g, back (u.setFlags g) = (back u).setFlags g) (hk : ∀ u, (back u).flags = u.flags) :
    FlagsUnread s f (storeThen w addr rt back s) (storeThen w addr rt back (s.setFlags f)) := by
  unfold storeThen
  rw [State.setFlags_readRegAt, State.setFlags_memWrite]
  rcases s.memWrite_eq addr w (s.readRegAt w rt) with ⟨_, he⟩ | ⟨_, he⟩ <;> rw [he]
  · exact .kept _ rfl (by simp only [Except.map, hb, State.setFlags_advance]) (by simp [hk])
  · exact .raise _

/-- No instruction but B.cond reads the flags (R31). -/
theorem exec_flagsUnread (i : Instr) (hi : ∀ simm19 cond, i ≠ .bCond simm19 cond) :
    FlagsUnread s f (exec i s) (exec i (s.setFlags f)) := by
  cases i with
  | halt => exact .kept _ rfl rfl rfl
  | addImm | subImm => exact .write ..
  | addsImm | subsImm => exact .writeFlags ..
  | movn | movz | movk | addReg | subReg | and | bic | orr | orn | eor | eon => exact .legal (.write ..)
  | addsReg | subsReg | ands | bics => exact .legal (.writeFlags ..)
  | madd | msub => exact .write ..
  | b | br => exact .jump _
  | bCond simm19 cond => exact absurd rfl (hi simm19 cond)
  | strUnsigned | strRegister => exact .store _ _ _ id (fun _ _ => rfl) (fun _ => rfl)
  | ldrUnsigned | ldrRegister | ldrLiteral => exact .load _ _ _ id (fun _ _ => rfl) (fun _ => rfl)
  | strPost | strPre =>
    exact .legal (.store _ _ _ _ (fun u g => u.setFlags_writeReg g _ _) (fun u => u.writeReg_flags _ _))
  | ldrPost | ldrPre =>
    exact .legal (.load _ _ _ _ (fun u g => u.setFlags_writeReg g _ _) (fun u => u.writeReg_flags _ _))

end

/-! ### B.cond -/

/-- No condition looks at C (43_branch.md R222). -/
theorem condHolds_carry (f : Flags) (c : Bool) (cond : Cond) : condHolds { f with c := c } cond = condHolds f cond := by
  cases cond <;> rfl

/-- B.cond with another C takes the same branch and keeps the C it was given. -/
theorem exec_bCond_setCarry (simm19 : BitVec 19) (cond : Cond) {s t : State} (c : Bool)
    (h : exec (.bCond simm19 cond) s = .next t) :
    exec (.bCond simm19 cond) (s.setFlags { s.flags with c := c }) = .next (t.setFlags { t.flags with c := c }) := by
  simp only [exec, execBCond] at h ⊢
  rw [State.setFlags_flags, condHolds_carry]
  cases h
  split <;> rfl

/-- Settles O26: every other instruction by `exec_flagsUnread`, B.cond because no condition looks at C. -/
theorem onlyBCondReadsFlags : Obligations.OnlyBCondReadsFlags := by
  refine ⟨fun i s t f hi h => ?_, fun simm19 cond s t c h => exec_bCond_setCarry simm19 cond c h⟩
  cases exec_flagsUnread (f := f) i hi with
  | kept u hm hm' hk =>
    cases hm.symm.trans h
    exact ⟨t.setFlags f, hm', rfl, .inr ⟨hk, rfl⟩⟩
  | written u hm hm' =>
    cases hm.symm.trans h
    exact ⟨t, hm', rfl, .inl rfl⟩

end Sys2Proof.Machine
end

section
/-! PROOFS for 20_memory.md: what one read (R54) and one write (R55) do, inside memory and outside. -/

namespace Sys2Proof.Machine

/-! ### The two accesses, inside memory and outside -/

section
variable (s : State) {addr : DWord} {w : Width}

theorem State.memRead_of_le (kind : AccessKind) (h : addr.toNat + w.bytes ≤ Config.memSize) :
    s.memRead addr w kind = .ok (s.mem.readBytes addr.toNat w.bits w.bytes) :=
  if_pos ((inBounds_iff addr w.bytes).2 h)

theorem State.memRead_of_lt (kind : AccessKind) (h : Config.memSize < addr.toNat + w.bytes) :
    s.memRead addr w kind = .error (.memoryBoundViolation addr w.bytes kind) :=
  if_neg (mt (inBounds_iff addr w.bytes).1 (Nat.not_le.2 h))

theorem State.memWrite_of_le (v : BitVec w.bits) (h : addr.toNat + w.bytes ≤ Config.memSize) :
    s.memWrite addr w v = .ok (s.setMem (s.mem.writeBytes addr.toNat v w.bytes)) :=
  if_pos ((inBounds_iff addr w.bytes).2 h)

theorem State.memWrite_of_lt (v : BitVec w.bits) (h : Config.memSize < addr.toNat + w.bytes) :
    s.memWrite addr w v = .error (.memoryBoundViolation addr w.bytes .store) :=
  if_neg (mt (inBounds_iff addr w.bytes).1 (Nat.not_le.2 h))

end

/-! ### The bytes of a run just written -/

/-- Byte `j` of the run written is byte `j` of the value. -/
theorem Memory.byte_writeBytes_inside {m : Memory} (h : m.wf = true) (a : Nat) {k : Nat} (v : BitVec k) {n : Nat}
    (hb : a + n ≤ Config.memSize) {j : Nat} (hj : j < n) :
    (m.writeBytes a v n).byte (a + j) = v.extractLsb' (8 * j) 8 := by
  rw [Memory.byte_writeBytes h a v n hb, if_pos (by omega), Nat.add_sub_cancel_left]

/-- Bytes outside the run written are as before. -/
theorem Memory.byte_writeBytes_outside {m : Memory} (h : m.wf = true) {a : Nat} {k : Nat} (v : BitVec k) {n : Nat}
    (hb : a + n ≤ Config.memSize) {b : Nat} (ho : b < a ∨ a + n ≤ b) :
    (m.writeBytes a v n).byte b = m.byte b := by
  rw [Memory.byte_writeBytes h a v n hb, if_neg (by omega)]

/-! ### The two rules -/

/-- Settles O6: the bound check picks the case; inside, byte `k` of the value read is byte `addr + k` of memory. -/
theorem memReadIsLittleEndian : Obligations.MemReadIsLittleEndian := by
  refine ⟨fun s addr w kind => ⟨fun hin => ?_, s.memRead_of_lt kind⟩, fun s => rfl⟩
  exact ⟨_, s.memRead_of_le kind hin, fun k hk =>
    Memory.extractLsb'_readBytes s.mem addr.toNat w.bits w.bytes k hk (width_bits_eq w).ge⟩

/-- Settles O7: the bound check picks the case; inside, the run of bytes written keeps the canonical form, holds the
value's bytes, and leaves every byte outside it. -/
theorem memWriteIsExact : Obligations.MemWriteIsExact := by
  intro s addr w v hwf
  refine ⟨fun hin => ?_, s.memWrite_of_lt v⟩
  refine ⟨_, s.memWrite_of_le v hin, ?canonical, rfl, ?written, ?kept⟩
  case canonical => exact Memory.wf_writeBytes hwf addr.toNat v w.bytes hin
  case written => exact fun k hk => Memory.byte_writeBytes_inside hwf addr.toNat v hin hk
  case kept => exact fun a ha => Memory.byte_writeBytes_outside hwf v hin ha

end Sys2Proof.Machine
end

section
/-! PROOFS for 30_encoding.md: the word that decodes to AND (R93) and the halt test before the class field (R83). -/

namespace Sys2Proof

/-! ### A word of the logical format -/

/-- `place_field_or_place_field` with the upper field's position as a number of its own. -/
theorem place_or_place_adjacent (w : Word) {hi lo a : Nat} (b : Nat) (h : hi = lo + a) :
    place hi (field w hi b) ||| place lo (field w lo a) = place lo (field w lo (a + b)) := by
  subst h
  exact place_field_or_place_field w lo a b

theorem ofBool_bit (w : Word) (i : Nat) : BitVec.ofBool (bit w i) = field w i 1 := by
  apply BitVec.eq_of_getLsbD_eq
  intro j hj
  obtain rfl : j = 0 := by omega
  rw [getLsbD_field]
  simp

/-- A word whose bits 28:24 are those of the logical format is that format's word for its own fields (R93). -/
theorem logicalRegisterWord_fields_self {w : Word} (h : field w 24 5 = 0b01010#5) :
    logicalRegisterWord (field w 29 2) (field w 21 1) (Width.ofBit (bit w 31)) (ShiftType.ofField (field w 22 2))
      (Reg.ofField (field w 16 5)) (field w 10 6) (Reg.ofField (field w 5 5)) (Reg.ofField (field w 0 5)) = w := by
  simp only [logicalRegisterWord, Width.toField_ofBit, ShiftType.toField_ofField, Reg.toField_ofField, ofBool_bit, ← h]
  simp (disch := omega) only [place_or_place_adjacent]
  exact place_field_whole w

/-! ### The word that decodes to AND -/

/-- The class field `x101` bit by bit (R82). -/
theorem classOf_eq_dpRegister {w : Word} :
    classOf w = some .dpRegister ↔ bit w 27 = true ∧ bit w 26 = false ∧ bit w 25 = true := by
  rw [classOf_eq]
  cases bit w 28 <;> cases bit w 27 <;> cases bit w 26 <;> cases bit w 25 <;> simp

section
variable {sf : Width} {shift : ShiftType} {rm rn rd : Reg} {imm6 : BitVec 6}

theorem decodeDpImmediate_ne_and (w : Word) : decodeDpImmediate w ≠ .ok (.and sf shift rm imm6 rn rd) := by
  simp only [decodeDpImmediate, undef]
  split_ifs <;> simp

theorem decodeBranch_ne_and (w : Word) : decodeBranch w ≠ .ok (.and sf shift rm imm6 rn rd) := by
  unfold decodeBranch undef
  cases Cond.ofField (field w 0 4) <;> split_ifs <;> simp

theorem decodeLoadStore_ne_and (w : Word) : decodeLoadStore w ≠ .ok (.and sf shift rm imm6 rn rd) := by
  simp only [decodeLoadStore, undef]
  split_ifs <;> simp

/-- The register class gives AND only in the logical format with `opc` = `00` and N = 0, with the word's own fields. -/
theorem decodeDpRegister_eq_and {w : Word} (h : decodeDpRegister w = .ok (.and sf shift rm imm6 rn rd)) :
    (bit w 28 = false ∧ bit w 24 = false ∧ bit w 21 = false ∧ field w 29 2 = 0b00#2) ∧
    Instr.and sf shift rm imm6 rn rd =
      .and (Width.ofBit (bit w 31)) (ShiftType.ofField (field w 22 2)) (Reg.ofField (field w 16 5)) (field w 10 6)
        (Reg.ofField (field w 5 5)) (Reg.ofField (field w 0 5)) := by
  simp only [decodeDpRegister, undef] at h
  split_ifs at h <;> cases h
  next h28 _ h24 h21 hopc => exact ⟨⟨h28, Bool.eq_false_iff.2 h24, h21, hopc⟩, rfl⟩

/-- Only the encoder's word decodes to an AND. -/
theorem encodeWith_of_decodeWith_and {halt w : Word} (h : decodeWith halt w = .ok (.and sf shift rm imm6 rn rd)) :
    w ≠ halt ∧ encodeWith halt (.and sf shift rm imm6 rn rd) = w := by
  have hne : w ≠ halt := by rintro rfl; simp [decodeWith] at h
  refine ⟨hne, ?_⟩
  rw [decodeWith, if_neg hne] at h
  split at h
  next => exact absurd h (decodeDpImmediate_ne_and w)
  next hclass =>
    obtain ⟨h27, h26, h25⟩ := classOf_eq_dpRegister.1 hclass
    obtain ⟨⟨h28, h24, h21, hopc⟩, hfields⟩ := decodeDpRegister_eq_and h
    have hformat : field w 24 5 = 0b01010#5 := by
      apply BitVec.eq_of_getLsbD_eq
      intro i hi
      rw [getLsbD_field]
      interval_cases i <;> simp [h24, h25, h26, h27, h28]
    have hN : field w 21 1 = 0b0#1 := by rw [← ofBool_bit, h21]; rfl
    rw [hfields, encodeWith, ← hopc, ← hN]
    exact logicalRegisterWord_fields_self hformat
  next => exact absurd h (decodeLoadStore_ne_and w)
  next => exact absurd h (decodeBranch_ne_and w)
  next => cases h

end

/-! ### The halt test comes first -/

/-- Where 0x8A000000 is not the halt word it is the AND of its fields. -/
theorem decodeWith_defaultHaltWord {halt : Word} (h : halt ≠ 0x8A000000#32) :
    decodeWith halt 0x8A000000#32 = .ok (.and .w64 .lsl (.x 0) 0#6 (.x 0) (.x 0)) := by
  rw [decodeWith, if_neg h.symm]
  decide

/-- Settles O16: the only word that could decode to `and x0, x0, x0` is that instruction's own, which with the default is the
halt word. -/
theorem haltTestComesFirst : Obligations.HaltTestComesFirst := by
  refine ⟨Machine.decodeWith_self, fun _ _ h => if_neg h, Machine.decodeWith_self haltWord, fun w h => ?_,
    fun _ => decodeWith_defaultHaltWord⟩
  obtain ⟨hne, hw⟩ := encodeWith_of_decodeWith_and h
  have hword : encodeWith haltWord (.and .w64 .lsl (.x 0) 0#6 (.x 0) (.x 0)) = haltWord := by decide
  exact hne (hw.symm.trans hword)

end Sys2Proof

namespace Sys2Proof.Machine

/-! ### Label addresses (R129) -/

/-- A name that the second part of a program defines has the address found there, whatever the first part defines. -/
theorem labelAddress_append {after : List SourceLine} {name : String} {r : Nat} (before : List SourceLine) (a : Nat)
    (h : labelAddress (a + 4 * slotCount before) after name = some r) :
    labelAddress a (before ++ after) name = some r := by
  induction before generalizing a with
  | nil => exact h
  | cons l ls ih =>
    have hslot : a + 4 * (slotCount ls + 1) = a + 4 + 4 * slotCount ls := by omega
    cases l with
    | label n => simp only [List.cons_append, labelAddress, ih a h]
    | instruction i => exact ih (a + 4) (hslot ▸ h)
    | int w => exact ih (a + 4) (hslot ▸ h)

/-- A label that no later line defines again has the address where it stands. -/
theorem labelAddress_label_self {after : List SourceLine} {name : String} (h : .label name ∉ after) (a : Nat) :
    labelAddress a (.label name :: after) name = some a := by
  simp [labelAddress, labelAddress_eq_none h a]

/-- Settles O58: the label's own line gives its address, and no line before it changes that. -/
theorem labelAddressLaw : Obligations.LabelAddressLaw := by
  intro before after name h
  apply labelAddress_append
  rw [Nat.zero_add]
  exact labelAddress_label_self h _

end Sys2Proof.Machine
end

section
/-! PROOFS for 40_step_and_halt.md: what a completed instruction does to `pc` (R142), and HALT (R141). -/

namespace Sys2Proof.Machine

/-! ### Instructions that complete -/

/-- An instruction other than HALT that leaves no fault has completed: of the ways it can go, the others raise. -/
theorem completed_of_exec {i : Instr} {s t : State} (hi : i ≠ .halt) (h : exec i s = .next t) (hn : t.fault = none) :
    Completed i s t := by
  rcases exec_cases i s with ⟨hhalt, _⟩ | ⟨_, hc⟩
  · exact absurd hhalt hi
  · cases hc with
    | undefined _ he => cases he.symm.trans h; simp at hn
    | bound _ _ _ _ _ he => cases he.symm.trans h; simp at hn
    | done u he hu => cases he.symm.trans h; exact hu

/-- A load that leaves no fault leaves in its target the bytes at its address, whatever base it writes back. -/
theorem loadedValue_of_loadThen {w : Width} {addr : DWord} {rt : Reg} {back : State → State} {s t : State}
    (hrt : rt ≠ .zr) (h : loadThen w addr rt back s = .next t) (hn : t.fault = none) :
    LoadedValue s addr.toNat w.bytes (t.readReg rt) := by
  rcases loadThen_cases w addr rt back s with ⟨_, he⟩ | ⟨_, he⟩ <;> cases he.symm.trans h
  · simpa [State.readReg_writeRegAt, hrt] using loadedValue_readBytes s addr.toNat w
  · simp at hn

/-! ### Addresses relative to `pc` -/

/-- An address relative to `pc` is the integer `pc` plus four times the signed offset, modulo 2^64 (20_memory.md R67). -/
theorem State.toNat_pcRelative (s : State) {n : Nat} (v : BitVec n) :
    ((s.pcRelative v).toNat : Int) = ((s.pc.toNat : Int) + 4 * v.toInt) % 2 ^ 64 := by
  have hsum : s.pcRelative v = BitVec.ofInt 64 ((s.pc.toNat : Int) + 4 * v.toInt) := by
    rw [BitVec.ofInt_add, BitVec.ofInt_mul, BitVec.ofInt_natCast, BitVec.ofNat_toNat, BitVec.setWidth_eq]
    rfl
  rw [hsum, BitVec.toNat_ofInt]
  omega

/-- Settles O27: an instruction that is no branch can only complete with `pc + 4`; the address of LDR (literal) is
relative to the `pc` before. -/
theorem pcAdvancesByFour : Obligations.PcAdvancesByFour := by
  refine ⟨fun i s t hp hi _ h hn => ?advance, fun w simm19 rt s t addr hrt _ ha h hn => ?literal⟩
  case advance =>
    have hpc : t.pc = s.pc + 4#64 := (completed_of_exec hi h hn).pc hp
    rw [hpc, BitVec.toNat_add]
    rfl
  case literal =>
    have haddr : addr = (s.pcRelative simm19).toNat := by exact_mod_cast ha.trans (s.toNat_pcRelative simm19).symm
    rw [haddr]
    exact loadedValue_of_loadThen hrt h hn

/-! ### HALT -/

/-- Settles O32: only the halt test decodes to HALT, and a running state that fetches that word runs it. -/
theorem haltResult : Obligations.HaltResult :=
  ⟨fun _ => rfl, fun _ _ => decodeWith_eq_ok_halt, fun _ _ hr hf => stepWith_of_fetch_halt hr hf, rfl⟩

end Sys2Proof.Machine
end

section
/-! PROOFS for 41_dp_immediate.md: ADD and SUB (R160, R162), and the wide moves (R164 to R166). -/

namespace Sys2Proof.Machine

/-! ### How an instruction that writes one register ends -/

/-- An instruction that only writes `v` at its width and advances writes the number `v` zero-extended, and keeps memory. -/
theorem completes_of_write {i : Instr} {s : State} {w : Width} {rd : Reg} {v : BitVec w.bits} {x : Nat}
    (hi : exec i s = .next (s.writeRegAt w rd v).advance) (hv : v.toNat = x) :
    ∃ t, exec i s = .next t ∧ Effect s t [(rd, BitVec.ofNat 64 x)] (s.pc + 4#64) s.flags ∧ MemoryKept s t := by
  refine ⟨_, hi, ?_, fun a => by simp⟩
  rw [← hv, BitVec.ofNat_toNat]
  exact Effect.write s w rd v

/-- A checked instruction that passes its check runs its meaning. -/
theorem exec_of_ifLegal {i : Instr} {s : State} {m : Host.Outcome State Fault Refusal}
    (hi : exec i s = ifLegal i s m) (h : i.wellFormed = true) : exec i s = m :=
  hi.trans (if_pos h)

/-- A checked instruction that fails its check takes `UndefinedInstruction`, whatever its meaning would be. -/
theorem takesUndefined_of_ifLegal {i : Instr} {s : State} {m : Host.Outcome State Fault Refusal}
    (hi : exec i s = ifLegal i s m) (h : i.wellFormed = false) : TakesUndefined i s :=
  hi.trans (if_neg (by simp [h]))

/-! ### The arithmetic core as numbers (10_state.md R33) -/

theorem toNat_addSub_false {n : Nat} (a b : BitVec n) : (addSub a b false).result.toNat = (a.toNat + b.toNat) % 2 ^ n :=
  BitVec.toNat_add a b

theorem toNat_addSub_true {n : Nat} (a b : BitVec n) :
    (addSub a b true).result.toNat = (a.toNat + (2 ^ n - b.toNat)) % 2 ^ n := by
  rw [Nat.add_comm]
  exact BitVec.toNat_sub a b

/-! ### ADD and SUB (immediate) -/

/-- The shifted immediate fits either width, so it is the number of R159. -/
theorem toNat_arithmeticImmediate (w : Width) (sh : Bool) (imm12 : BitVec 12) :
    (arithmeticImmediate w sh imm12).toNat = imm12.toNat * (if sh then 4096 else 1) := by
  have himm : imm12.toNat < 2 ^ 12 := imm12.isLt
  have hw : 2 ^ 24 < 2 ^ w.bits := by cases w <;> decide
  rw [arithmeticImmediate, BitVec.toNat_shiftLeft, BitVec.toNat_setWidth, Nat.shiftLeft_eq,
    Nat.mod_eq_of_lt (by omega : imm12.toNat < 2 ^ w.bits)]
  cases sh with
  | false => exact Nat.mod_eq_of_lt (by simp; omega)
  | true => exact Nat.mod_eq_of_lt (by simp; omega)

/-- Settles O33: the written value is the sum or difference of the two operands, each as a number. -/
theorem addSubImmediateResult : Obligations.AddSubImmediateResult := by
  rintro w sh imm12 rn rd s imm rfl
  refine ⟨⟨Laws.TableFields.addImm w sh imm12 rn rd, completes_of_write rfl ?add⟩,
    ⟨Laws.TableFields.subImm w sh imm12 rn rd, completes_of_write rfl ?sub⟩, rfl⟩
  case add => rw [toNat_addSub_false, s.toNat_readRegAt, toNat_arithmeticImmediate, State.regNat]
  case sub => rw [toNat_addSub_true, s.toNat_readRegAt, toNat_arithmeticImmediate, State.regNat]

/-! ### Half-words -/

theorem halfWordLegal_iff {w : Width} {hw : BitVec 2} : halfWordLegal w hw = true ↔ w = .w64 ∨ hw.toNat < 2 := by
  simp [halfWordLegal]

theorem halfWordLegal_eq_false {w : Width} {hw : BitVec 2} (h : w = .w32 ∧ 2 ≤ hw.toNat) : halfWordLegal w hw = false := by
  obtain ⟨rfl, hhw⟩ := h
  rw [Bool.eq_false_iff, ne_eq, halfWordLegal_iff]
  rintro (h | h)
  · cases h
  · omega

/-- A legal half-word ends inside the operating width. -/
theorem halfWord_end_le {w : Width} {hw : BitVec 2} (h : w = .w64 ∨ hw.toNat < 2) : 16 * hw.toNat + 16 ≤ w.bits := by
  have hhw : hw.toNat < 4 := hw.isLt
  cases w with
  | w32 =>
    have : hw.toNat < 2 := by simpa using h
    show 16 * hw.toNat + 16 ≤ 32
    omega
  | w64 =>
    show 16 * hw.toNat + 16 ≤ 64
    omega

/-- In a legal half-word no bit of the immediate is lost. -/
theorem toNat_wideImmediate {w : Width} {hw : BitVec 2} (imm16 : BitVec 16) (h : w = .w64 ∨ hw.toNat < 2) :
    ((wideImmediate hw imm16).setWidth w.bits).toNat = imm16.toNat * 2 ^ (16 * hw.toNat) := by
  have hfits : imm16.toNat * 2 ^ (16 * hw.toNat) < 2 ^ w.bits :=
    calc imm16.toNat * 2 ^ (16 * hw.toNat)
        < 2 ^ 16 * 2 ^ (16 * hw.toNat) := Nat.mul_lt_mul_of_pos_right imm16.isLt (by positivity)
      _ = 2 ^ (16 * hw.toNat + 16) := by rw [← Nat.pow_add, Nat.add_comm]
      _ ≤ 2 ^ w.bits := Nat.pow_le_pow_right (by omega) (halfWord_end_le h)
  have hfits64 : imm16.toNat * 2 ^ (16 * hw.toNat) < 2 ^ 64 :=
    hfits.trans_le (Nat.pow_le_pow_right (by omega) (width_bits_le w))
  have himm : imm16.toNat < 2 ^ 64 := imm16.isLt.trans (by decide)
  rw [wideImmediate, BitVec.toNat_setWidth, BitVec.toNat_shiftLeft, BitVec.toNat_setWidth, Nat.mod_eq_of_lt himm,
    Nat.shiftLeft_eq, Nat.mod_eq_of_lt hfits64, Nat.mod_eq_of_lt hfits]

theorem getLsbD_wideImmediate (hw : BitVec 2) (imm16 : BitVec 16) {i : Nat} (hi : i < 64) :
    (wideImmediate hw imm16).getLsbD i = (decide (16 * hw.toNat ≤ i) && imm16.getLsbD (i - 16 * hw.toNat)) := by
  simp [wideImmediate, hi, ← decide_not]

/-- The mask is the half-word of ones. -/
theorem getLsbD_wideMask (w : Width) (hw : BitVec 2) {i : Nat} (hi : i < w.bits) :
    (wideMask w hw).getLsbD i = decide (16 * hw.toNat ≤ i ∧ i < 16 * hw.toNat + 16) := by
  have hones : 0xFFFF#64 = (BitVec.allOnes 16).setWidth 64 := by decide
  have hi64 : i < 64 := hi.trans_le (width_bits_le w)
  calc (wideMask w hw).getLsbD i
      = (wideImmediate hw (BitVec.allOnes 16)).getLsbD i := by
        rw [wideMask, hones, BitVec.getLsbD_setWidth, decide_eq_true hi, Bool.true_and, wideImmediate]
    _ = (decide (16 * hw.toNat ≤ i) && decide (i - 16 * hw.toNat < 16)) := by
        rw [getLsbD_wideImmediate _ _ hi64, BitVec.getLsbD_allOnes]
    _ = decide (16 * hw.toNat ≤ i ∧ i < 16 * hw.toNat + 16) := by
        rw [← Bool.decide_and]; exact decide_eq_decide.2 (by omega)

/-- What MOVK writes, bit by bit: the immediate in the half-word, the register's view elsewhere, nothing above the width. -/
theorem getLsbD_movk {w : Width} {hw : BitVec 2} (imm16 : BitVec 16) (rd : Reg) (s : State)
    (h : w = .w64 ∨ hw.toNat < 2) {i : Nat} (hi : i < 64) :
    (((s.readRegAt w rd &&& ~~~wideMask w hw) ||| (wideImmediate hw imm16).setWidth w.bits).setWidth 64).getLsbD i =
      if 16 * hw.toNat ≤ i ∧ i < 16 * hw.toNat + 16 then imm16.getLsbD (i - 16 * hw.toNat)
      else (decide (i < w.bits) && (s.readReg rd).getLsbD i) := by
  have hend := halfWord_end_le h
  by_cases hiw : i < w.bits
  · simp only [BitVec.getLsbD_setWidth, BitVec.getLsbD_or, BitVec.getLsbD_and, BitVec.getLsbD_not, State.readRegAt,
      getLsbD_wideMask w hw hiw, getLsbD_wideImmediate hw imm16 hi, hi, hiw, decide_true, Bool.true_and]
    split
    case isTrue hslot => simp [hslot]
    case isFalse hslot =>
      have himm : (decide (16 * hw.toNat ≤ i) && imm16.getLsbD (i - 16 * hw.toNat)) = false := by
        by_cases hlo : 16 * hw.toNat ≤ i
        · rw [BitVec.getLsbD_of_ge imm16 _ (by omega), Bool.and_false]
        · simp [hlo]
      simp [hslot, himm]
  · have hslot : ¬(16 * hw.toNat ≤ i ∧ i < 16 * hw.toNat + 16) := by omega
    simp [hiw, hslot]

/-! ### MOVN, MOVZ, MOVK -/

/-- Settles O35: a legal half-word passes the check and the written value is read as a number (MOVN, MOVZ) or bit by bit
(MOVK); an illegal one fails it in all three. -/
theorem wideMoveResult : Obligations.WideMoveResult := by
  intro w hw imm16 rd s
  refine ⟨⟨Laws.TableFields.movn w hw imm16 rd, Laws.TableFields.movz w hw imm16 rd,
    Laws.TableFields.movk w hw imm16 rd⟩, fun h => ?legal, fun h => ?illegal⟩
  case legal =>
    have hl : halfWordLegal w hw = true := halfWordLegal_iff.2 h
    refine ⟨completes_of_write (exec_of_ifLegal rfl hl) ?movn,
      completes_of_write (exec_of_ifLegal rfl hl) (toNat_wideImmediate imm16 h),
      _, _, exec_of_ifLegal rfl hl, fun i hi => getLsbD_movk imm16 rd s h hi, Effect.write s w rd _, fun a => by simp⟩
    case movn => rw [BitVec.toNat_not, toNat_wideImmediate imm16 h, complementOf]
  case illegal =>
    have hl : halfWordLegal w hw = false := halfWordLegal_eq_false h
    exact ⟨takesUndefined_of_ifLegal rfl hl, takesUndefined_of_ifLegal rfl hl, takesUndefined_of_ifLegal rfl hl⟩

end Sys2Proof.Machine
end

section
/-! PROOFS for 42_dp_register.md: the shifted second operand (R180, R182), ADD and SUB (R183, R185), the logical operations
(R187 to R192), and the multiplies (R195, R196). -/

namespace Sys2Proof.Machine

/-! ### Operands as numbers -/

/-- `reg(i, W)` is the number the statements call it. -/
theorem State.toNat_readRegAt_eq_regNat (s : State) (w : Width) (r : Reg) : (s.readRegAt w r).toNat = s.regNat w r :=
  s.toNat_readRegAt w r

theorem signedOf_toNat {n : Nat} (h : 0 < n) (v : BitVec n) : signedOf n v.toNat = v.toInt := by
  have hhalf : 2 ^ n = 2 * 2 ^ (n - 1) := (mul_pow_sub_one h.ne' 2).symm
  have hsign : v.toNat < 2 ^ (n - 1) ↔ 2 * v.toNat < 2 ^ n := by omega
  simp only [signedOf, hsign, BitVec.toInt_eq_toNat_cond, Nat.cast_pow, Nat.cast_ofNat]

/-- The two parts of a rotation do not meet: the low bits go above the bits that stay. -/
theorem toNat_ror {n amount : Nat} (v : BitVec n) (h : amount ≤ n) :
    ((v >>> amount) ||| (v <<< (n - amount))).toNat =
      v.toNat / 2 ^ amount + v.toNat % 2 ^ amount * 2 ^ (n - amount) := by
  have hsplit : 2 ^ n = 2 ^ amount * 2 ^ (n - amount) := by rw [← Nat.pow_add, Nat.add_sub_cancel' h]
  have hlow : v.toNat / 2 ^ amount < 2 ^ (n - amount) := Nat.div_lt_of_lt_mul (hsplit ▸ v.isLt)
  have hhigh : v.toNat * 2 ^ (n - amount) % 2 ^ n = 2 ^ (n - amount) * (v.toNat % 2 ^ amount) := by
    rw [hsplit, Nat.mul_mod_mul_right, Nat.mul_comm]
  rw [BitVec.toNat_or, BitVec.toNat_ushiftRight, BitVec.toNat_shiftLeft, Nat.shiftRight_eq_div_pow, Nat.shiftLeft_eq, hhigh,
    Nat.or_comm, ← Nat.two_pow_add_eq_or_of_lt hlow]
  ring

/-- The shift primitive computes the formulas of R182. -/
theorem toNat_shiftOp {n amount : Nat} (v : BitVec n) (shift : ShiftType) (h : amount < n) :
    (shiftOp v shift amount).toNat = shiftOf n shift v.toNat amount := by
  cases shift with
  | lsl => exact (BitVec.toNat_shiftLeft).trans (by rw [Nat.shiftLeft_eq, shiftOf])
  | lsr => exact (BitVec.toNat_ushiftRight v amount).trans (Nat.shiftRight_eq_div_pow _ _)
  | asr =>
    rw [shiftOp, shiftOf, signedOf_toNat (by omega), BitVec.sshiftRight, BitVec.toNat_ofInt, Int.shiftRight_eq_div_pow]
    norm_cast
  | ror => exact toNat_ror v h.le

theorem shiftAmountLegal_iff {w : Width} {imm6 : BitVec 6} :
    shiftAmountLegal w imm6 = true ↔ w = .w64 ∨ imm6.toNat < 32 := by
  simp [shiftAmountLegal]

theorem shiftAmountLegal_eq_false {w : Width} {imm6 : BitVec 6} (h : w = .w32 ∧ 32 ≤ imm6.toNat) :
    shiftAmountLegal w imm6 = false := by
  obtain ⟨rfl, himm⟩ := h
  simp [shiftAmountLegal, himm]

/-- A legal amount is below the operating width. -/
theorem shiftAmount_lt {w : Width} {imm6 : BitVec 6} (h : w = .w64 ∨ imm6.toNat < 32) : imm6.toNat < w.bits := by
  cases w with
  | w32 => simpa using h
  | w64 => exact imm6.isLt

/-- The second operand is the number of R180. -/
theorem State.toNat_shiftedReg (s : State) {w : Width} (rm : Reg) (shift : ShiftType) {imm6 : BitVec 6}
    (h : w = .w64 ∨ imm6.toNat < 32) : (s.shiftedReg w rm shift imm6).toNat = s.operandNat w rm shift imm6 := by
  rw [State.shiftedReg, toNat_shiftOp _ _ (shiftAmount_lt h), State.toNat_readRegAt_eq_regNat, State.operandNat]

/-- The complement is taken after the shift, at the operating width (R188, R190, R192). -/
theorem State.toNat_not_shiftedReg (s : State) {w : Width} (rm : Reg) (shift : ShiftType) {imm6 : BitVec 6}
    (h : w = .w64 ∨ imm6.toNat < 32) :
    (~~~s.shiftedReg w rm shift imm6).toNat = complementOf w.bits (s.operandNat w rm shift imm6) := by
  rw [BitVec.toNat_not, s.toNat_shiftedReg rm shift h, complementOf]

/-! ### Words of the register class -/

theorem bit_of_field_eq {w : Word} {lo n : Nat} {f : BitVec n} (h : field w lo n = f) {i : Nat} (hi : i < n) :
    bit w (lo + i) = f.getLsbD i := by
  rw [← h, getLsbD_field, decide_eq_true hi, Bool.true_and]

/-- A part of a known field. -/
theorem field_of_field_eq {w : Word} {lo n : Nat} {f : BitVec n} (h : field w lo n = f) {i k : Nat} (hk : i + k ≤ n) :
    field w (lo + i) k = f.extractLsb' i k := by
  apply BitVec.eq_of_getLsbD_eq
  intro j hj
  rw [getLsbD_field, BitVec.getLsbD_extractLsb', Nat.add_assoc, bit_of_field_eq h (by omega)]

/-- A word of the class field `x101` that is not the halt word goes to the register class (R82, R83). -/
theorem decodeWith_dpRegister {halt w : Word} (hne : w ≠ halt) (h : field w 25 3 = 0b101#3) :
    decodeWith halt w = decodeDpRegister w := by
  have hclass : classOf w = some .dpRegister :=
    classOf_eq_dpRegister.2 ⟨bit_of_field_eq h (i := 2) (by decide), bit_of_field_eq h (i := 1) (by decide),
      bit_of_field_eq h (i := 0) (by decide)⟩
  simp only [decodeWith, if_neg hne, hclass]

/-- Arithmetic with bit 21 = 1 is undefined, whatever its shift amount (R91). -/
theorem decodeDpRegister_extendedRegister {w : Word} (h28 : bit w 28 = false) (h24 : bit w 24 = true)
    (h21 : bit w 21 = true) : ∃ why, decodeDpRegister w = .error (.undefinedInstruction why) := by
  simp only [decodeDpRegister, undef, h28, h24, h21, if_true]
  split_ifs
  · exact ⟨_, rfl⟩
  · exact ⟨_, rfl⟩

/-- With the mode bit set, the multiply format is the only one (R91). -/
theorem decodeDpRegister_multiplyForm {w : Word} (h28 : bit w 28 = true)
    (h : ¬(field w 21 4 = 0b1000#4 ∧ field w 29 2 = 0b00#2)) :
    decodeDpRegister w = .error (.undefinedInstruction .multiplyForm) := by
  simp only [decodeDpRegister, undef, h28, h, if_false, Bool.true_eq_false]

/-! ### ADD and SUB (shifted register) -/

theorem arithmeticOperandLegal {w : Width} {shift : ShiftType} {imm6 : BitVec 6}
    (hamount : w = .w64 ∨ imm6.toNat < 32) (hshift : shift ≠ .ror) :
    (shiftAmountLegal w imm6 && arithmeticShiftLegal shift) = true := by
  rw [shiftAmountLegal_iff.2 hamount, Bool.true_and]
  exact bne_iff_ne.2 hshift

theorem arithmeticOperandLegal_eq_false {w : Width} {shift : ShiftType} {imm6 : BitVec 6}
    (h : (w = .w32 ∧ 32 ≤ imm6.toNat) ∨ shift = .ror) :
    (shiftAmountLegal w imm6 && arithmeticShiftLegal shift) = false := by
  rcases h with hamount | rfl
  · rw [shiftAmountLegal_eq_false hamount, Bool.false_and]
  · exact Bool.and_false _

/-- Settles O38: a legal shift passes the check and the written value is read as a number; an illegal one fails it, and the
decoder refuses bit 21 before it names an instruction. -/
theorem addSubRegisterResult : Obligations.AddSubRegisterResult := by
  refine ⟨?instructions, fun _ _ _ _ _ => rfl, fun halt word hne h h21 => ?extended⟩
  case instructions =>
    rintro w shift rm imm6 rn rd s _ rfl
    refine ⟨⟨Laws.TableFields.addReg w shift rm imm6 rn rd, Laws.TableFields.subReg w shift rm imm6 rn rd⟩,
      fun ⟨hamount, hshift⟩ => ?legal, fun h => ?illegal⟩
    case legal =>
      have hl := arithmeticOperandLegal hamount hshift
      have hop := s.toNat_shiftedReg rm shift hamount
      refine ⟨completes_of_write (exec_of_ifLegal rfl hl) ?add, completes_of_write (exec_of_ifLegal rfl hl) ?sub⟩
      case add => rw [toNat_addSub_false, s.toNat_readRegAt_eq_regNat, hop]
      case sub => rw [toNat_addSub_true, s.toNat_readRegAt_eq_regNat, hop]
    case illegal =>
      have hl := arithmeticOperandLegal_eq_false h
      exact ⟨takesUndefined_of_ifLegal rfl hl, takesUndefined_of_ifLegal rfl hl⟩
  case extended =>
    have hclass : field word 25 3 = 0b101#3 := field_of_field_eq h (i := 1) (by decide)
    rw [decodeWith_dpRegister hne hclass]
    exact decodeDpRegister_extendedRegister (bit_of_field_eq h (i := 4) (by decide))
      (bit_of_field_eq h (i := 0) (by decide)) h21

/-! ### Logical operations -/

/-- Settles O40: a legal amount passes the check and each operation is the bitwise operation on numbers; an illegal one
fails it. -/
theorem logicalResult : Obligations.LogicalResult := by
  refine ⟨?instructions, by decide, fun _ _ _ => rfl⟩
  rintro w shift rm imm6 rn rd s _ rfl
  refine ⟨⟨Laws.TableFields.and w shift rm imm6 rn rd, Laws.TableFields.orr w shift rm imm6 rn rd,
    Laws.TableFields.eor w shift rm imm6 rn rd⟩, fun h => ?legal, fun h => ?illegal⟩
  case legal =>
    have hl : shiftAmountLegal w imm6 = true := shiftAmountLegal_iff.2 h
    have hop := s.toNat_shiftedReg rm shift h
    refine ⟨completes_of_write (exec_of_ifLegal rfl hl) ?and, completes_of_write (exec_of_ifLegal rfl hl) ?orr,
      completes_of_write (exec_of_ifLegal rfl hl) ?eor⟩
    case and => rw [BitVec.toNat_and, s.toNat_readRegAt_eq_regNat, hop]
    case orr => rw [BitVec.toNat_or, s.toNat_readRegAt_eq_regNat, hop]
    case eor => rw [BitVec.toNat_xor, s.toNat_readRegAt_eq_regNat, hop]
  case illegal =>
    have hl : shiftAmountLegal w imm6 = false := shiftAmountLegal_eq_false h
    exact ⟨takesUndefined_of_ifLegal rfl hl, takesUndefined_of_ifLegal rfl hl, takesUndefined_of_ifLegal rfl hl⟩

/-- Settles O41: as O40, with the complement of the shifted operand. -/
theorem logicalComplementResult : Obligations.LogicalComplementResult := by
  refine ⟨?instructions, fun _ _ _ _ _ => rfl⟩
  rintro w shift rm imm6 rn rd s _ rfl
  refine ⟨⟨Laws.TableFields.bic w shift rm imm6 rn rd, Laws.TableFields.orn w shift rm imm6 rn rd,
    Laws.TableFields.eon w shift rm imm6 rn rd⟩, fun h => ?legal, fun h => ?illegal⟩
  case legal =>
    have hl : shiftAmountLegal w imm6 = true := shiftAmountLegal_iff.2 h
    have hop := s.toNat_not_shiftedReg rm shift h
    refine ⟨completes_of_write (exec_of_ifLegal rfl hl) ?bic, completes_of_write (exec_of_ifLegal rfl hl) ?orn,
      completes_of_write (exec_of_ifLegal rfl hl) ?eon⟩
    case bic => rw [BitVec.toNat_and, s.toNat_readRegAt_eq_regNat, hop]
    case orn => rw [BitVec.toNat_or, s.toNat_readRegAt_eq_regNat, hop]
    case eon => rw [BitVec.toNat_xor, s.toNat_readRegAt_eq_regNat, hop]
  case illegal =>
    have hl : shiftAmountLegal w imm6 = false := shiftAmountLegal_eq_false h
    exact ⟨takesUndefined_of_ifLegal rfl hl, takesUndefined_of_ifLegal rfl hl, takesUndefined_of_ifLegal rfl hl⟩

/-! ### MADD and MSUB -/

theorem toNat_mulAdd {n : Nat} (a x y : BitVec n) : (a + x * y).toNat = (a.toNat + x.toNat * y.toNat) % 2 ^ n := by
  rw [BitVec.toNat_add, BitVec.toNat_mul, Nat.add_mod_mod]

/-- The low bits of the exact difference, which may be negative. -/
theorem toNat_mulSub {n : Nat} (a x y : BitVec n) :
    ((a - x * y).toNat : Int) = ((a.toNat : Int) - x.toNat * y.toNat) % 2 ^ n := by
  have hdiff : a - x * y = BitVec.ofInt n ((a.toNat : Int) - x.toNat * y.toNat) := by
    rw [Int.sub_eq_add_neg, BitVec.ofInt_add, BitVec.ofInt_neg, BitVec.ofInt_mul, ← BitVec.sub_eq_add_neg]
    simp only [BitVec.ofInt_natCast, BitVec.ofNat_toNat, BitVec.setWidth_eq]
  rw [hdiff, BitVec.toNat_ofInt, Nat.cast_pow, Nat.cast_ofNat, Int.toNat_of_nonneg (Int.emod_nonneg _ (by positivity))]

/-- Settles O43: the written value is the low part of the exact sum or difference; a word with the mode bit set that is no
multiply is rejected by the register class. -/
theorem multiplyResult : Obligations.MultiplyResult := by
  refine ⟨fun w rm ra rn rd s => ⟨⟨Laws.TableFields.madd w rm ra rn rd, completes_of_write rfl ?madd⟩,
    ⟨Laws.TableFields.msub w rm ra rn rd, _, _, rfl, ?msub, Effect.write s w rd _, fun a => by simp⟩, rfl, rfl⟩,
    fun halt word hne hclass h28 hform => ?undefined⟩
  case madd => simp only [toNat_mulAdd, State.toNat_readRegAt_eq_regNat]
  case msub =>
    rw [BitVec.toNat_setWidth_of_le (width_bits_le w), toNat_mulSub]
    simp only [State.toNat_readRegAt_eq_regNat]
  case undefined =>
    rw [decodeWith_dpRegister hne hclass]
    exact ⟨_, decodeDpRegister_multiplyForm h28 hform⟩

end Sys2Proof.Machine
end

section
/-! PROOFS for 43_branch.md: B (R220) and BR (R223), and the fetch at their targets. -/

namespace Sys2Proof.Machine

/-! ### The cycle of a running state, by where `pc` lies (40_step_and_halt.md R140) -/

/-- A branch to `target` neither halts nor faults. -/
theorem State.Running.setPc {s : State} (hr : s.Running) (target : DWord) : (s.setPc target).Running := hr

theorem stepWith_of_running {s : State} (halt : Word) (hr : s.Running) : stepWith halt s = cycle halt s := by
  obtain ⟨hs, hn⟩ := hr
  simp [stepWith, hs, hn]

theorem stepWith_of_pc_outside {s : State} (halt : Word) (hr : s.Running) (h : Config.memSize < s.pc.toNat + 4) :
    stepWith halt s = .next (s.raise (.memoryBoundViolation s.pc 4 .fetch)) := by
  have hf : s.fetch = .error (.memoryBoundViolation s.pc 4 .fetch) := s.memRead_of_lt (w := .w32) .fetch h
  rw [stepWith_of_running halt hr, cycle, hf]

theorem stepWith_of_pc_inside {s : State} (halt : Word) (hr : s.Running) (h : s.pc.toNat + 4 ≤ Config.memSize) :
    stepWith halt s = execWord halt (wordOfBytes (s.mem.byte s.pc.toNat) (s.mem.byte (s.pc.toNat + 1))
      (s.mem.byte (s.pc.toNat + 2)) (s.mem.byte (s.pc.toNat + 3))) s := by
  rw [stepWith_of_running halt hr, cycle, fetch_eq_wordOfBytes h]

/-! ### B -/

/-- The target of B, given as a number, is the address the model computes. -/
theorem State.pcRelative_of_toNat {s : State} {n : Nat} {v : BitVec n} {target : DWord}
    (h : (target.toNat : Int) = ((s.pc.toNat : Int) + 4 * v.toInt) % 2 ^ 64) : s.pcRelative v = target :=
  BitVec.eq_of_toNat_eq (by exact_mod_cast (s.toNat_pcRelative v).trans h.symm)

/-- Settles O44: B only sets `pc`, and the state it leaves fetches at the target. -/
theorem branchResult : Obligations.BranchResult := by
  intro halt simm26 s target htarget
  have hexec : exec (.b simm26) s = .next (s.setPc target) := by
    rw [exec, execB, State.pcRelative_of_toNat htarget]
  exact ⟨Laws.TableFields.b simm26, _, hexec, Effect.jump s target, fun _ => rfl,
    fun hr hout => stepWith_of_pc_outside halt (hr.setPc target) hout⟩

/-! ### BR -/

/-- Settles O47: BR only sets `pc`, to the register as it stands; the fetch at the target checks the bound and nothing
else. -/
theorem branchRegisterResult : Obligations.BranchRegisterResult := by
  intro halt xn s
  refine ⟨Laws.TableFields.br xn, _, rfl, Effect.jump s (s.readReg xn), fun _ => rfl, ?zero, fun hr hout => ?outside,
    fun hr hin => ?inside⟩
  case zero => rintro rfl; rfl
  case outside => exact stepWith_of_pc_outside halt (hr.setPc (s.readReg xn)) hout
  case inside => exact stepWith_of_pc_inside halt (hr.setPc (s.readReg xn)) hin

end Sys2Proof.Machine
end

section
/-! PROOFS for 44_load_store.md: the addresses (R251), and what each load and store does inside memory and outside (R241 to
R246, R248 to R250). -/

namespace Sys2Proof.Machine

/-! ### Frames, one update at a time -/

section
variable {s u : State} {writes : List (Reg × DWord)} {pc : DWord} {flags : Flags}

theorem Effect.refl (s : State) : Effect s s [] s.pc s.flags where
  written := by simp
  others := fun _ _ => rfl
  zero := rfl
  pc := rfl
  flags := rfl
  halted := rfl
  fault := rfl

/-- One more register written; none written before it may be the same, or its value would be lost. -/
theorem Effect.writeReg (h : Effect s u writes pc flags) {r : Reg} (v : DWord)
    (hd : ∀ p ∈ writes, p.1 ≠ .zr → p.1 ≠ r) : Effect s (u.writeReg r v) (writes ++ [(r, v)]) pc flags where
  written := by
    intro p hp hz
    rcases List.mem_append.1 hp with hp | hp
    · rw [u.readReg_writeReg_ne v (hd p hp hz), h.written p hp hz]
    · obtain rfl := List.mem_singleton.1 hp
      rw [State.readReg_writeReg, if_neg hz, if_pos rfl]
  others := by
    intro q hq
    rw [u.readReg_writeReg_ne v (hq (r, v) (by simp))]
    exact h.others q fun p hp => hq p (List.mem_append_left _ hp)
  zero := rfl
  pc := (u.writeReg_pc r v).trans h.pc
  flags := (u.writeReg_flags r v).trans h.flags
  halted := (u.writeReg_halted r v).trans h.halted
  fault := (u.writeReg_fault r v).trans h.fault

theorem Effect.advance (h : Effect s u writes pc flags) : Effect s u.advance writes (pc + 4#64) flags where
  written := by simpa using h.written
  others := by simpa using h.others
  zero := rfl
  pc := congrArg (· + 4#64) h.pc
  flags := h.flags
  halted := h.halted
  fault := h.fault

/-- A frame says nothing of memory, so it may begin at a state with another one. -/
theorem Effect.of_setMem {m : Memory} (h : Effect (s.setMem m) u writes pc flags) : Effect s u writes pc flags where
  written := h.written
  others := by simpa using h.others
  zero := h.zero
  pc := h.pc
  flags := h.flags
  halted := h.halted
  fault := h.fault

end

/-! ### Write-back -/

/-- The write-back `back` of an addressing form writes exactly the listed registers. -/
structure WritesBack (back : State → State) (writes : List (Reg × DWord)) : Prop where
  mem : ∀ u, (back u).mem = u.mem
  effect : ∀ u, Effect u (back u) writes u.pc u.flags

theorem WritesBack.none : WritesBack id [] := ⟨fun _ => rfl, Effect.refl⟩

theorem WritesBack.base (xn : Reg) (new : DWord) : WritesBack (fun u => u.writeReg xn new) [(xn, new)] :=
  ⟨fun u => u.writeReg_mem xn new, fun u => (Effect.refl u).writeReg new (by simp)⟩

/-- A legal pair of base and transfer register (R247) is not one register written twice. -/
theorem writeBackLegal_iff {xn rt : Reg} : writeBackLegal xn rt = true ↔ rt ≠ xn ∨ xn = .zr := by
  simp [writeBackLegal]

theorem writeBackLegal_eq_false {xn rt : Reg} (h : rt = xn ∧ xn ≠ .zr) : writeBackLegal xn rt = false := by
  obtain ⟨rfl, hz⟩ := h
  simp [writeBackLegal, hz]

theorem base_ne_target {xn rt : Reg} (new : DWord) (h : rt ≠ xn ∨ xn = .zr) :
    ∀ p ∈ [(xn, new)], p.1 ≠ .zr → p.1 ≠ rt := by
  intro p hp hz
  obtain rfl := List.mem_singleton.1 hp
  exact (h.resolve_right hz).symm

/-! ### Loads and stores, inside memory and outside -/

section
variable {i : Instr} {s : State} {w : Width} {addr : DWord} {rt : Reg} {back : State → State}
  {writes : List (Reg × DWord)}

/-- A load wholly inside memory writes its base, then the bytes at its address to its target, and nothing else. -/
theorem completes_of_load (hb : WritesBack back writes) (hd : ∀ p ∈ writes, p.1 ≠ .zr → p.1 ≠ rt)
    (hi : exec i s = loadThen w addr rt back s) (hin : addr.toNat + w.bytes ≤ Config.memSize) :
    ∃ t v, exec i s = .next t ∧ LoadedValue s addr.toNat w.bytes v ∧
      Effect s t (writes ++ [(rt, v)]) (s.pc + 4#64) s.flags ∧ MemoryKept s t := by
  refine ⟨_, _, ?runs, loadedValue_readBytes s addr.toNat w, ((hb.effect s).writeReg _ hd).advance, fun a => ?kept⟩
  case runs =>
    rw [hi, loadThen, s.memRead_of_le .load hin]
    rfl
  case kept => rw [State.advance_mem, State.writeReg_mem, hb.mem]

/-- A load that leaves memory raises, and nothing of it happens. -/
theorem takesBoundViolation_of_load (hi : exec i s = loadThen w addr rt back s)
    (hout : Config.memSize < addr.toNat + w.bytes) : TakesBoundViolation i s addr w.bytes .load := by
  rw [TakesBoundViolation, hi, loadThen, s.memRead_of_lt .load hout]
  rfl

/-- A store wholly inside a canonical memory writes the low bytes of its register there, then its base, and nothing else. -/
theorem completes_of_store (hb : WritesBack back writes) (hi : exec i s = storeThen w addr rt back s)
    (hwf : s.mem.wf = true) (hin : addr.toNat + w.bytes ≤ Config.memSize) :
    ∃ t, exec i s = .next t ∧ MemoryStored s t addr.toNat w.bytes (s.readReg rt) ∧
      Effect s t writes (s.pc + 4#64) s.flags := by
  have hruns : exec i s =
      .next (back (s.setMem (s.mem.writeBytes addr.toNat (s.readRegAt w rt) w.bytes))).advance := by
    rw [hi, storeThen, s.memWrite_of_le (s.readRegAt w rt) hin]
  refine ⟨_, hruns, memoryStored_writeBytes hwf hin ?stored, (hb.effect _).of_setMem.advance⟩
  case stored => rw [State.advance_mem, hb.mem, State.setMem_mem]

/-- A store that leaves memory raises, and nothing of it happens. -/
theorem takesBoundViolation_of_store (hi : exec i s = storeThen w addr rt back s)
    (hout : Config.memSize < addr.toNat + w.bytes) : TakesBoundViolation i s addr w.bytes .store := by
  rw [TakesBoundViolation, hi, storeThen, s.memWrite_of_lt (s.readRegAt w rt) hout]
  rfl

end

/-! ### Unsigned offset -/

/-- The address of the unsigned-offset form: the scaled offset loses no bit, the sum wraps (R241, R242). -/
theorem State.toNat_unsignedAddress (s : State) (w : Width) (xn : Reg) (imm12 : BitVec 12) :
    (s.unsignedAddress w xn imm12).toNat = ((s.readReg xn).toNat + imm12.toNat * w.bytes) % 2 ^ 64 := by
  have hoffset : scaledOffset w imm12 = BitVec.ofNat 64 (imm12.toNat * w.bytes) := by
    rw [BitVec.ofNat_mul, BitVec.ofNat_toNat]
    rfl
  rw [State.unsignedAddress, hoffset, BitVec.toNat_add, BitVec.toNat_ofNat, Nat.add_mod_mod]

/-- Settles O48: the bound check picks the case; no base is written. -/
theorem loadUnsignedResult : Obligations.LoadUnsignedResult := by
  rintro w imm12 xn rt s _ rfl
  exact ⟨Laws.TableFields.ldrUnsigned w imm12 xn rt, s.toNat_unsignedAddress w xn imm12,
    completes_of_load .none (by simp) rfl, takesBoundViolation_of_load rfl⟩

/-- Settles O49: the bound check picks the case; no register is written. -/
theorem storeUnsignedResult : Obligations.StoreUnsignedResult := by
  rintro w imm12 xn rt s _ rfl
  exact ⟨Laws.TableFields.strUnsigned w imm12 xn rt, s.toNat_unsignedAddress w xn imm12,
    completes_of_store .none rfl, takesBoundViolation_of_store rfl⟩

/-! ### Pre- and post-indexed -/

/-- The base plus the signed offset, modulo 2^64 (R243 to R246). -/
theorem State.toNat_indexedAddress (s : State) (xn : Reg) (simm9 : BitVec 9) :
    ((s.indexedAddress xn simm9).toNat : Int) = (((s.readReg xn).toNat : Int) + simm9.toInt) % 2 ^ 64 := by
  have hsum : s.indexedAddress xn simm9 = BitVec.ofInt 64 (((s.readReg xn).toNat : Int) + simm9.toInt) := by
    rw [BitVec.ofInt_add, BitVec.ofInt_natCast, BitVec.ofNat_toNat, BitVec.setWidth_eq]
    rfl
  rw [hsum, BitVec.toNat_ofInt]
  omega

/-- Settles O50: a legal pair passes the check, and each form accesses memory at its own address and writes the same new
base; an illegal pair fails the check in both. -/
theorem loadIndexedResult : Obligations.LoadIndexedResult := by
  rintro w simm9 xn rt s _ _ rfl rfl
  refine ⟨⟨Laws.TableFields.ldrPre w simm9 xn rt, Laws.TableFields.ldrPost w simm9 xn rt⟩,
    s.toNat_indexedAddress xn simm9, fun h => ?legal, fun h => ?illegal⟩
  case legal =>
    have hl : writeBackLegal xn rt = true := writeBackLegal_iff.2 h
    have hback := WritesBack.base xn (s.indexedAddress xn simm9)
    have hd := base_ne_target (s.indexedAddress xn simm9) h
    exact ⟨completes_of_load hback hd (exec_of_ifLegal rfl hl), takesBoundViolation_of_load (exec_of_ifLegal rfl hl),
      completes_of_load hback hd (exec_of_ifLegal rfl hl), takesBoundViolation_of_load (exec_of_ifLegal rfl hl)⟩
  case illegal =>
    have hl : writeBackLegal xn rt = false := writeBackLegal_eq_false h
    exact ⟨takesUndefined_of_ifLegal rfl hl, takesUndefined_of_ifLegal rfl hl⟩

/-- Settles O51: as O50, with the store's bytes at each form's own address. -/
theorem storeIndexedResult : Obligations.StoreIndexedResult := by
  rintro w simm9 xn rt s _ _ rfl rfl
  refine ⟨⟨Laws.TableFields.strPre w simm9 xn rt, Laws.TableFields.strPost w simm9 xn rt⟩,
    s.toNat_indexedAddress xn simm9, fun h => ?legal, fun h => ?illegal⟩
  case legal =>
    have hl : writeBackLegal xn rt = true := writeBackLegal_iff.2 h
    have hback := WritesBack.base xn (s.indexedAddress xn simm9)
    exact ⟨completes_of_store hback (exec_of_ifLegal rfl hl), takesBoundViolation_of_store (exec_of_ifLegal rfl hl),
      completes_of_store hback (exec_of_ifLegal rfl hl), takesBoundViolation_of_store (exec_of_ifLegal rfl hl)⟩
  case illegal =>
    have hl : writeBackLegal xn rt = false := writeBackLegal_eq_false h
    exact ⟨takesUndefined_of_ifLegal rfl hl, takesUndefined_of_ifLegal rfl hl⟩

/-! ### Register offset -/

theorem classOf_eq_loadStore {w : Word} : classOf w = some .loadStore ↔ bit w 27 = true ∧ bit w 25 = false := by
  rw [classOf_eq]
  cases bit w 28 <;> cases bit w 27 <;> cases bit w 26 <;> cases bit w 25 <;> simp

/-- A word of the class field `x1x0` that is not the halt word goes to the load/store class (R82, R83). -/
theorem decodeWith_loadStore {halt w : Word} (hne : w ≠ halt) (h27 : bit w 27 = true) (h25 : bit w 25 = false) :
    decodeWith halt w = decodeLoadStore w := by
  simp only [decodeWith, if_neg hne, classOf_eq_loadStore.2 ⟨h27, h25⟩]

/-- With bit 21 = 1 the register-offset form is the only one, and it fixes bits 15:10 (30_encoding.md R102, R104). -/
theorem decodeLoadStore_registerOffset {w : Word} (h31 : bit w 31 = true) (h : field w 25 5 = 0b11100#5)
    (h24 : bit w 24 = false) (h23 : bit w 23 = false) (h21 : bit w 21 = true) (hopt : field w 10 6 ≠ 0b011010#6) :
    decodeLoadStore w = .error (.undefinedInstruction .loadStoreForm) := by
  simp [decodeLoadStore, undef, h31, h, h24, h23, h21, hopt]

/-- Settles O52: the bound check picks the case and no base is written; a word with other bits 15:10 has no form. -/
theorem registerOffsetResult : Obligations.RegisterOffsetResult := by
  refine ⟨?instructions, fun halt word hne h31 h h24 h23 h21 hopt => ?undefined⟩
  case instructions =>
    rintro w xm xn rt s _ rfl
    exact ⟨⟨Laws.TableFields.ldrRegister w xm xn rt, Laws.TableFields.strRegister w xm xn rt⟩,
      BitVec.toNat_add (s.readReg xn) (s.readReg xm), completes_of_load .none (by simp) rfl, completes_of_store .none rfl,
      fun hout => ⟨takesBoundViolation_of_load rfl hout, takesBoundViolation_of_store rfl hout⟩⟩
  case undefined =>
    rw [decodeWith_loadStore hne (bit_of_field_eq h (i := 2) (by decide)) (bit_of_field_eq h (i := 0) (by decide))]
    exact ⟨_, decodeLoadStore_registerOffset h31 h h24 h23 h21 hopt⟩

/-! ### Literal -/

/-- Settles O53: a load without write-back at an address relative to the instruction's own `pc`. -/
theorem loadLiteralResult : Obligations.LoadLiteralResult := by
  rintro w simm19 rt s _ rfl
  exact ⟨Laws.TableFields.ldrLiteral w simm19 rt, s.toNat_pcRelative simm19, completes_of_load .none (by simp) rfl,
    takesBoundViolation_of_load rfl⟩

end Sys2Proof.Machine
end

section
/-! PROOFS for 60_exceptions.md: which words raise `UnknownClass` (R271), and what taking an exception changes (R273). -/

namespace Sys2Proof.Machine

/-! ### Steps that raise -/

/-- An instruction that adds a fault does only that, and never as `UnknownClass`: its legality check and its access are all
that can raise (60_exceptions.md R276). -/
theorem raise_of_exec {i : Instr} {s t : State} {r : FaultRecord} (h : exec i s = .next t) (hn : s.fault = none)
    (ht : t.fault = some r) : t = s.raise r.cause ∧ ∀ w, r.cause ≠ .unknownClass w := by
  rcases exec_cases i s with ⟨_, he⟩ | ⟨_, hc⟩
  · cases he.symm.trans h; simp [hn] at ht
  · cases hc with
    | undefined _ he => cases he.symm.trans h; cases ht; exact ⟨rfl, by simp⟩
    | bound _ _ _ _ _ he => cases he.symm.trans h; cases ht; exact ⟨rfl, by simp⟩
    | done u he hu => cases he.symm.trans h; simp [hu.fault, hn] at ht

/-- However a step comes to its fault, it takes it by `raise`. -/
theorem StepCases.eq_raise {halt : Word} {s t : State} {r : FaultRecord} (h : StepCases halt s t) (hn : s.fault = none)
    (ht : t.fault = some r) : t = s.raise r.cause := by
  cases h with
  | fetchRaised c _ hraise => subst hraise; cases ht; rfl
  | rejected w why _ _ hraise => subst hraise; cases ht; rfl
  | ran w i _ _ he => exact (raise_of_exec he hn ht).1

/-- A faulted state has no further step (40_step_and_halt.md R144). -/
theorem stepWith_of_faulted {s : State} {r : FaultRecord} (halt : Word) (h : s.fault = some r) :
    stepWith halt s = .fault (.faulted r) := by
  simp [stepWith, h]

/-- Settles O23: a step that leaves a fault has raised it, and `raise` writes the record and nothing else. -/
theorem raiseChangesOnlyTheFault : Obligations.RaiseChangesOnlyTheFault := by
  intro halt s t r hn h ht
  obtain ⟨_, hc⟩ := stepCases_of_stepWith h
  have hraise : t = s.raise r.cause := hc.eq_raise hn ht
  have hr : { cause := r.cause, pc := s.pc } = r := by simpa [hraise] using ht
  exact ⟨by rw [hraise, State.raise, hr], by rw [← hr], stepWith_of_faulted halt ht⟩

/-! ### Words without a class (30_encoding.md R82) -/

/-- The words of no class, by the number in the class field. -/
theorem classOf_eq_none {w : Word} : classOf w = none ↔ w.toNat / 2 ^ 25 % 16 ∈ [0, 1, 2, 3, 7, 15] := by
  have hbit {i : Nat} (hi : i < 4) : bit w (25 + i) = (field w 25 4).getLsbD i := bit_of_field_eq rfl hi
  rw [classOf_eq, hbit (i := 3) (by decide), hbit (i := 2) (by decide), hbit (i := 1) (by decide),
    hbit (i := 0) (by decide), ← show (field w 25 4).toNat = w.toNat / 2 ^ 25 % 16 from toNat_field w 25 4]
  generalize field w 25 4 = f
  revert f
  decide

theorem decodeDpImmediate_ne_unknownClass (w : Word) : decodeDpImmediate w ≠ .error .unknownClass := by
  simp only [decodeDpImmediate, undef]
  split_ifs <;> simp

theorem decodeDpRegister_ne_unknownClass (w : Word) : decodeDpRegister w ≠ .error .unknownClass := by
  simp only [decodeDpRegister, undef]
  split_ifs <;> simp

theorem decodeBranch_ne_unknownClass (w : Word) : decodeBranch w ≠ .error .unknownClass := by
  unfold decodeBranch undef
  cases Cond.ofField (field w 0 4) <;> split_ifs <;> simp

theorem decodeLoadStore_ne_unknownClass (w : Word) : decodeLoadStore w ≠ .error .unknownClass := by
  simp only [decodeLoadStore, undef]
  split_ifs <;> simp

/-- Only the class dispatch rejects a word as `UnknownClass`: the formats of a class reject theirs as undefined (R124). -/
theorem decodeWith_eq_unknownClass {halt w : Word} :
    decodeWith halt w = .error .unknownClass ↔ w ≠ halt ∧ classOf w = none := by
  constructor
  · intro h
    have hne : w ≠ halt := by rintro rfl; simp at h
    rw [decodeWith, if_neg hne] at h
    split at h
    next => exact absurd h (decodeDpImmediate_ne_unknownClass w)
    next => exact absurd h (decodeDpRegister_ne_unknownClass w)
    next => exact absurd h (decodeLoadStore_ne_unknownClass w)
    next => exact absurd h (decodeBranch_ne_unknownClass w)
    next hclass => exact ⟨hne, hclass⟩
  · rintro ⟨hne, hclass⟩
    rw [decodeWith, if_neg hne, hclass]

/-! ### UnknownClass -/

/-- A running state that fetches a word the decoder rejects raises what the rejection says (40_step_and_halt.md R140). -/
theorem stepWith_of_rejected {halt w : Word} {s : State} {why : Reject} (hr : s.Running) (hf : s.fetch = .ok w)
    (hd : decodeWith halt w = .error why) : stepWith halt s = .next (s.raise (rejectCause w why)) := by
  simp only [stepWith_of_running halt hr, cycle, hf, execWord, hd]

/-- Of the exceptions a step can take, the decoder's rejection by class alone is `UnknownClass`. -/
theorem stepWith_eq_raise_unknownClass {halt w : Word} {s : State} (hr : s.Running) (hf : s.fetch = .ok w) :
    stepWith halt s = .next (s.raise (.unknownClass w)) ↔ decodeWith halt w = .error .unknownClass := by
  refine ⟨fun h => ?_, fun hd => stepWith_of_rejected hr hf hd⟩
  obtain ⟨_, hc⟩ := stepCases_of_stepWith h
  cases hc with
  | fetchRaised c hfetch _ => cases hf.symm.trans hfetch
  | rejected v why hfetch hd hraise =>
    cases hf.symm.trans hfetch
    have hcause : Cause.unknownClass w = rejectCause w why := by simpa using congrArg State.fault hraise
    cases why with
    | unknownClass => exact hd
    | undefinedInstruction => cases hcause
  | ran v i _ _ he => exact absurd rfl ((raise_of_exec he hr.2 rfl).2 w)

/-- Settles O14: the step raises `UnknownClass` exactly if the decoder does, which it does exactly for the words other than
the halt word whose class field names no class; the state with the record is terminal. -/
theorem unknownClassWords : Obligations.UnknownClassWords := by
  intro halt w s hr hf
  refine ⟨?raised, stepWith_of_faulted halt rfl⟩
  calc stepWith halt s = .next (s.raise (.unknownClass w))
      ↔ decodeWith halt w = .error .unknownClass := stepWith_eq_raise_unknownClass hr hf
    _ ↔ w ≠ halt ∧ classOf w = none := decodeWith_eq_unknownClass
    _ ↔ w ≠ halt ∧ w.toNat / 2 ^ 25 % 16 ∈ [0, 1, 2, 3, 7, 15] := and_congr_right' classOf_eq_none

end Sys2Proof.Machine
end

section
/-! PROOFS for 70_reset_and_hazards.md: the state after reset and load (R300), where the image lies (R301), and the first
cycle (R303). -/

namespace Sys2Proof.Machine

/-! ### Reset and load (R300) -/

@[simp] theorem State.readReg_reset (r : Reg) : State.reset.readReg r = 0#64 := by
  cases r <;> simp [State.readReg, State.reset]

/-- The load of an image that fits sets the memory of the reset state and nothing else. -/
theorem loadImage_of_fits {image : List Byte} (h : image.length ≤ Config.memSize) :
    loadImage image = .next (State.reset.setMem (imageMemory Config.loadBase image)) := if_pos h

/-- `LOAD_BASE` is 0: an address is an index into the image. -/
theorem byte_imageMemory_loadBase (image : List Byte) (a : Nat) :
    (imageMemory Config.loadBase image).byte a = image.getD a 0#8 := by
  rw [byte_imageMemory, Config.loadBase, if_pos (Nat.zero_le a), Nat.sub_zero, unlistedByte]

theorem byte_imageMemory_inside {image : List Byte} {k : Nat} (h : k < image.length) :
    (imageMemory Config.loadBase image).byte k = image[k] :=
  (byte_imageMemory_loadBase image k).trans (List.getD_eq_getElem image 0#8 h)

theorem byte_imageMemory_outside {image : List Byte} {a : Nat} (h : image.length ≤ a) :
    (imageMemory Config.loadBase image).byte a = 0#8 :=
  (byte_imageMemory_loadBase image a).trans (List.getD_eq_default image 0#8 h)

/-- Settles O1: the registers, `pc`, flags and status are those of the reset state; past the image's end memory reads 0. -/
theorem resetEstablishesSpecState : Obligations.ResetEstablishesSpecState := by
  intro image hfits
  exact ⟨_, loadImage_of_fits hfits, fun r => by simp, rfl, rfl, rfl, rfl, rfl, rfl, rfl, rfl,
    fun _ => byte_imageMemory_outside⟩

/-! ### The image of a program (R301; 30_encoding.md R134) -/

theorem imageOfWords_cons (w : Word) (rest : List Word) :
    imageOfWords (w :: rest) = bytesOfWord w ++ imageOfWords rest := List.flatMap_cons

theorem length_imageOfWords (words : List Word) : (imageOfWords words).length = 4 * words.length := by
  induction words with
  | nil => rfl
  | cons w rest ih =>
    have hword : (bytesOfWord w).length = 4 := rfl
    rw [imageOfWords_cons, List.length_append, hword, ih, List.length_cons]
    omega

theorem getD_bytesOfWord (w : Word) {i : Nat} (hi : i < 4) : (bytesOfWord w).getD i 0#8 = field w (8 * i) 8 := by
  interval_cases i <;> rfl

/-- Byte `i` of word `j` is byte `4 * j + i` of the image. -/
theorem getD_imageOfWords {words : List Word} {j i : Nat} (hj : j < words.length) (hi : i < 4) :
    (imageOfWords words).getD (4 * j + i) 0#8 = field words[j] (8 * i) 8 := by
  induction words generalizing j with
  | nil => cases hj
  | cons w rest ih =>
    have hword : (bytesOfWord w).length = 4 := rfl
    rw [imageOfWords_cons]
    cases j with
    | zero => rw [Nat.mul_zero, Nat.zero_add, List.getD_append _ _ _ _ hi, getD_bytesOfWord w hi, List.getElem_cons_zero]
    | succ j =>
      rw [List.getD_append_right _ _ _ _ (by omega), show 4 * (j + 1) + i - (bytesOfWord w).length = 4 * j + i by omega,
        ih (Nat.lt_of_succ_lt_succ hj), List.getElem_cons_succ]

/-- A loaded program's word `j` lies at `4 * j`, least significant byte first. -/
theorem byte_imageMemory_imageOfWords {words : List Word} {j i : Nat} (hj : j < words.length) (hi : i < 4) :
    (imageMemory Config.loadBase (imageOfWords words)).byte (4 * j + i) = field words[j] (8 * i) 8 :=
  (byte_imageMemory_loadBase _ _).trans (getD_imageOfWords hj hi)

theorem loadImage_imageOfWords {words : List Word} (h : 4 * words.length ≤ Config.memSize) :
    loadImage (imageOfWords words) = .next (State.reset.setMem (imageMemory Config.loadBase (imageOfWords words))) :=
  loadImage_of_fits ((length_imageOfWords words).trans_le h)

/-- Settles O2: a byte of memory is the image's byte of the same index, and a program's image holds its words in order. -/
theorem imageLiesAtLoadBase : Obligations.ImageLiesAtLoadBase := by
  refine ⟨fun image hfits => ?bytes, fun words hfits => ?words⟩
  case bytes =>
    exact ⟨_, loadImage_of_fits hfits, fun _ => byte_imageMemory_inside, fun _ => byte_imageMemory_outside⟩
  case words =>
    have hbyte {j i : Nat} := byte_imageMemory_imageOfWords (words := words) (j := j) (i := i)
    exact ⟨_, loadImage_imageOfWords hfits, fun j hj =>
      ⟨hbyte (i := 0) hj (by decide), hbyte hj (by decide), hbyte hj (by decide), hbyte hj (by decide)⟩⟩

/-! ### The first cycle (R303) -/

/-- Two adjacent fields, the higher one first, are one field. -/
theorem field_append (w : Word) {hi lo m n : Nat} (h : hi = lo + n) : field w hi m ++ field w lo n = field w lo (m + n) :=
  BitVec.extractLsb'_append_extractLsb'_eq_extractLsb' h

theorem wordOfBytes_fields (w : Word) : wordOfBytes (field w 0 8) (field w 8 8) (field w 16 8) (field w 24 8) = w :=
  calc wordOfBytes (field w 0 8) (field w 8 8) (field w 16 8) (field w 24 8)
      = field w 24 8 ++ field w 16 8 ++ field w 8 8 ++ field w 0 8 := rfl
    _ = field w 16 16 ++ field w 8 8 ++ field w 0 8 := by rw [field_append w (hi := 24) rfl]
    _ = field w 8 24 ++ field w 0 8 := by rw [field_append w (hi := 16) rfl]
    _ = field w 0 32 := field_append w rfl
    _ = w := BitVec.extractLsb'_eq_self

/-- A running state runs the word whose bytes lie at `pc`. -/
theorem stepWith_of_bytes_at_pc {s : State} {w : Word} (halt : Word) (hr : s.Running)
    (hin : s.pc.toNat + 4 ≤ Config.memSize)
    (hbytes : ∀ i, i < 4 → s.mem.byte (s.pc.toNat + i) = field w (8 * i) 8) :
    stepWith halt s = execWord halt w s := by
  have h0 : s.mem.byte s.pc.toNat = field w 0 8 := hbytes 0 (by decide)
  rw [stepWith_of_pc_inside halt hr hin, h0, hbytes 1 (by decide), hbytes 2 (by decide), hbytes 3 (by decide),
    wordOfBytes_fields]

/-- Settles O3: `pc` is 0, where the bytes of the program's word 0 lie. -/
theorem executionBeginsAtFirstWord : Obligations.ExecutionBeginsAtFirstWord := by
  refine ⟨rfl, fun halt w rest hfits => ?_⟩
  have hrunning : (State.reset.setMem (imageMemory Config.loadBase (imageOfWords (w :: rest)))).Running := ⟨rfl, rfl⟩
  have hin : State.reset.pc.toNat + 4 ≤ Config.memSize := by decide
  exact ⟨_, loadImage_imageOfWords hfits, rfl, hrunning, stepWith_of_bytes_at_pc halt hrunning hin fun _ =>
    byte_imageMemory_imageOfWords (words := w :: rest) (j := 0) (Nat.zero_lt_succ _)⟩

end Sys2Proof.Machine
end

section
/-! PROOFS for 30_encoding.md: for each format its word read back and its word rebuilt, so that decoding and encoding are
inverse (R87 to R105, R124), with the rejected words (60_exceptions.md R275). -/

namespace Sys2Proof

open Machine

/-! ### Words and their fields -/

theorem opc_cases (f : BitVec 2) : f = 0b00#2 ∨ f = 0b01#2 ∨ f = 0b10#2 ∨ f = 0b11#2 := by
  revert f; decide

theorem oneBit_cases (f : BitVec 1) : f = 0b0#1 ∨ f = 0b1#1 := by
  revert f; decide

/-- Two known adjacent fields are one known field. -/
theorem field_of_adjacent {w : Word} {hi lo m n : Nat} {f : BitVec m} {g : BitVec n} (hf : field w hi m = f)
    (hg : field w lo n = g) (h : hi = lo + n) : field w lo (m + n) = f ++ g := by
  rw [← hf, ← hg, field_append w h]

/-- A known bit is a known field of one bit. -/
theorem field_of_bit {w : Word} {i : Nat} {b : Bool} (h : bit w i = b) : field w i 1 = BitVec.ofBool b := by
  rw [← ofBool_bit, h]

/-- A fixed field of a format is the field of any word that holds it. -/
theorem place_of_field {w : Word} {lo n : Nat} {f : BitVec n} (h : field w lo n = f) :
    place lo f = place lo (field w lo n) := by rw [h]

theorem classOf_eq_dpImmediate {w : Word} : classOf w = some .dpImmediate ↔ field w 26 3 = 0b100#3 := by
  unfold classOf
  split_ifs <;> simp_all

theorem classOf_eq_branch {w : Word} :
    classOf w = some .branch ↔ bit w 28 = true ∧ bit w 27 = false ∧ bit w 26 = true := by
  rw [classOf_eq]
  cases bit w 28 <;> cases bit w 27 <;> cases bit w 26 <;> cases bit w 25 <;> simp

/-! ### Arithmetic immediate (R87) -/

/-- The instruction of the arithmetic immediate format that `opc` selects. -/
def arithmeticImmediateInstr (opc : BitVec 2) (w : Width) (sh : Bool) (imm12 : BitVec 12) (rn rd : Reg) : Instr :=
  if opc = 0b00#2 then .addImm w sh imm12 rn rd
  else if opc = 0b01#2 then .addsImm w sh imm12 rn rd
  else if opc = 0b10#2 then .subImm w sh imm12 rn rd
  else .subsImm w sh imm12 rn rd

theorem encodeWith_arithmeticImmediateInstr (halt : Word) (opc : BitVec 2) (w : Width) (sh : Bool) (imm12 : BitVec 12)
    (rn rd : Reg) :
    encodeWith halt (arithmeticImmediateInstr opc w sh imm12 rn rd) = arithmeticImmediateWord opc w sh imm12 rn rd := by
  rcases opc_cases opc with rfl | rfl | rfl | rfl <;> rfl

theorem wellFormed_arithmeticImmediateInstr (opc : BitVec 2) (w : Width) (sh : Bool) (imm12 : BitVec 12) (rn rd : Reg) :
    (arithmeticImmediateInstr opc w sh imm12 rn rd).wellFormed = true := by
  rcases opc_cases opc with rfl | rfl | rfl | rfl <;> rfl

theorem decodeDpImmediate_arithmetic {w : Word} (h : field w 23 3 = 0b010#3) :
    decodeDpImmediate w = .ok (arithmeticImmediateInstr (field w 29 2) (Width.ofBit (bit w 31)) (bit w 22) (field w 10 12)
      (Reg.ofField (field w 5 5)) (Reg.ofField (field w 0 5))) := by
  simp only [decodeDpImmediate, h, if_true, arithmeticImmediateInstr]
  split_ifs <;> rfl

theorem decodeDpImmediate_arithmeticImmediateWord (opc : BitVec 2) (w : Width) (sh : Bool) (imm12 : BitVec 12)
    (rn rd : Reg) :
    decodeDpImmediate (arithmeticImmediateWord opc w sh imm12 rn rd) =
      .ok (arithmeticImmediateInstr opc w sh imm12 rn rd) := by
  rw [decodeDpImmediate_arithmetic] <;>
    simp (disch := omega) [arithmeticImmediateWord, field_place_same, field_place_outside, field_place_inside,
      bit_place_inside, bit_place_outside]

theorem arithmeticImmediateWord_fields_self {w : Word} (h : field w 23 6 = 0b100010#6) :
    arithmeticImmediateWord (field w 29 2) (Width.ofBit (bit w 31)) (bit w 22) (field w 10 12)
      (Reg.ofField (field w 5 5)) (Reg.ofField (field w 0 5)) = w := by
  simp only [arithmeticImmediateWord, Width.toField_ofBit, Reg.toField_ofField, ofBool_bit, place_of_field h]
  simp (disch := omega) only [place_or_place_adjacent]
  exact place_field_whole w

/-! ### Wide move (R88) -/

/-- The instruction of the wide-move format that `opc` selects, other than 01. -/
def wideMoveInstr (opc : BitVec 2) (w : Width) (hw : BitVec 2) (imm16 : BitVec 16) (rd : Reg) : Instr :=
  if opc = 0b00#2 then .movn w hw imm16 rd
  else if opc = 0b10#2 then .movz w hw imm16 rd
  else .movk w hw imm16 rd

theorem encodeWith_wideMoveInstr (halt : Word) {opc : BitVec 2} (hopc : opc ≠ 0b01#2) (w : Width) (hw : BitVec 2)
    (imm16 : BitVec 16) (rd : Reg) :
    encodeWith halt (wideMoveInstr opc w hw imm16 rd) = wideMoveWord opc w hw imm16 rd := by
  rcases opc_cases opc with rfl | rfl | rfl | rfl
  · rfl
  · exact absurd rfl hopc
  · rfl
  · rfl

theorem wellFormed_wideMoveInstr (opc : BitVec 2) (w : Width) (hw : BitVec 2) (imm16 : BitVec 16) (rd : Reg) :
    (wideMoveInstr opc w hw imm16 rd).wellFormed = halfWordLegal w hw := by
  rcases opc_cases opc with rfl | rfl | rfl | rfl <;> rfl

theorem decodeDpImmediate_wideMove {w : Word} (h : field w 23 3 = 0b101#3) :
    decodeDpImmediate w =
      if field w 29 2 = 0b01#2 then undef .wideMoveOpc
      else if halfWordLegal (Width.ofBit (bit w 31)) (field w 21 2) = false then undef .halfWord
      else .ok (wideMoveInstr (field w 29 2) (Width.ofBit (bit w 31)) (field w 21 2) (field w 5 16)
        (Reg.ofField (field w 0 5))) := by
  simp only [decodeDpImmediate, h, wideMoveInstr, if_neg (show (0b101#3 : BitVec 3) ≠ 0b010#3 by decide), if_true]
  split_ifs <;> rfl

theorem decodeDpImmediate_wideMoveWord {opc : BitVec 2} (hopc : opc ≠ 0b01#2) (w : Width) (hw : BitVec 2)
    (imm16 : BitVec 16) (rd : Reg) :
    decodeDpImmediate (wideMoveWord opc w hw imm16 rd) =
      if halfWordLegal w hw = false then undef .halfWord else .ok (wideMoveInstr opc w hw imm16 rd) := by
  rw [decodeDpImmediate_wideMove] <;>
    simp (disch := omega) [wideMoveWord, field_place_same, field_place_outside, field_place_inside,
      bit_place_inside, hopc]

theorem wideMoveWord_fields_self {w : Word} (h : field w 23 6 = 0b100101#6) :
    wideMoveWord (field w 29 2) (Width.ofBit (bit w 31)) (field w 21 2) (field w 5 16) (Reg.ofField (field w 0 5)) = w := by
  simp only [wideMoveWord, Width.toField_ofBit, Reg.toField_ofField, ofBool_bit, place_of_field h]
  simp (disch := omega) only [place_or_place_adjacent]
  exact place_field_whole w

/-! ### Shifted register (R92, R93) -/

/-- The instruction of the arithmetic shifted-register format that `opc` selects. -/
def arithmeticRegisterInstr (opc : BitVec 2) (w : Width) (shift : ShiftType) (rm : Reg) (imm6 : BitVec 6) (rn rd : Reg) :
    Instr :=
  if opc = 0b00#2 then .addReg w shift rm imm6 rn rd
  else if opc = 0b01#2 then .addsReg w shift rm imm6 rn rd
  else if opc = 0b10#2 then .subReg w shift rm imm6 rn rd
  else .subsReg w shift rm imm6 rn rd

/-- The instruction of the logical shifted-register format that `opc` and N select. -/
def logicalRegisterInstr (opc : BitVec 2) (n : BitVec 1) (w : Width) (shift : ShiftType) (rm : Reg) (imm6 : BitVec 6)
    (rn rd : Reg) : Instr :=
  if n = 0b0#1 then
    if opc = 0b00#2 then .and w shift rm imm6 rn rd
    else if opc = 0b01#2 then .orr w shift rm imm6 rn rd
    else if opc = 0b10#2 then .eor w shift rm imm6 rn rd
    else .ands w shift rm imm6 rn rd
  else
    if opc = 0b00#2 then .bic w shift rm imm6 rn rd
    else if opc = 0b01#2 then .orn w shift rm imm6 rn rd
    else if opc = 0b10#2 then .eon w shift rm imm6 rn rd
    else .bics w shift rm imm6 rn rd

section
variable (halt : Word) (opc : BitVec 2) (n : BitVec 1) (w : Width) (shift : ShiftType) (rm : Reg) (imm6 : BitVec 6)
  (rn rd : Reg)

theorem encodeWith_arithmeticRegisterInstr :
    encodeWith halt (arithmeticRegisterInstr opc w shift rm imm6 rn rd) =
      arithmeticRegisterWord opc w shift rm imm6 rn rd := by
  rcases opc_cases opc with rfl | rfl | rfl | rfl <;> rfl

theorem wellFormed_arithmeticRegisterInstr :
    (arithmeticRegisterInstr opc w shift rm imm6 rn rd).wellFormed =
      (shiftAmountLegal w imm6 && arithmeticShiftLegal shift) := by
  rcases opc_cases opc with rfl | rfl | rfl | rfl <;> rfl

theorem encodeWith_logicalRegisterInstr :
    encodeWith halt (logicalRegisterInstr opc n w shift rm imm6 rn rd) =
      logicalRegisterWord opc n w shift rm imm6 rn rd := by
  rcases oneBit_cases n with rfl | rfl <;> rcases opc_cases opc with rfl | rfl | rfl | rfl <;> rfl

theorem wellFormed_logicalRegisterInstr :
    (logicalRegisterInstr opc n w shift rm imm6 rn rd).wellFormed = shiftAmountLegal w imm6 := by
  rcases oneBit_cases n with rfl | rfl <;> rcases opc_cases opc with rfl | rfl | rfl | rfl <;> rfl

end

theorem decodeDpRegister_arithmetic {w : Word} (h28 : bit w 28 = false) (h24 : bit w 24 = true) :
    decodeDpRegister w =
      if shiftAmountLegal (Width.ofBit (bit w 31)) (field w 10 6) = false then undef .shiftAmount
      else if bit w 21 = true then undef .extendedRegister
      else if arithmeticShiftLegal (ShiftType.ofField (field w 22 2)) = false then undef .arithmeticRor
      else .ok (arithmeticRegisterInstr (field w 29 2) (Width.ofBit (bit w 31)) (ShiftType.ofField (field w 22 2))
        (Reg.ofField (field w 16 5)) (field w 10 6) (Reg.ofField (field w 5 5)) (Reg.ofField (field w 0 5))) := by
  simp only [decodeDpRegister, h28, h24, arithmeticRegisterInstr, if_true]
  split_ifs <;> rfl

theorem decodeDpRegister_logical {w : Word} (h28 : bit w 28 = false) (h24 : bit w 24 = false) :
    decodeDpRegister w =
      if shiftAmountLegal (Width.ofBit (bit w 31)) (field w 10 6) = false then undef .shiftAmount
      else .ok (logicalRegisterInstr (field w 29 2) (field w 21 1) (Width.ofBit (bit w 31))
        (ShiftType.ofField (field w 22 2)) (Reg.ofField (field w 16 5)) (field w 10 6) (Reg.ofField (field w 5 5))
        (Reg.ofField (field w 0 5))) := by
  simp only [decodeDpRegister, h28, h24, logicalRegisterInstr, ← ofBool_bit, if_true]
  cases bit w 21 <;> simp <;> split_ifs <;> rfl

theorem decodeDpRegister_arithmeticRegisterWord (opc : BitVec 2) (w : Width) (shift : ShiftType) (rm : Reg)
    (imm6 : BitVec 6) (rn rd : Reg) :
    decodeDpRegister (arithmeticRegisterWord opc w shift rm imm6 rn rd) =
      if shiftAmountLegal w imm6 = false then undef .shiftAmount
      else if arithmeticShiftLegal shift = false then undef .arithmeticRor
      else .ok (arithmeticRegisterInstr opc w shift rm imm6 rn rd) := by
  rw [decodeDpRegister_arithmetic] <;>
    simp (disch := omega) [arithmeticRegisterWord, field_place_same, field_place_outside,
      bit_place_inside, bit_place_outside]

theorem decodeDpRegister_logicalRegisterWord (opc : BitVec 2) (n : BitVec 1) (w : Width) (shift : ShiftType) (rm : Reg)
    (imm6 : BitVec 6) (rn rd : Reg) :
    decodeDpRegister (logicalRegisterWord opc n w shift rm imm6 rn rd) =
      if shiftAmountLegal w imm6 = false then undef .shiftAmount
      else .ok (logicalRegisterInstr opc n w shift rm imm6 rn rd) := by
  rw [decodeDpRegister_logical] <;>
    simp (disch := omega) [logicalRegisterWord, field_place_same, field_place_outside,
      bit_place_inside, bit_place_outside]

theorem arithmeticRegisterWord_fields_self {w : Word} (h : field w 24 5 = 0b01011#5) (h21 : bit w 21 = false) :
    arithmeticRegisterWord (field w 29 2) (Width.ofBit (bit w 31)) (ShiftType.ofField (field w 22 2))
      (Reg.ofField (field w 16 5)) (field w 10 6) (Reg.ofField (field w 5 5)) (Reg.ofField (field w 0 5)) = w := by
  simp only [arithmeticRegisterWord, Width.toField_ofBit, ShiftType.toField_ofField, Reg.toField_ofField, ofBool_bit,
    place_of_field h, place_of_field (f := 0b0#1) (field_of_bit h21)]
  simp (disch := omega) only [place_or_place_adjacent]
  exact place_field_whole w

/-! ### Multiply (R94) -/

/-- The instruction of the multiply format that bit 15 selects. -/
def multiplyInstr (x : BitVec 1) (w : Width) (rm ra rn rd : Reg) : Instr :=
  if x = 0b0#1 then .madd w rm ra rn rd else .msub w rm ra rn rd

theorem encodeWith_multiplyInstr (halt : Word) (x : BitVec 1) (w : Width) (rm ra rn rd : Reg) :
    encodeWith halt (multiplyInstr x w rm ra rn rd) = multiplyWord x w rm ra rn rd := by
  rcases oneBit_cases x with rfl | rfl <;> rfl

theorem wellFormed_multiplyInstr (x : BitVec 1) (w : Width) (rm ra rn rd : Reg) :
    (multiplyInstr x w rm ra rn rd).wellFormed = true := by
  rcases oneBit_cases x with rfl | rfl <;> rfl

theorem decodeDpRegister_multiply {w : Word} (h28 : bit w 28 = true)
    (h : field w 21 4 = 0b1000#4 ∧ field w 29 2 = 0b00#2) :
    decodeDpRegister w = .ok (multiplyInstr (field w 15 1) (Width.ofBit (bit w 31)) (Reg.ofField (field w 16 5))
      (Reg.ofField (field w 10 5)) (Reg.ofField (field w 5 5)) (Reg.ofField (field w 0 5))) := by
  simp only [decodeDpRegister, h28, h, multiplyInstr, ← ofBool_bit, and_self, if_true]
  cases bit w 15 <;> rfl

theorem decodeDpRegister_multiplyWord (x : BitVec 1) (w : Width) (rm ra rn rd : Reg) :
    decodeDpRegister (multiplyWord x w rm ra rn rd) = .ok (multiplyInstr x w rm ra rn rd) := by
  have hopr : field (multiplyWord x w rm ra rn rd) 21 4 = 0b1000#4 :=
    field_of_adjacent (hi := 24) (f := 0b1#1) (g := 0b000#3)
      (by simp (disch := omega) [multiplyWord, field_place_outside, field_place_inside])
      (by simp (disch := omega) [multiplyWord, field_place_outside, field_place_same]) rfl
  rw [decodeDpRegister_multiply _ ⟨hopr, _⟩] <;>
    simp (disch := omega) [multiplyWord, field_place_same, field_place_outside, bit_place_inside, bit_place_outside]

theorem multiplyWord_fields_self {w : Word} (hopc : field w 29 2 = 0b00#2) (h : field w 21 8 = 0b11011000#8) :
    multiplyWord (field w 15 1) (Width.ofBit (bit w 31)) (Reg.ofField (field w 16 5))
      (Reg.ofField (field w 10 5)) (Reg.ofField (field w 5 5)) (Reg.ofField (field w 0 5)) = w := by
  have hhigh : field w 24 5 = 0b11011#5 := field_of_field_eq h (i := 3) (by decide)
  have hlow : field w 21 3 = 0b000#3 := field_of_field_eq h (i := 0) (by decide)
  simp only [multiplyWord, Width.toField_ofBit, Reg.toField_ofField, ofBool_bit, place_of_field hopc,
    place_of_field hhigh, place_of_field hlow]
  simp (disch := omega) only [place_or_place_adjacent]
  exact place_field_whole w

/-! ### Branches (R95 to R97) -/

theorem decodeBranch_branchWord (simm26 : BitVec 26) : decodeBranch (branchWord simm26) = .ok (.b simm26) := by
  have hop : field (branchWord simm26) 26 6 = 0b000101#6 := by
    simp (disch := omega) [branchWord, field_place_same, field_place_outside]
  have himm : field (branchWord simm26) 0 26 = simm26 := by
    simp (disch := omega) [branchWord, field_place_same, field_place_outside]
  rw [decodeBranch, if_pos hop, himm]

theorem decodeBranch_branchRegisterWord (xn : Reg) : decodeBranch (branchRegisterWord xn) = .ok (.br xn) := by
  simp (disch := omega) [decodeBranch, branchRegisterWord, field_place_same, field_place_outside, field_place_inside]

/-- A word of the format of B.cond is neither a B nor a BR, so its condition field decides (43_branch.md R222). -/
theorem decodeBranch_condForm {w : Word} (h : field w 24 8 = 0b01010100#8) (h4 : bit w 4 = false) :
    decodeBranch w =
      (Cond.ofField (field w 0 4)).elim (undef .condition) (fun cond => .ok (.bCond (field w 5 19) cond)) := by
  have hB : field w 26 6 ≠ 0b000101#6 := by
    rw [show field w 26 6 = 0b010101#6 from field_of_field_eq h (i := 2) (by decide)]
    decide
  have hBR : field w 10 22 ≠ 0b1101011000011111000000#22 := by
    intro hBR
    have hop := h.symm.trans (field_of_field_eq hBR (i := 14) (k := 8) (by decide))
    revert hop
    decide
  simp only [decodeBranch, if_neg hB, hBR, false_and, if_false, h, h4, and_self, if_true]
  cases Cond.ofField (field w 0 4) <;> rfl

theorem decodeBranch_branchCondWord (simm19 : BitVec 19) (cond : Cond) :
    decodeBranch (branchCondWord simm19 cond) = .ok (.bCond simm19 cond) := by
  rw [decodeBranch_condForm] <;>
    simp (disch := omega) [branchCondWord, field_place_same, field_place_outside, bit_place_inside, bit_place_outside]

theorem branchWord_fields_self {w : Word} (h : field w 26 6 = 0b000101#6) : branchWord (field w 0 26) = w := by
  rw [branchWord, place_of_field h, place_or_place_adjacent w 6 (lo := 0) (a := 26) rfl]
  exact place_field_whole w

theorem branchRegisterWord_fields_self {w : Word} (h : field w 10 22 = 0b1101011000011111000000#22)
    (h0 : field w 0 5 = 0b00000#5) : branchRegisterWord (Reg.ofField (field w 5 5)) = w := by
  simp only [branchRegisterWord, Reg.toField_ofField, place_of_field h, place_of_field h0]
  simp (disch := omega) only [place_or_place_adjacent]
  exact place_field_whole w

theorem branchCondWord_fields_self {w : Word} {cond : Cond} (h : field w 24 8 = 0b01010100#8) (h4 : bit w 4 = false)
    (hcond : Cond.ofField (field w 0 4) = some cond) : branchCondWord (field w 5 19) cond = w := by
  simp only [branchCondWord, Cond.toField_of_ofField hcond, place_of_field h,
    place_of_field (f := 0b0#1) (field_of_bit h4)]
  simp (disch := omega) only [place_or_place_adjacent]
  exact place_field_whole w

/-! ### Loads and stores (R99 to R103) -/

/-- The instruction of the unsigned-offset format that bit 22 selects. -/
def unsignedOffsetInstr (load : BitVec 1) (w : Width) (imm12 : BitVec 12) (xn rt : Reg) : Instr :=
  if load = 0b1#1 then .ldrUnsigned w imm12 xn rt else .strUnsigned w imm12 xn rt

/-- The instruction of the register-offset format that bit 22 selects. -/
def registerOffsetInstr (load : BitVec 1) (w : Width) (xm xn rt : Reg) : Instr :=
  if load = 0b1#1 then .ldrRegister w xm xn rt else .strRegister w xm xn rt

/-- The instruction of the indexed format that bits 22 and 11 select. -/
def indexedInstr (load pre : BitVec 1) (w : Width) (simm9 : BitVec 9) (xn rt : Reg) : Instr :=
  if pre = 0b1#1 then
    if load = 0b1#1 then .ldrPre w simm9 xn rt else .strPre w simm9 xn rt
  else
    if load = 0b1#1 then .ldrPost w simm9 xn rt else .strPost w simm9 xn rt

section
variable (halt : Word) (load pre : BitVec 1) (w : Width) (imm12 : BitVec 12) (simm9 : BitVec 9) (xm xn rt : Reg)

theorem encodeWith_unsignedOffsetInstr :
    encodeWith halt (unsignedOffsetInstr load w imm12 xn rt) = unsignedOffsetWord load w imm12 xn rt := by
  rcases oneBit_cases load with rfl | rfl <;> rfl

theorem wellFormed_unsignedOffsetInstr : (unsignedOffsetInstr load w imm12 xn rt).wellFormed = true := by
  rcases oneBit_cases load with rfl | rfl <;> rfl

theorem encodeWith_registerOffsetInstr :
    encodeWith halt (registerOffsetInstr load w xm xn rt) = registerOffsetWord load w xm xn rt := by
  rcases oneBit_cases load with rfl | rfl <;> rfl

theorem wellFormed_registerOffsetInstr : (registerOffsetInstr load w xm xn rt).wellFormed = true := by
  rcases oneBit_cases load with rfl | rfl <;> rfl

theorem encodeWith_indexedInstr :
    encodeWith halt (indexedInstr load pre w simm9 xn rt) = indexedWord load pre w simm9 xn rt := by
  rcases oneBit_cases load with rfl | rfl <;> rcases oneBit_cases pre with rfl | rfl <;> rfl

theorem wellFormed_indexedInstr : (indexedInstr load pre w simm9 xn rt).wellFormed = writeBackLegal xn rt := by
  rcases oneBit_cases load with rfl | rfl <;> rcases oneBit_cases pre with rfl | rfl <;> rfl

end

section
variable {w : Word}

theorem decodeLoadStore_literal (h31 : bit w 31 = false) (h : field w 24 6 = 0b011000#6) :
    decodeLoadStore w = .ok (.ldrLiteral (Width.ofBit (bit w 30)) (field w 5 19) (Reg.ofField (field w 0 5))) := by
  simp only [decodeLoadStore, h31, h, if_true]

theorem decodeLoadStore_unsignedOffset (h31 : bit w 31 = true) (h : field w 25 5 = 0b11100#5) (h23 : bit w 23 = false)
    (h24 : bit w 24 = true) :
    decodeLoadStore w = .ok (unsignedOffsetInstr (field w 22 1) (Width.ofBit (bit w 30)) (field w 10 12)
      (Reg.ofField (field w 5 5)) (Reg.ofField (field w 0 5))) := by
  simp only [decodeLoadStore, h31, h, h23, h24, unsignedOffsetInstr, ← ofBool_bit, and_self, if_true,
    Bool.true_eq_false, if_false]
  cases bit w 22 <;> rfl

theorem decodeLoadStore_register (h31 : bit w 31 = true) (h : field w 25 5 = 0b11100#5) (h23 : bit w 23 = false)
    (h24 : bit w 24 = false) (h21 : bit w 21 = true) (hopt : field w 10 6 = 0b011010#6) :
    decodeLoadStore w = .ok (registerOffsetInstr (field w 22 1) (Width.ofBit (bit w 30)) (Reg.ofField (field w 16 5))
      (Reg.ofField (field w 5 5)) (Reg.ofField (field w 0 5))) := by
  simp only [decodeLoadStore, h31, h, h23, h24, h21, hopt, registerOffsetInstr, ← ofBool_bit, and_self, if_true,
    Bool.true_eq_false, Bool.false_eq_true, if_false]
  cases bit w 22 <;> rfl

theorem decodeLoadStore_indexed (h31 : bit w 31 = true) (h : field w 25 5 = 0b11100#5) (h23 : bit w 23 = false)
    (h24 : bit w 24 = false) (h21 : bit w 21 = false) :
    decodeLoadStore w =
      if bit w 10 = false then undef .loadStoreForm
      else if writeBackLegal (Reg.ofField (field w 5 5)) (Reg.ofField (field w 0 5)) = false then undef .writeBack
      else .ok (indexedInstr (field w 22 1) (field w 11 1) (Width.ofBit (bit w 30)) (field w 12 9)
        (Reg.ofField (field w 5 5)) (Reg.ofField (field w 0 5))) := by
  simp only [decodeLoadStore, h31, h, h23, h24, h21, indexedInstr, ← ofBool_bit, and_self, if_true,
    Bool.true_eq_false, Bool.false_eq_true, if_false]
  cases bit w 22 <;> cases bit w 11 <;> rfl

end

theorem decodeLoadStore_literalWord (w : Width) (simm19 : BitVec 19) (rt : Reg) :
    decodeLoadStore (literalWord w simm19 rt) = .ok (.ldrLiteral w simm19 rt) := by
  rw [decodeLoadStore_literal] <;>
    simp (disch := omega) [literalWord, field_place_same, field_place_outside, bit_place_inside, bit_place_outside]

theorem decodeLoadStore_unsignedOffsetWord (load : BitVec 1) (w : Width) (imm12 : BitVec 12) (xn rt : Reg) :
    decodeLoadStore (unsignedOffsetWord load w imm12 xn rt) = .ok (unsignedOffsetInstr load w imm12 xn rt) := by
  rw [decodeLoadStore_unsignedOffset] <;>
    simp (disch := omega) [unsignedOffsetWord, field_place_same, field_place_outside, bit_place_inside, bit_place_outside]

theorem decodeLoadStore_registerOffsetWord (load : BitVec 1) (w : Width) (xm xn rt : Reg) :
    decodeLoadStore (registerOffsetWord load w xm xn rt) = .ok (registerOffsetInstr load w xm xn rt) := by
  rw [decodeLoadStore_register] <;>
    simp (disch := omega) [registerOffsetWord, field_place_same, field_place_outside, bit_place_inside, bit_place_outside]

theorem decodeLoadStore_indexedWord (load pre : BitVec 1) (w : Width) (simm9 : BitVec 9) (xn rt : Reg) :
    decodeLoadStore (indexedWord load pre w simm9 xn rt) =
      if writeBackLegal xn rt = false then undef .writeBack else .ok (indexedInstr load pre w simm9 xn rt) := by
  rw [decodeLoadStore_indexed] <;>
    simp (disch := omega) [indexedWord, field_place_same, field_place_outside, bit_place_inside, bit_place_outside]

section
variable {w : Word}

theorem literalWord_fields_self (h31 : bit w 31 = false) (h : field w 24 6 = 0b011000#6) :
    literalWord (Width.ofBit (bit w 30)) (field w 5 19) (Reg.ofField (field w 0 5)) = w := by
  simp only [literalWord, Width.toField_ofBit, Reg.toField_ofField, ofBool_bit, place_of_field h,
    place_of_field (f := 0b0#1) (field_of_bit h31)]
  simp (disch := omega) only [place_or_place_adjacent]
  exact place_field_whole w

theorem unsignedOffsetWord_fields_self (h31 : bit w 31 = true) (h : field w 25 5 = 0b11100#5) (h23 : bit w 23 = false)
    (h24 : bit w 24 = true) :
    unsignedOffsetWord (field w 22 1) (Width.ofBit (bit w 30)) (field w 10 12) (Reg.ofField (field w 5 5))
      (Reg.ofField (field w 0 5)) = w := by
  simp only [unsignedOffsetWord, Width.toField_ofBit, Reg.toField_ofField, ofBool_bit, place_of_field h,
    place_of_field (f := 0b1#1) (field_of_bit h31), place_of_field (f := 0b1#1) (field_of_bit h24),
    place_of_field (f := 0b0#1) (field_of_bit h23)]
  simp (disch := omega) only [place_or_place_adjacent]
  exact place_field_whole w

theorem registerOffsetWord_fields_self (h31 : bit w 31 = true) (h : field w 25 5 = 0b11100#5) (h23 : bit w 23 = false)
    (h24 : bit w 24 = false) (h21 : bit w 21 = true) (hopt : field w 10 6 = 0b011010#6) :
    registerOffsetWord (field w 22 1) (Width.ofBit (bit w 30)) (Reg.ofField (field w 16 5)) (Reg.ofField (field w 5 5))
      (Reg.ofField (field w 0 5)) = w := by
  simp only [registerOffsetWord, Width.toField_ofBit, Reg.toField_ofField, ofBool_bit, place_of_field h,
    place_of_field hopt, place_of_field (f := 0b1#1) (field_of_bit h31), place_of_field (f := 0b0#1) (field_of_bit h24),
    place_of_field (f := 0b0#1) (field_of_bit h23), place_of_field (f := 0b1#1) (field_of_bit h21)]
  simp (disch := omega) only [place_or_place_adjacent]
  exact place_field_whole w

theorem indexedWord_fields_self (h31 : bit w 31 = true) (h : field w 25 5 = 0b11100#5) (h23 : bit w 23 = false)
    (h24 : bit w 24 = false) (h21 : bit w 21 = false) (h10 : bit w 10 = true) :
    indexedWord (field w 22 1) (field w 11 1) (Width.ofBit (bit w 30)) (field w 12 9) (Reg.ofField (field w 5 5))
      (Reg.ofField (field w 0 5)) = w := by
  simp only [indexedWord, Width.toField_ofBit, Reg.toField_ofField, ofBool_bit, place_of_field h,
    place_of_field (f := 0b1#1) (field_of_bit h31), place_of_field (f := 0b0#1) (field_of_bit h24),
    place_of_field (f := 0b0#1) (field_of_bit h23), place_of_field (f := 0b0#1) (field_of_bit h21),
    place_of_field (f := 0b1#1) (field_of_bit h10)]
  simp (disch := omega) only [place_or_place_adjacent]
  exact place_field_whole w

end

/-! ### The class of a format's word -/

/-- A word that is not the halt word is decoded by its class. -/
theorem decodeWith_dpImmediate {halt w : Word} (hne : w ≠ halt) (h : field w 26 3 = 0b100#3) :
    decodeWith halt w = decodeDpImmediate w := by
  simp only [decodeWith, if_neg hne, classOf_eq_dpImmediate.2 h]

theorem decodeWith_branch {halt w : Word} (hne : w ≠ halt) (h28 : bit w 28 = true) (h27 : bit w 27 = false)
    (h26 : bit w 26 = true) : decodeWith halt w = decodeBranch w := by
  simp only [decodeWith, if_neg hne, classOf_eq_branch.2 ⟨h28, h27, h26⟩]

/-- What the decoder says of the word of an instruction other than HALT: the instruction if it is well-formed, a rejection
as undefined if not (R120, R124). -/
inductive DecodesBack (i : Instr) (d : Except Reject Instr) : Prop where
  | legal (hw : i.wellFormed = true) (hd : d = .ok i)
  | illegal (why : Undefined) (hw : i.wellFormed = false) (hd : d = undef why)

/-- A format with one check beyond its fixed bits. -/
theorem DecodesBack.checked {i : Instr} {d : Except Reject Instr} {b : Bool} {why : Undefined} (hw : i.wellFormed = b)
    (hd : d = if b = false then undef why else .ok i) : DecodesBack i d := by
  cases b with
  | true => exact .legal hw hd
  | false => exact .illegal why hw hd

section
variable {halt : Word} {w : Width} {rm rn rd xm xn rt : Reg} {imm6 : BitVec 6} {shift : ShiftType}

theorem decodesBack_arithmeticImmediate (opc : BitVec 2) {sh : Bool} {imm12 : BitVec 12}
    (hne : arithmeticImmediateWord opc w sh imm12 rn rd ≠ halt) :
    DecodesBack (arithmeticImmediateInstr opc w sh imm12 rn rd)
      (decodeWith halt (arithmeticImmediateWord opc w sh imm12 rn rd)) := by
  have hclass : field (arithmeticImmediateWord opc w sh imm12 rn rd) 26 3 = 0b100#3 := by
    simp (disch := omega) [arithmeticImmediateWord, field_place_outside, field_place_inside]
  rw [decodeWith_dpImmediate hne hclass, decodeDpImmediate_arithmeticImmediateWord]
  exact .legal (wellFormed_arithmeticImmediateInstr ..) rfl

theorem decodesBack_wideMove {opc : BitVec 2} (hopc : opc ≠ 0b01#2) {hw : BitVec 2} {imm16 : BitVec 16}
    (hne : wideMoveWord opc w hw imm16 rd ≠ halt) :
    DecodesBack (wideMoveInstr opc w hw imm16 rd) (decodeWith halt (wideMoveWord opc w hw imm16 rd)) := by
  have hclass : field (wideMoveWord opc w hw imm16 rd) 26 3 = 0b100#3 := by
    simp (disch := omega) [wideMoveWord, field_place_outside, field_place_inside]
  rw [decodeWith_dpImmediate hne hclass, decodeDpImmediate_wideMoveWord hopc]
  exact .checked (wellFormed_wideMoveInstr ..) rfl

theorem decodesBack_arithmeticRegister (opc : BitVec 2)
    (hne : arithmeticRegisterWord opc w shift rm imm6 rn rd ≠ halt) :
    DecodesBack (arithmeticRegisterInstr opc w shift rm imm6 rn rd)
      (decodeWith halt (arithmeticRegisterWord opc w shift rm imm6 rn rd)) := by
  have hclass : field (arithmeticRegisterWord opc w shift rm imm6 rn rd) 25 3 = 0b101#3 := by
    simp (disch := omega) [arithmeticRegisterWord, field_place_outside, field_place_inside]
  have hw := wellFormed_arithmeticRegisterInstr opc w shift rm imm6 rn rd
  rw [decodeWith_dpRegister hne hclass, decodeDpRegister_arithmeticRegisterWord]
  cases hamount : shiftAmountLegal w imm6 with
  | true => exact .checked (hw.trans (by rw [hamount, Bool.true_and])) rfl
  | false => exact .illegal _ (hw.trans (by rw [hamount, Bool.false_and])) rfl

theorem decodesBack_logicalRegister (opc : BitVec 2) (n : BitVec 1)
    (hne : logicalRegisterWord opc n w shift rm imm6 rn rd ≠ halt) :
    DecodesBack (logicalRegisterInstr opc n w shift rm imm6 rn rd)
      (decodeWith halt (logicalRegisterWord opc n w shift rm imm6 rn rd)) := by
  have hclass : field (logicalRegisterWord opc n w shift rm imm6 rn rd) 25 3 = 0b101#3 := by
    simp (disch := omega) [logicalRegisterWord, field_place_outside, field_place_inside]
  rw [decodeWith_dpRegister hne hclass, decodeDpRegister_logicalRegisterWord]
  exact .checked (wellFormed_logicalRegisterInstr ..) rfl

theorem decodesBack_multiply (x : BitVec 1) {ra : Reg} (hne : multiplyWord x w rm ra rn rd ≠ halt) :
    DecodesBack (multiplyInstr x w rm ra rn rd) (decodeWith halt (multiplyWord x w rm ra rn rd)) := by
  have hclass : field (multiplyWord x w rm ra rn rd) 25 3 = 0b101#3 := by
    simp (disch := omega) [multiplyWord, field_place_outside, field_place_inside]
  rw [decodeWith_dpRegister hne hclass, decodeDpRegister_multiplyWord]
  exact .legal (wellFormed_multiplyInstr ..) rfl

theorem decodesBack_b {simm26 : BitVec 26} (hne : branchWord simm26 ≠ halt) :
    DecodesBack (.b simm26) (decodeWith halt (branchWord simm26)) := by
  rw [decodeWith_branch hne, decodeBranch_branchWord]
  · exact .legal rfl rfl
  all_goals simp (disch := omega) [branchWord, bit_place_inside]

theorem decodesBack_bCond {simm19 : BitVec 19} {cond : Cond} (hne : branchCondWord simm19 cond ≠ halt) :
    DecodesBack (.bCond simm19 cond) (decodeWith halt (branchCondWord simm19 cond)) := by
  rw [decodeWith_branch hne, decodeBranch_branchCondWord]
  · exact .legal rfl rfl
  all_goals simp (disch := omega) [branchCondWord, bit_place_inside]

theorem decodesBack_br (hne : branchRegisterWord xn ≠ halt) :
    DecodesBack (.br xn) (decodeWith halt (branchRegisterWord xn)) := by
  rw [decodeWith_branch hne, decodeBranch_branchRegisterWord]
  · exact .legal rfl rfl
  all_goals simp (disch := omega) [branchRegisterWord, bit_place_inside]

theorem decodesBack_unsignedOffset (load : BitVec 1) {imm12 : BitVec 12}
    (hne : unsignedOffsetWord load w imm12 xn rt ≠ halt) :
    DecodesBack (unsignedOffsetInstr load w imm12 xn rt) (decodeWith halt (unsignedOffsetWord load w imm12 xn rt)) := by
  rw [decodeWith_loadStore hne, decodeLoadStore_unsignedOffsetWord]
  · exact .legal (wellFormed_unsignedOffsetInstr ..) rfl
  all_goals simp (disch := omega) [unsignedOffsetWord, bit_place_inside, bit_place_outside]

theorem decodesBack_indexed (load pre : BitVec 1) {simm9 : BitVec 9} (hne : indexedWord load pre w simm9 xn rt ≠ halt) :
    DecodesBack (indexedInstr load pre w simm9 xn rt) (decodeWith halt (indexedWord load pre w simm9 xn rt)) := by
  rw [decodeWith_loadStore hne, decodeLoadStore_indexedWord]
  · exact .checked (wellFormed_indexedInstr ..) rfl
  all_goals simp (disch := omega) [indexedWord, bit_place_inside, bit_place_outside]

theorem decodesBack_registerOffset (load : BitVec 1) (hne : registerOffsetWord load w xm xn rt ≠ halt) :
    DecodesBack (registerOffsetInstr load w xm xn rt) (decodeWith halt (registerOffsetWord load w xm xn rt)) := by
  rw [decodeWith_loadStore hne, decodeLoadStore_registerOffsetWord]
  · exact .legal (wellFormed_registerOffsetInstr ..) rfl
  all_goals simp (disch := omega) [registerOffsetWord, bit_place_inside, bit_place_outside]

theorem decodesBack_literal {simm19 : BitVec 19} (hne : literalWord w simm19 rt ≠ halt) :
    DecodesBack (.ldrLiteral w simm19 rt) (decodeWith halt (literalWord w simm19 rt)) := by
  rw [decodeWith_loadStore hne, decodeLoadStore_literalWord]
  · exact .legal rfl rfl
  all_goals simp (disch := omega) [literalWord, bit_place_inside, bit_place_outside]

end

/-! ### Decode of encode -/

/-- Each instruction is the one that its opcode fields select in its format. -/
theorem decodesBack_encodeWith {halt : Word} {i : Instr} (hne : encodeWith halt i ≠ halt) :
    DecodesBack i (decodeWith halt (encodeWith halt i)) := by
  cases i with
  | halt => exact absurd rfl hne
  | addImm => exact decodesBack_arithmeticImmediate 0b00#2 hne
  | addsImm => exact decodesBack_arithmeticImmediate 0b01#2 hne
  | subImm => exact decodesBack_arithmeticImmediate 0b10#2 hne
  | subsImm => exact decodesBack_arithmeticImmediate 0b11#2 hne
  | movn => exact decodesBack_wideMove (opc := 0b00#2) (by decide) hne
  | movz => exact decodesBack_wideMove (opc := 0b10#2) (by decide) hne
  | movk => exact decodesBack_wideMove (opc := 0b11#2) (by decide) hne
  | addReg => exact decodesBack_arithmeticRegister 0b00#2 hne
  | addsReg => exact decodesBack_arithmeticRegister 0b01#2 hne
  | subReg => exact decodesBack_arithmeticRegister 0b10#2 hne
  | subsReg => exact decodesBack_arithmeticRegister 0b11#2 hne
  | and => exact decodesBack_logicalRegister 0b00#2 0b0#1 hne
  | bic => exact decodesBack_logicalRegister 0b00#2 0b1#1 hne
  | orr => exact decodesBack_logicalRegister 0b01#2 0b0#1 hne
  | orn => exact decodesBack_logicalRegister 0b01#2 0b1#1 hne
  | eor => exact decodesBack_logicalRegister 0b10#2 0b0#1 hne
  | eon => exact decodesBack_logicalRegister 0b10#2 0b1#1 hne
  | ands => exact decodesBack_logicalRegister 0b11#2 0b0#1 hne
  | bics => exact decodesBack_logicalRegister 0b11#2 0b1#1 hne
  | madd => exact decodesBack_multiply 0b0#1 hne
  | msub => exact decodesBack_multiply 0b1#1 hne
  | b => exact decodesBack_b hne
  | bCond => exact decodesBack_bCond hne
  | br => exact decodesBack_br hne
  | strUnsigned => exact decodesBack_unsignedOffset 0b0#1 hne
  | ldrUnsigned => exact decodesBack_unsignedOffset 0b1#1 hne
  | strPost => exact decodesBack_indexed 0b0#1 0b0#1 hne
  | strPre => exact decodesBack_indexed 0b0#1 0b1#1 hne
  | ldrPost => exact decodesBack_indexed 0b1#1 0b0#1 hne
  | ldrPre => exact decodesBack_indexed 0b1#1 0b1#1 hne
  | strRegister => exact decodesBack_registerOffset 0b0#1 hne
  | ldrRegister => exact decodesBack_registerOffset 0b1#1 hne
  | ldrLiteral => exact decodesBack_literal hne

/-- Settles O10: the halt word is HALT's, and any other word is read back by its format. -/
theorem decodeOfEncode : Obligations.DecodeOfEncode := by
  intro halt i hwf hhalt
  by_cases hne : encodeWith halt i = halt
  · rw [hhalt hne]
    exact decodeWith_self halt
  · cases decodesBack_encodeWith hne with
    | legal _ hd => exact hd
    | illegal _ hw _ => simp [hwf] at hw

/-- Settles O12: the check that fails is the one the decoder makes on the same fields. -/
theorem illFormedWordsRejected : Obligations.IllFormedWordsRejected := by
  intro halt i hwf hne
  cases decodesBack_encodeWith hne with
  | legal hw _ => simp [hwf] at hw
  | illegal why _ hd => exact ⟨why, hd⟩

/-! ### Encode of decode -/

/-- A word that a class of the decoder gives an instruction is the word of that instruction, which is well-formed. -/
structure WordOf (halt : Word) (i : Instr) (w : Word) : Prop where
  wellFormed : i.wellFormed = true
  word : encodeWith halt i = w

section
variable {halt w : Word} {i : Instr}

theorem wordOf_of_decodeDpImmediate (hclass : field w 26 3 = 0b100#3) (h : decodeDpImmediate w = .ok i) :
    WordOf halt i w := by
  by_cases hopi : field w 23 3 = 0b010#3
  · rw [decodeDpImmediate_arithmetic hopi] at h
    cases h
    exact ⟨wellFormed_arithmeticImmediateInstr .., (encodeWith_arithmeticImmediateInstr ..).trans
      (arithmeticImmediateWord_fields_self (field_of_adjacent hclass hopi rfl))⟩
  by_cases hopi' : field w 23 3 = 0b101#3
  · rw [decodeDpImmediate_wideMove hopi'] at h
    split_ifs at h with hopc hlegal <;> cases h
    exact ⟨(wellFormed_wideMoveInstr ..).trans (Bool.of_not_eq_false hlegal), (encodeWith_wideMoveInstr halt hopc ..).trans
      (wideMoveWord_fields_self (field_of_adjacent hclass hopi' rfl))⟩
  · simp [decodeDpImmediate, undef, hopi, hopi'] at h

theorem wordOf_of_decodeDpRegister (hclass : field w 25 3 = 0b101#3) (h : decodeDpRegister w = .ok i) :
    WordOf halt i w := by
  have hform {b28 b24 : Bool} (h28 : bit w 28 = b28) (h24 : bit w 24 = b24) :
      field w 24 5 = BitVec.ofBool b28 ++ (0b101#3 ++ BitVec.ofBool b24) :=
    field_of_adjacent (field_of_bit h28) (field_of_adjacent hclass (field_of_bit h24) rfl) rfl
  cases h28 : bit w 28 with
  | false =>
    cases h24 : bit w 24 with
    | true =>
      rw [decodeDpRegister_arithmetic h28 h24] at h
      split_ifs at h with hamount h21 hshift <;> cases h
      exact ⟨(wellFormed_arithmeticRegisterInstr ..).trans (by simp [hamount, hshift]),
        (encodeWith_arithmeticRegisterInstr ..).trans
          (arithmeticRegisterWord_fields_self (hform h28 h24) (Bool.eq_false_iff.2 h21))⟩
    | false =>
      rw [decodeDpRegister_logical h28 h24] at h
      split_ifs at h with hamount <;> cases h
      exact ⟨(wellFormed_logicalRegisterInstr ..).trans (Bool.of_not_eq_false hamount),
        (encodeWith_logicalRegisterInstr ..).trans (logicalRegisterWord_fields_self (hform h28 h24))⟩
  | true =>
    by_cases hopr : field w 21 4 = 0b1000#4 ∧ field w 29 2 = 0b00#2
    · rw [decodeDpRegister_multiply h28 hopr] at h
      cases h
      have hmultiply : field w 21 8 = 0b1#1 ++ (0b101#3 ++ 0b1000#4) :=
        field_of_adjacent (field_of_bit h28) (field_of_adjacent hclass hopr.1 rfl) rfl
      exact ⟨wellFormed_multiplyInstr .., (encodeWith_multiplyInstr ..).trans
        (multiplyWord_fields_self hopr.2 hmultiply)⟩
    · rw [decodeDpRegister_multiplyForm h28 hopr] at h
      cases h

theorem wordOf_of_decodeBranch (h : decodeBranch w = .ok i) : WordOf halt i w := by
  unfold decodeBranch undef at h
  split_ifs at h with hB hBR hCond
  · cases h
    exact ⟨rfl, branchWord_fields_self hB⟩
  · cases h
    exact ⟨rfl, branchRegisterWord_fields_self hBR.1 hBR.2⟩
  · split at h
    next cond hcond =>
      cases h
      exact ⟨rfl, branchCondWord_fields_self hCond.1 hCond.2 hcond⟩
    next => cases h

theorem wordOf_of_decodeLoadStore (h : decodeLoadStore w = .ok i) : WordOf halt i w := by
  cases h31 : bit w 31 with
  | false =>
    by_cases hop : field w 24 6 = 0b011000#6
    · rw [decodeLoadStore_literal h31 hop] at h
      cases h
      exact ⟨rfl, literalWord_fields_self h31 hop⟩
    · simp [decodeLoadStore, undef, h31, hop] at h
  | true =>
    by_cases hform : field w 25 5 = 0b11100#5 ∧ bit w 23 = false
    · obtain ⟨hop, h23⟩ := hform
      cases h24 : bit w 24 with
      | true =>
        rw [decodeLoadStore_unsignedOffset h31 hop h23 h24] at h
        cases h
        exact ⟨wellFormed_unsignedOffsetInstr .., (encodeWith_unsignedOffsetInstr ..).trans
          (unsignedOffsetWord_fields_self h31 hop h23 h24)⟩
      | false =>
        cases h21 : bit w 21 with
        | true =>
          by_cases hopt : field w 10 6 = 0b011010#6
          · rw [decodeLoadStore_register h31 hop h23 h24 h21 hopt] at h
            cases h
            exact ⟨wellFormed_registerOffsetInstr .., (encodeWith_registerOffsetInstr ..).trans
              (registerOffsetWord_fields_self h31 hop h23 h24 h21 hopt)⟩
          · rw [decodeLoadStore_registerOffset h31 hop h24 h23 h21 hopt] at h
            cases h
        | false =>
          rw [decodeLoadStore_indexed h31 hop h23 h24 h21] at h
          split_ifs at h with h10 hlegal <;> cases h
          exact ⟨(wellFormed_indexedInstr ..).trans (Bool.of_not_eq_false hlegal), (encodeWith_indexedInstr ..).trans
            (indexedWord_fields_self h31 hop h23 h24 h21 (Bool.of_not_eq_false h10))⟩
    · simp only [decodeLoadStore, undef, h31, hform, if_false, Bool.true_eq_false] at h
      cases h

/-- A word that decodes is the word of the instruction given, which is well-formed. -/
theorem wordOf_of_decodeWith (h : decodeWith halt w = .ok i) : WordOf halt i w := by
  by_cases hne : w = halt
  · subst hne
    cases (decodeWith_self w).symm.trans h
    exact ⟨rfl, rfl⟩
  rw [decodeWith, if_neg hne] at h
  split at h
  next hclass => exact wordOf_of_decodeDpImmediate (classOf_eq_dpImmediate.1 hclass) h
  next hclass =>
    obtain ⟨h27, h26, h25⟩ := classOf_eq_dpRegister.1 hclass
    exact wordOf_of_decodeDpRegister (field_of_adjacent (field_of_bit h27)
      (field_of_adjacent (field_of_bit h26) (field_of_bit h25) rfl) rfl) h
  next => exact wordOf_of_decodeLoadStore h
  next => exact wordOf_of_decodeBranch h
  next => cases h

end

/-- Settles O11: each format's word is rebuilt from the fields the decoder read; only the halt test gives HALT. -/
theorem encodeOfDecode : Obligations.EncodeOfDecode := by
  intro halt w i h
  have hword : WordOf halt i w := wordOf_of_decodeWith h
  refine ⟨hword.wellFormed, hword.word, ?_⟩
  rw [← decodeWith_eq_ok_halt, h, Except.ok.injEq]

/-! ### The opcode table's fields -/

theorem hasTableFields (i : Instr) : HasTableFields i := by
  cases i with
  | halt => exact Laws.TableFields.halt
  | addImm => apply Laws.TableFields.addImm
  | addsImm => apply Laws.TableFields.addsImm
  | subImm => apply Laws.TableFields.subImm
  | subsImm => apply Laws.TableFields.subsImm
  | movn => apply Laws.TableFields.movn
  | movz => apply Laws.TableFields.movz
  | movk => apply Laws.TableFields.movk
  | addReg => apply Laws.TableFields.addReg
  | addsReg => apply Laws.TableFields.addsReg
  | subReg => apply Laws.TableFields.subReg
  | subsReg => apply Laws.TableFields.subsReg
  | and => apply Laws.TableFields.and
  | bic => apply Laws.TableFields.bic
  | orr => apply Laws.TableFields.orr
  | orn => apply Laws.TableFields.orn
  | eor => apply Laws.TableFields.eor
  | eon => apply Laws.TableFields.eon
  | ands => apply Laws.TableFields.ands
  | bics => apply Laws.TableFields.bics
  | madd => apply Laws.TableFields.madd
  | msub => apply Laws.TableFields.msub
  | b => apply Laws.TableFields.b
  | bCond => apply Laws.TableFields.bCond
  | br => apply Laws.TableFields.br
  | strUnsigned => apply Laws.TableFields.strUnsigned
  | ldrUnsigned => apply Laws.TableFields.ldrUnsigned
  | strPost => apply Laws.TableFields.strPost
  | strPre => apply Laws.TableFields.strPre
  | ldrPost => apply Laws.TableFields.ldrPost
  | ldrPre => apply Laws.TableFields.ldrPre
  | strRegister => apply Laws.TableFields.strRegister
  | ldrRegister => apply Laws.TableFields.ldrRegister
  | ldrLiteral => apply Laws.TableFields.ldrLiteral

/-- Only HALT's word depends on the halt word. -/
theorem encodeWith_eq_encode (halt : Word) {i : Instr} (h : i ≠ .halt) : encodeWith halt i = encode i := by
  cases i with
  | halt => exact absurd rfl h
  | _ => rfl

/-- Settles O13: the word that decodes is the encoder's, which holds the fields of the row. -/
theorem decodedWordHasTableFields : Obligations.DecodedWordHasTableFields := by
  intro halt w i h f hf
  by_cases hi : i = .halt
  · subst hi
    cases hf
  · rw [← (wordOf_of_decodeWith h).word, encodeWith_eq_encode halt hi]
    exact hasTableFields i f hf

end Sys2Proof
end

section
/-! PROOFS for 40_step_and_halt.md and 60_exceptions.md: what a step can do (R140, R144), the invariant it keeps, the words
that raise `UndefinedInstruction` (R275), and the end of a run (R145). -/

namespace Sys2Proof.Machine

/-! ### A step of a running state (R140) -/

/-- Every instruction has a next state: what cannot be done is taken as an exception (60_exceptions.md R273). -/
theorem exists_exec_eq_next (i : Instr) (s : State) : ∃ t, exec i s = .next t := by
  rcases exec_cases i s with ⟨_, he⟩ | ⟨_, hc⟩
  · exact ⟨_, he⟩
  · cases hc with
    | undefined _ he => exact ⟨_, he⟩
    | bound _ _ _ _ _ he => exact ⟨_, he⟩
    | done t he _ => exact ⟨t, he⟩

theorem exists_cycle_eq_next (halt : Word) (s : State) : ∃ t, cycle halt s = .next t := by
  rcases cycle_cases halt s with ⟨w, _, hcycle⟩ | ⟨_, hcycle⟩
  · rcases execWord_cases halt w s with ⟨i, _, hword⟩ | ⟨r, _, hword⟩
    · rw [hcycle, hword]
      exact exists_exec_eq_next i s
    · exact ⟨_, hcycle.trans hword⟩
  · exact ⟨_, hcycle⟩

/-- Settles O20: the record and `halted` stop a step, and a running state's cycle has a next state in each of its ways. -/
theorem onlyTerminalStatesStop : Obligations.OnlyTerminalStatesStop := by
  refine fun halt s => ⟨fun r => stepWith_of_faulted halt, stepWith_of_halted halt, fun hr => ?_⟩
  rw [stepWith_of_running halt hr]
  exact exists_cycle_eq_next halt s

/-- Settles O19: the bound check picks the case, and inside memory the decoder's answer for the four bytes at `pc`. -/
theorem stepRunsDecodedInstruction : Obligations.StepRunsDecodedInstruction := by
  refine ⟨fun _ => rfl, fun halt s hr => ⟨stepWith_of_pc_outside halt hr, fun w hin hw => ?_⟩⟩
  have hf : s.fetch = .ok w := by rw [hw, fetch_eq_wordOfBytes hin]
  refine ⟨?halted, fun i hd => ⟨(wordOf_of_decodeWith hd).wellFormed, ?ran⟩, stepWith_of_rejected hr hf,
    fun _ => stepWith_of_rejected hr hf⟩
  case halted =>
    rintro rfl
    exact stepWith_of_fetch_halt hr hf
  case ran => simp only [stepWith_of_running halt hr, cycle, hf, execWord, hd]

/-! ### What a decoded instruction can raise -/

/-- A decoded instruction passes its format's checks, so only its access can raise (60_exceptions.md R276). -/
theorem bound_of_exec {i : Instr} {s t : State} {c : Cause} (hw : i.wellFormed = true) (hn : s.fault = none)
    (h : exec i s = .next t) (ht : t = s.raise c) :
    ∃ (addr : DWord) (w : Width) (kind : AccessKind), kind ≠ .fetch ∧ inBounds addr w.bytes = false ∧
      c = .memoryBoundViolation addr w.bytes kind := by
  have hfault : t.fault = some { cause := c, pc := s.pc } := congrArg State.fault ht
  rcases exec_cases i s with ⟨_, he⟩ | ⟨_, hc⟩
  · cases he.symm.trans h
    simp [hn] at hfault
  · cases hc with
    | undefined hill _ => simp [hw] at hill
    | bound addr w kind hk hb he =>
      cases he.symm.trans h
      have hcause : Cause.memoryBoundViolation addr w.bytes kind = c := by simpa using hfault
      exact ⟨addr, w, kind, hk, hb, hcause.symm⟩
    | done u he hu =>
      cases he.symm.trans h
      simp [hu.fault, hn] at hfault

/-- Of the exceptions a step can take, the decoder's rejection by a format alone is `UndefinedInstruction`. -/
theorem stepWith_eq_raise_undefinedInstruction {halt w : Word} {s : State} (hr : s.Running) (hf : s.fetch = .ok w) :
    stepWith halt s = .next (s.raise (.undefinedInstruction w)) ↔
      ∃ why, decodeWith halt w = .error (.undefinedInstruction why) := by
  refine ⟨fun h => ?_, fun ⟨_, hd⟩ => stepWith_of_rejected hr hf hd⟩
  obtain ⟨_, hc⟩ := stepCases_of_stepWith h
  cases hc with
  | fetchRaised c hfetch _ => cases hf.symm.trans hfetch
  | rejected v r hfetch hd hraise =>
    cases hf.symm.trans hfetch
    have hcause : Cause.undefinedInstruction w = rejectCause w r := by simpa using congrArg State.fault hraise
    cases r with
    | unknownClass => cases hcause
    | undefinedInstruction why => exact ⟨why, hd⟩
  | ran v i _ hd he =>
    obtain ⟨_, _, _, _, _, hcause⟩ := bound_of_exec (wordOf_of_decodeWith hd).wellFormed hr.2 he rfl
    cases hcause

/-- The decoder rejects as undefined exactly the words of a class that no well-formed instruction has. -/
theorem decodeWith_eq_undefined_iff {halt w : Word} :
    (∃ why, decodeWith halt w = .error (.undefinedInstruction why)) ↔
      w ≠ halt ∧ classOf w ≠ none ∧ ¬∃ i : Instr, i.wellFormed = true ∧ encodeWith halt i = w := by
  constructor
  · rintro ⟨why, hd⟩
    have hne : w ≠ halt := by rintro rfl; simp at hd
    refine ⟨hne, fun hclass => ?recognised, ?noWord⟩
    case recognised => cases hd.symm.trans (decodeWith_eq_unknownClass.2 ⟨hne, hclass⟩)
    case noWord =>
      rintro ⟨i, hwf, rfl⟩
      cases hd.symm.trans (decodeOfEncode halt i hwf fun h => absurd h hne)
  · rintro ⟨hne, hclass, hno⟩
    cases hd : decodeWith halt w with
    | ok i => exact absurd ⟨i, (wordOf_of_decodeWith hd).wellFormed, (wordOf_of_decodeWith hd).word⟩ hno
    | error r =>
      cases r with
      | unknownClass => exact absurd (decodeWith_eq_unknownClass.1 hd).2 hclass
      | undefinedInstruction why => exact ⟨why, rfl⟩

/-- Settles O15: the step raises `UndefinedInstruction` exactly if the decoder rejects the word by a format, which it does
exactly for the words of a class that no well-formed instruction has. -/
theorem undefinedInstructionWords : Obligations.UndefinedInstructionWords := by
  intro halt w s hr hf
  rw [← classOf_eq_none]
  exact (stepWith_eq_raise_undefinedInstruction hr hf).trans decodeWith_eq_undefined_iff

/-! ### The invariant -/

@[simp] theorem fetch_raise (s : State) (c : Cause) : (s.raise c).fetch = s.fetch := rfl

/-- A running state whose cycle raises a cause that is true of it comes to a state with the invariant. -/
theorem inv_raise {halt : Word} {s : State} {c : Cause} (hi : s.Inv halt) (hr : s.Running)
    (hc : cycle halt s = .next (s.raise c)) (hsound : FaultRecord.Sound halt { cause := c, pc := s.pc } (s.raise c)) :
    (s.raise c).Inv halt where
  memory := hi.memory
  haltedOnHaltWord h := by simp [hr.1] at h
  faultSound r hf := by
    obtain rfl : { cause := c, pc := s.pc } = r := by simpa using hf
    exact hsound
  faultRaised r _ := by rw [State.raise_cleared hr.2, hc]

/-- A state without a fault has the invariant if its memory is canonical and it is halted on the halt word only. -/
theorem inv_of_no_fault {halt : Word} {t : State} (hmem : t.mem.wf = true) (hn : t.fault = none)
    (hhalt : t.halted = true → t.fetch = .ok halt) : t.Inv halt where
  memory := hmem
  haltedOnHaltWord h := ⟨hn, hhalt h⟩
  faultSound r hf := by simp [hn] at hf
  faultRaised r hf := by simp [hn] at hf

theorem memSize_lt_of_inBounds_eq_false {addr : DWord} {n : Nat} (h : inBounds addr n = false) :
    Config.memSize < addr.toNat + n := by
  simpa [inBounds] using h

/-- A decoded instruction keeps the invariant: it raises for its access, halts on the halt word, or completes. -/
theorem inv_exec {halt w : Word} {i : Instr} {s t : State} (hi : s.Inv halt) (hr : s.Running) (hf : s.fetch = .ok w)
    (hd : decodeWith halt w = .ok i) (he : exec i s = .next t) : t.Inv halt := by
  have hcycle : cycle halt s = .next t := by simp only [cycle, hf, execWord, hd, he]
  rcases exec_cases i s with ⟨rfl, hhalt⟩ | ⟨_, hc⟩
  · obtain rfl : w = halt := decodeWith_eq_ok_halt.1 hd
    cases hhalt.symm.trans he
    exact inv_of_no_fault hi.memory hr.2 fun _ => hf
  · cases hc with
    | undefined hill _ => simp [(wordOf_of_decodeWith hd).wellFormed] at hill
    | bound addr v kind hk hb hbound =>
      cases hbound.symm.trans he
      refine inv_raise hi hr hcycle ⟨rfl, ?_, memSize_lt_of_inBounds_eq_false hb, ?_, fun h => absurd h hk⟩
      · cases v <;> simp
      · simp [hf, hk]
    | done u hdone hu =>
      cases hdone.symm.trans he
      exact inv_of_no_fault (hu.wf hi.memory) (hu.fault.trans hr.2) fun h => by simp [hu.halted, hr.1] at h

/-- Each way a step can go keeps the invariant. -/
theorem StepCases.inv {halt : Word} {s t : State} (h : StepCases halt s t) (hi : s.Inv halt) (hr : s.Running) :
    t.Inv halt := by
  cases h with
  | fetchRaised c hf ht =>
    subst ht
    have hcycle : cycle halt s = .next (s.raise c) := by simp only [cycle, hf]
    rcases fetch_cases s with ⟨_, he⟩ | ⟨hb, he⟩
    · cases he.symm.trans hf
    · cases he.symm.trans hf
      exact inv_raise hi hr hcycle
        ⟨rfl, .inl rfl, memSize_lt_of_inBounds_eq_false hb, by simp [he], fun _ => ⟨rfl, rfl⟩⟩
  | rejected w r hf hd ht =>
    subst ht
    have hcycle : cycle halt s = .next (s.raise (rejectCause w r)) := by simp only [cycle, hf, execWord, hd]
    cases r with
    | unknownClass => exact inv_raise hi hr hcycle ⟨rfl, hf, decodeWith_eq_unknownClass.1 hd⟩
    | undefinedInstruction why =>
      obtain ⟨hne, hclass, _⟩ := decodeWith_eq_undefined_iff.1 ⟨why, hd⟩
      exact inv_raise hi hr hcycle ⟨rfl, hf, hne, hclass, why, hd⟩
  | ran w i hf hd he => exact inv_exec hi hr hf hd he

/-- Settles O21: the fetch, the decoder and the instruction each keep the invariant, for every halt word. -/
theorem stepKeepsInvariant : Obligations.StepKeepsInvariant := by
  have hkeeps (halt : Word) (s t : State) (hi : s.Inv halt) (h : stepWith halt s = .next t) : t.Inv halt := by
    obtain ⟨hr, hc⟩ := stepCases_of_stepWith h
    exact hc.inv hi hr
  exact ⟨hkeeps, hkeeps haltWord⟩

/-! ### The end of a run (R144, R145) -/

theorem runEnd_eq_normal {s t : State} : s.runEnd = .normal t ↔ s = t ∧ s.halted = true ∧ s.fault = none := by
  unfold State.runEnd
  cases s.fault <;> cases s.halted <;> simp

theorem runEnd_eq_error {s t : State} {r : FaultRecord} : s.runEnd = .error t r ↔ s = t ∧ s.fault = some r := by
  unfold State.runEnd
  cases s.fault <;> cases s.halted <;> simp

/-- The run is over: more cycles are of no effect. -/
theorem runWith_of_no_step {halt : Word} {s : State} (h : ∀ t, stepWith halt s ≠ .next t) (k : Nat) :
    runWith halt k s = s.runEnd := by
  cases k with
  | zero => rfl
  | succ k =>
    rw [runWith]
    split
    next t ht => exact absurd ht (h t)
    next => rfl

theorem runWith_of_step {halt : Word} {s t : State} (h : stepWith halt s = .next t) (k : Nat) :
    runWith halt (k + 1) s = runWith halt k t := by
  rw [runWith, h]

/-- A state that ends a run has no further step. -/
theorem no_step_of_ended {halt : Word} {s : State} (h : ∀ t, s.runEnd ≠ .running t) (t : State) :
    stepWith halt s ≠ .next t := by
  intro ht
  obtain ⟨⟨hs, hn⟩, _⟩ := stepCases_of_stepWith ht
  exact h s (by simp [State.runEnd, hs, hn])

/-- An end other than a count that ran out is that of some state, and stays the end with more cycles. -/
theorem runWith_ended {halt : Word} {k : Nat} {s : State} {e : RunEnd} (h : runWith halt k s = e)
    (he : ∀ t, e ≠ .running t) : (∀ m, runWith halt (k + m) s = e) ∧ ∃ u : State, u.runEnd = e := by
  induction k generalizing s with
  | zero =>
    have hs : s.runEnd = e := h
    exact ⟨fun m => (runWith_of_no_step (no_step_of_ended (hs ▸ he)) _).trans hs, s, hs⟩
  | succ k ih =>
    by_cases hstep : ∃ t, stepWith halt s = .next t
    · obtain ⟨t, ht⟩ := hstep
      obtain ⟨hmore, hend⟩ := ih ((runWith_of_step ht k).symm.trans h)
      exact ⟨fun m => by rw [Nat.succ_add, runWith_of_step ht, hmore], hend⟩
    · have hno : ∀ t, stepWith halt s ≠ .next t := not_exists.1 hstep
      have hs : s.runEnd = e := (runWith_of_no_step hno _).symm.trans h
      exact ⟨fun m => (runWith_of_no_step hno _).trans hs, s, hs⟩

/-- A run is safe if it has no fault now and is safe from the next state, if there is one. -/
theorem safeRun_iff {halt : Word} {s : State} :
    SafeRun halt s ↔ s.fault = none ∧ ∀ t, stepWith halt s = .next t → SafeRun halt t := by
  constructor
  · refine fun h => ⟨?now, fun t ht k u r hu => h (k + 1) u r ((runWith_of_step ht k).trans hu)⟩
    case now =>
      by_contra hn
      obtain ⟨r, hr⟩ := Option.ne_none_iff_exists'.1 hn
      exact h 0 s r (runEnd_eq_error.2 ⟨rfl, hr⟩)
  · rintro ⟨hn, hnext⟩ k u r hu
    have hend : s.runEnd ≠ .error u r := fun he => by simp [(runEnd_eq_error.1 he).2] at hn
    by_cases hstep : ∃ t, stepWith halt s = .next t
    · obtain ⟨t, ht⟩ := hstep
      cases k with
      | zero => exact hend hu
      | succ k => exact hnext t ht k u r ((runWith_of_step ht k).symm.trans hu)
    · exact hend ((runWith_of_no_step (not_exists.1 hstep) k).symm.trans hu)

/-- Settles O31: an end stays by `runWith_ended`, and the state it names is the one whose `halted` and `fault` say so. -/
theorem runEndIsFinal : Obligations.RunEndIsFinal := by
  refine fun halt s => ⟨fun k m t h => ?normal, fun k m t r h => ?error, safeRun_iff⟩
  case normal =>
    obtain ⟨hmore, u, hu⟩ := runWith_ended h (by simp)
    obtain ⟨rfl, hhalted, hfault⟩ := runEnd_eq_normal.1 hu
    exact ⟨hmore m, hhalted, hfault⟩
  case error =>
    obtain ⟨hmore, u, hu⟩ := runWith_ended h (by simp)
    obtain ⟨rfl, hfault⟩ := runEnd_eq_error.1 hu
    exact ⟨hmore m, hfault⟩

end Sys2Proof.Machine
end

section
/-! PROOFS for 10_state.md and 20_memory.md: the frame of every instruction (R25, R28, R30), the register file (R22, R23),
accesses of two widths to one place (R60), and the store that the next fetch sees (R66). -/

namespace Sys2Proof.Machine

/-! ### Flags and `pc` -/

/-- Settles O25: HALT and an exception leave the flags, and a completed instruction writes them only if it is one of the
six. -/
theorem flagsWrittenOnlyByFlagSetters : Obligations.FlagsWrittenOnlyByFlagSetters := by
  intro i s t hset h
  rcases exec_cases i s with ⟨_, he⟩ | ⟨_, hc⟩
  · cases he.symm.trans h
    rfl
  · cases hc with
    | undefined _ he => cases he.symm.trans h; rfl
    | bound _ _ _ _ _ he => cases he.symm.trans h; rfl
    | done u he hu => cases he.symm.trans h; exact hu.flags hset

theorem aligned_add_four {a : DWord} (h : a.toNat % 4 = 0) : (a + 4#64).toNat % 4 = 0 := by
  rw [BitVec.toNat_add, BitVec.toNat_ofNat]
  omega

/-- A word offset keeps the alignment of `pc` (30_encoding.md R108, R109). -/
theorem aligned_pcRelative {s : State} {n : Nat} (v : BitVec n) (h : s.pc.toNat % 4 = 0) :
    (s.pcRelative v).toNat % 4 = 0 := by
  have := s.toNat_pcRelative v
  omega

/-- Settles O28: B and B.cond add a word offset, every other completed instruction 4, and HALT and an exception nothing. -/
theorem pcAlignmentKept : Obligations.PcAlignmentKept := by
  intro i s t hbr hpc h
  by_cases hset : setsPc i = true
  · cases i with
    | b simm26 => cases h; exact aligned_pcRelative simm26 hpc
    | bCond simm19 cond =>
      simp only [exec, execBCond] at h
      cases h
      split
      · exact aligned_pcRelative simm19 hpc
      · exact aligned_add_four hpc
    | br xn => exact absurd rfl (hbr xn)
    | _ => cases hset
  · rcases exec_cases i s with ⟨_, he⟩ | ⟨_, hc⟩
    · cases he.symm.trans h; exact hpc
    · cases hc with
      | undefined _ he => cases he.symm.trans h; exact hpc
      | bound _ _ _ _ _ he => cases he.symm.trans h; exact hpc
      | done u he hu =>
        cases he.symm.trans h
        rw [hu.pc (Bool.eq_false_iff.2 hset)]
        exact aligned_add_four hpc

/-! ### Stores, in every form -/

/-- An STR of any form is a store at its effective address, with a write-back that writes no memory (44_load_store.md
R251). -/
theorem exec_of_storeTarget {i : Instr} {s : State} {addr : DWord} {w : Width} {rt : Reg}
    (h : storeTarget i s = some (addr, w, rt)) :
    ∃ back writes, WritesBack back writes ∧ exec i s = ifLegal i s (storeThen w addr rt back s) := by
  cases i with
  | strUnsigned => cases h; exact ⟨id, [], .none, rfl⟩
  | strRegister => cases h; exact ⟨id, [], .none, rfl⟩
  | strPre w simm9 xn rt => cases h; exact ⟨_, _, .base xn (s.indexedAddress xn simm9), rfl⟩
  | strPost w simm9 xn rt => cases h; exact ⟨_, _, .base xn (s.indexedAddress xn simm9), rfl⟩
  | _ => cases h

theorem exists_storeTarget {i : Instr} (s : State) (h : writesMemory i = true) :
    ∃ addr w rt, storeTarget i s = some (addr, w, rt) := by
  cases i with
  | strUnsigned => exact ⟨_, _, _, rfl⟩
  | strRegister => exact ⟨_, _, _, rfl⟩
  | strPre => exact ⟨_, _, _, rfl⟩
  | strPost => exact ⟨_, _, _, rfl⟩
  | _ => cases h

/-- An STR leaves every byte outside those it stores to, also when it raises. -/
theorem byte_of_storeTarget {i : Instr} {s t : State} {addr : DWord} {w : Width} {rt : Reg}
    (hstore : storeTarget i s = some (addr, w, rt)) (h : exec i s = .next t) (hwf : s.mem.wf = true) {a : Nat}
    (ha : a < addr.toNat ∨ addr.toNat + w.bytes ≤ a) : t.mem.byte a = s.mem.byte a := by
  obtain ⟨back, writes, hback, hi⟩ := exec_of_storeTarget hstore
  rcases ifLegal_cases i s (storeThen w addr rt back s) with ⟨_, he⟩ | ⟨_, he⟩
  · exact byte_storeThen hback.mem hwf ((hi.trans he).symm.trans h) ha
  · cases (hi.trans he).symm.trans h
    rfl

/-! ### The frame of every instruction -/

/-- What every instruction keeps, completed or not (10_state.md R25; 60_exceptions.md R273). -/
structure Kept (i : Instr) (s t : State) : Prop where
  regs : ∀ r, r ∉ writtenRegs i → t.readReg r = s.readReg r
  mem : writesMemory i = false → t.mem = s.mem
  wf : s.mem.wf = true → t.mem.wf = true

theorem kept_of_exec {i : Instr} {s t : State} (h : exec i s = .next t) : Kept i s t := by
  rcases exec_cases i s with ⟨_, he⟩ | ⟨_, hc⟩
  · cases he.symm.trans h
    exact ⟨by simp, fun _ => rfl, id⟩
  · cases hc with
    | undefined _ he => cases he.symm.trans h; exact ⟨by simp, fun _ => rfl, id⟩
    | bound _ _ _ _ _ he => cases he.symm.trans h; exact ⟨by simp, fun _ => rfl, id⟩
    | done u he hu => cases he.symm.trans h; exact ⟨hu.regs, hu.mem, hu.wf⟩

/-- Settles O29: registers and memory by `exec_cases`, the bytes of an STR by its form. -/
theorem frameOfEveryInstruction : Obligations.FrameOfEveryInstruction := by
  intro i s t h
  have hk : Kept i s t := kept_of_exec h
  exact ⟨hk.regs, rfl, hk.mem, hk.wf, exists_storeTarget s, fun _ _ _ hstore hwf _ => byte_of_storeTarget hstore h hwf⟩

/-! ### The register file (R22, R23) -/

/-- Settles O5: one read after one write, at 64 bits and at a width. -/
theorem registerFileLaws : Obligations.RegisterFileLaws := by
  intro s r q w v u
  refine ⟨rfl, rfl, fun hr => ?same, s.readReg_writeReg_ne v, s.toNat_readRegAt w r, fun hr => ?sameAt,
    s.readReg_writeReg_ne _, s.writeReg_pc r v, s.writeReg_flags r v, s.writeReg_mem r v, s.writeReg_halted r v,
    s.writeReg_fault r v⟩
  case same => rw [State.readReg_writeReg, if_neg hr, if_pos rfl]
  case sameAt => rw [State.readReg_writeRegAt, if_neg hr, if_pos rfl, BitVec.toNat_setWidth_of_le (width_bits_le w)]

/-! ### Bytes of a width -/

theorem bytes_cases (w : Width) : w.bytes = 4 ∨ w.bytes = 8 := by cases w <;> decide

/-! ### Two widths at one place (20_memory.md R60) -/

/-- Eight bytes are the four at the higher addresses above the four at the lower. -/
theorem Memory.readBytes_eight (m : Memory) (a : Nat) :
    m.readBytes a 64 8 = m.readBytes (a + 4) 32 4 ++ m.readBytes a 32 4 := by
  apply BitVec.eq_of_getLsbD_eq
  intro i hi
  rw [BitVec.getLsbD_append]
  simp only [Memory.getLsbD_readBytes]
  by_cases hlow : i < 32
  · simp [hlow, hi]
  · have hdiv : a + 4 + (i - 32) / 8 = a + i / 8 := by omega
    have hmod : (i - 32) % 8 = i % 8 := by omega
    have hhigh : i - 32 < 32 := by omega
    simp [hlow, hi, hdiv, hmod, hhigh]

/-- The four bytes from byte `j` on of the run written are those of the value. -/
theorem Memory.readBytes_writeBytes_four {m : Memory} (h : m.wf = true) {a n : Nat} {k : Nat} (v : BitVec k)
    (hb : a + n ≤ Config.memSize) {j : Nat} (hj : j + 4 ≤ n) :
    (m.writeBytes a v n).readBytes (a + j) 32 4 = v.extractLsb' (8 * j) 32 := by
  apply BitVec.eq_of_getLsbD_eq
  intro i hi
  have hbyte : a + j + i / 8 = a + (j + i / 8) := Nat.add_assoc ..
  have hbit : 8 * (j + i / 8) + i % 8 = 8 * j + i := by omega
  rw [Memory.getLsbD_readBytes, hbyte, Memory.byte_writeBytes_inside h a v hb (by omega), BitVec.getLsbD_extractLsb',
    BitVec.getLsbD_extractLsb', hbit]
  simp [hi, Nat.mod_lt]

/-- Settles O8: each value is compared byte by byte, the eight-byte one as two of four. -/
theorem mixedWidthAccesses : Obligations.MixedWidthAccesses := by
  intro s a kind hwf hin
  have hmem : Config.memSize = 0x200000 := rfl
  have hlow : a.toNat + 4 ≤ Config.memSize := by omega
  have h4 : (a + 4#64).toNat = a.toNat + 4 := by
    rw [BitVec.toNat_add, BitVec.toNat_ofNat]
    omega
  have hread8 (u : State) : u.memRead a .w64 kind = .ok (u.mem.readBytes a.toNat 64 8) :=
    u.memRead_of_le (w := .w64) kind hin
  have hreadLow (u : State) : u.memRead a .w32 kind = .ok (u.mem.readBytes a.toNat 32 4) :=
    u.memRead_of_le (w := .w32) kind hlow
  have hreadHigh (u : State) : u.memRead (a + 4#64) .w32 kind = .ok (u.mem.readBytes (a.toNat + 4) 32 4) := by
    rw [u.memRead_of_le (w := .w32) kind (h4 ▸ hin), h4]
  refine ⟨fun v => ⟨_, s.memWrite_of_le (w := .w64) v hin, ?_⟩,
    fun u => ⟨_, _, s.memWrite_of_le (w := .w32) u hlow, hreadHigh s, ?_⟩⟩
  · simp only [hread8, hreadLow, hreadHigh, State.setMem_mem]
    exact ⟨congrArg Except.ok (Memory.readBytes_writeBytes hwf a.toNat 8 v hin),
      congrArg Except.ok (Memory.readBytes_writeBytes_four hwf v hin (j := 0) (by decide)),
      congrArg Except.ok (Memory.readBytes_writeBytes_four hwf v hin (j := 4) (by decide))⟩
  · have hhigh : (s.mem.writeBytes a.toNat u 4).readBytes (a.toNat + 4) 32 4 = s.mem.readBytes (a.toNat + 4) 32 4 :=
      Memory.readBytes_congr 32 fun j _ => Memory.byte_writeBytes_outside hwf u hlow (by omega)
    rw [hread8, State.setMem_mem, Memory.readBytes_eight, hhigh, Memory.readBytes_writeBytes hwf a.toNat 4 u hlow]

/-! ### The store that the next fetch sees (20_memory.md R66) -/

theorem Effect.running {s t : State} {writes : List (Reg × DWord)} {pc : DWord} {flags : Flags}
    (h : Effect s t writes pc flags) (hr : s.Running) : t.Running :=
  ⟨h.halted.trans hr.1, h.fault.trans hr.2⟩

/-- Settles O9: the store completes, and the cycle after it fetches the bytes it left. -/
theorem storeIsSeenByNextFetch : Obligations.StoreIsSeenByNextFetch := by
  intro halt i s addr w rt byteAfter hr hwf hwell hstore hin hpcin hbyteAfter
  obtain ⟨back, writes, hback, hi⟩ := exec_of_storeTarget hstore
  obtain ⟨t, hexec, hstored, heffect⟩ := completes_of_store hback (exec_of_ifLegal hi hwell) hwf hin
  have hbyte (a : Nat) : t.mem.byte a = byteAfter a := (hstored a).trans (hbyteAfter a).symm
  have hrt : t.Running := heffect.running hr
  have htin : t.pc.toNat + 4 ≤ Config.memSize := by rw [heffect.pc]; exact hpcin
  refine ⟨t, hexec, heffect.pc, ?word, fun haddr => ?wholeWord⟩
  case word => rw [stepWith_of_pc_inside halt hrt htin, heffect.pc, hbyte, hbyte, hbyte, hbyte]
  case wholeWord =>
    refine stepWith_of_bytes_at_pc halt hrt htin fun j hj => ?_
    have hinside : addr.toNat ≤ addr.toNat + j ∧ addr.toNat + j < addr.toNat + w.bytes := by
      have := bytes_cases w
      omega
    rw [heffect.pc, ← haddr, hstored, if_pos hinside, Nat.add_sub_cancel_left]
    apply BitVec.eq_of_getLsbD_eq
    intro l hl
    have hlow : 8 * j + l < 32 := by omega
    rw [BitVec.getLsbD_extractLsb', getLsbD_field, bit, BitVec.getLsbD_extractLsb', Nat.zero_add, decide_eq_true hlow,
      Bool.true_and]

end Sys2Proof.Machine
end

section
/-! PROOFS for 70_reset_and_hazards.md: the image that is too long (R302), the invariant at reset (R300), and the word the
host places (log entry 6). -/

namespace Sys2Proof.Machine

theorem loadImage_of_too_long {image : List Byte} (h : Config.memSize < image.length) :
    loadImage image = .refused (.imageTooLong image.length) := if_neg (Nat.not_le.2 h)

/-- Settles O4: the length alone decides. -/
theorem oversizedImageRefused : Obligations.OversizedImageRefused :=
  fun _ => ⟨loadImage_of_too_long, fun h => ⟨_, loadImage_of_fits h⟩⟩

theorem inv_of_loadImage {halt : Word} {image : List Byte} {s : State} (h : loadImage image = .next s) : s.Inv halt := by
  by_cases hfits : image.length ≤ Config.memSize
  · cases (loadImage_of_fits hfits).symm.trans h
    have hend : Config.loadBase + image.length ≤ Config.memSize := by rwa [Config.loadBase, Nat.zero_add]
    exact inv_of_no_fault (wfFrom_imageMemory Config.loadBase image hend) rfl fun hhalted => nomatch hhalted
  · cases (loadImage_of_too_long (Nat.not_le.1 hfits)).symm.trans h

/-- Settles O22: an image that fits gives canonical memory, and nothing is halted or faulted; reset is the empty image. -/
theorem invariantHoldsAtReset : Obligations.InvariantHoldsAtReset :=
  have hreset : loadImage [] = .next State.reset := loadImage_of_fits (Nat.zero_le _)
  ⟨inv_of_loadImage hreset, hreset, fun _ _ _ => inv_of_loadImage⟩

/-! ### The word the host places -/

theorem State.withFetchWord_pc_inside (s : State) (nbits w : Nat) :
    (s.withFetchWord nbits w).pc.toNat + 4 ≤ Config.memSize := by
  have hreset : Config.resetPc.toNat + 4 ≤ Config.memSize := by decide
  unfold State.withFetchWord
  split
  next h => exact (inBounds_iff s.pc 4).1 h
  next => exact hreset

/-- Settles O30: the word placed is written at the `pc` fetched from, which is inside memory. -/
theorem fetchWordIsRunNext : Obligations.FetchWordIsRunNext := by
  intro s nbits w hwf
  have hin := s.withFetchWord_pc_inside nbits w
  refine ⟨stepWith_of_bytes_at_pc haltWord ⟨rfl, rfl⟩ hin fun i hi => ?_, fun r => by cases r <;> rfl, rfl, fun h => ?_⟩
  · exact Memory.byte_writeBytes_inside hwf _ _ hin hi
  · exact if_pos ((inBounds_iff s.pc 4).2 h)

end Sys2Proof.Machine
end

section
/-! PROOFS for 10_state.md section 4 and 43_branch.md section 2: the flags of `AddSub` (R33) as formulas on numbers and as
statements about exact integers, and the conditions (R222). -/

namespace Sys2Proof.Machine

/-! ### Signed results, exact or wrapped -/

/-- An integer within one modulus of zero, reduced to the symmetric range: itself, or one modulus away. -/
theorem bmod_cases {m : Nat} (hm : 0 < m) (heven : m % 2 = 0) {d : Int} (hlo : -(m : Int) ≤ d) (hhi : d < m) :
    (-(m : Int) ≤ 2 * d ∧ 2 * d < m ∧ d.bmod m = d) ∨ ((m : Int) ≤ 2 * d ∧ d.bmod m = d - m) ∨
      (2 * d < -(m : Int) ∧ d.bmod m = d + m) := by
  by_cases h1 : (m : Int) ≤ 2 * d
  · exact .inr (.inl ⟨h1, (Int.bmod_eq_iff hm).2 ⟨by omega, by omega, ⟨-1, by ring⟩⟩⟩)
  by_cases h2 : 2 * d < -(m : Int)
  · exact .inr (.inr ⟨h2, (Int.bmod_eq_iff hm).2 ⟨by omega, by omega, ⟨1, by ring⟩⟩⟩)
  · exact .inl ⟨by omega, by omega, (Int.bmod_eq_iff hm).2 ⟨by omega, by omega, ⟨0, by ring⟩⟩⟩

/-- The signed bounds of a value, in the one form that `omega` can use for every width. -/
theorem toInt_bounds {n : Nat} (a : BitVec n) :
    -((2 ^ n : Nat) : Int) ≤ 2 * a.toInt ∧ 2 * a.toInt < ((2 ^ n : Nat) : Int) := by
  push_cast
  exact ⟨a.le_two_mul_toInt, a.two_mul_toInt_lt⟩

theorem two_pow_even {n : Nat} (hn : 0 < n) : 2 ^ n % 2 = 0 := by
  obtain ⟨k, rfl⟩ := Nat.exists_eq_succ_of_ne_zero hn.ne'
  exact Nat.mul_mod_left (2 ^ k) 2

/-! ### The four flags of an addition and a subtraction (R33, D7) -/

section
variable {n : Nat} (a b : BitVec n)

/-- V of an addition: both operands have one sign, and the result the other. -/
theorem addWithFlags_v_iff (hn : 0 < n) :
    (addWithFlags a b).flags.v = true ↔ (a + b).toInt ≠ a.toInt + b.toInt := by
  have ha := toInt_bounds a
  have hb := toInt_bounds b
  have hcases := bmod_cases (Nat.two_pow_pos n) (two_pow_even hn) (d := a.toInt + b.toInt) (by omega) (by omega)
  simp only [addWithFlags, BitVec.msb_eq_toInt, BitVec.toInt_add, Bool.and_eq_true, beq_iff_eq, bne_iff_ne, ne_eq,
    decide_eq_decide]
  omega

/-- V of a subtraction: the operands have two signs, and the result not that of the first. -/
theorem subWithFlags_v_iff (hn : 0 < n) :
    (subWithFlags a b).flags.v = true ↔ (a - b).toInt ≠ a.toInt - b.toInt := by
  have ha := toInt_bounds a
  have hb := toInt_bounds b
  have hcases := bmod_cases (Nat.two_pow_pos n) (two_pow_even hn) (d := a.toInt - b.toInt) (by omega) (by omega)
  simp only [subWithFlags, BitVec.msb_eq_toInt, BitVec.toInt_sub, Bool.and_eq_true, bne_iff_ne, ne_eq, decide_eq_decide]
  omega

/-- C of an addition: the unsigned sum does not fit. -/
theorem addWithFlags_c_iff : (addWithFlags a b).flags.c = true ↔ (a + b).toNat ≠ a.toNat + b.toNat := by
  simp only [addWithFlags, decide_eq_true_eq, BitVec.toNat_add, ne_eq, Nat.mod_eq_iff_lt (Nat.two_pow_pos n).ne', not_lt]

theorem toNat_sub_exact : ((a - b).toNat : Int) = ((a.toNat : Int) - b.toNat) % 2 ^ n := by
  rw [BitVec.toNat_sub, ← Int.add_emod_right ((a.toNat : Int) - b.toNat)]
  push_cast [b.isLt.le]
  congr 1
  ring

end

/-- Settles O54: unsigned facts from the sum or difference as a number, V from the signed bounds of the operands. -/
theorem addSubFlagsMeaning : Obligations.AddSubFlagsMeaning := by
  rintro w a b isSub _ rfl
  have hw : 0 < w.bits := by cases w <;> decide
  refine ⟨?sum, ?difference, ?sign, ?zero⟩
  case sum =>
    rintro rfl
    exact ⟨toNat_addSub_false a b, addWithFlags_c_iff a b, addWithFlags_v_iff a b hw⟩
  case difference =>
    rintro rfl
    exact ⟨toNat_sub_exact a b, decide_eq_true_iff, subWithFlags_v_iff a b hw⟩
  case sign =>
    cases isSub <;> simp [addSub, addWithFlags, subWithFlags, BitVec.msb_eq_toInt]
  case zero =>
    cases isSub <;> simp [addSub, addWithFlags, subWithFlags, ← BitVec.toNat_inj]

/-! ### Conditions after a compare (43_branch.md R222) -/

section
variable {n : Nat} (a b : BitVec n)

theorem subWithFlags_z_iff : (subWithFlags a b).flags.z = true ↔ a.toInt = b.toInt := by
  simp only [subWithFlags, decide_eq_true_eq, BitVec.toInt_inj]
  exact sub_eq_zero

/-- N differs from V exactly if the exact difference is negative, whether or not it fits (R222, D26). -/
theorem subWithFlags_lt_iff (hn : 0 < n) :
    ((subWithFlags a b).flags.n != (subWithFlags a b).flags.v) = true ↔ a.toInt < b.toInt := by
  have ha := toInt_bounds a
  have hb := toInt_bounds b
  have hcases := bmod_cases (Nat.two_pow_pos n) (two_pow_even hn) (d := a.toInt - b.toInt) (by omega) (by omega)
  have hv := subWithFlags_v_iff a b hn
  have hneg : (subWithFlags a b).flags.n = true ↔ (a - b).toInt < 0 := by simp [subWithFlags, BitVec.msb_eq_toInt]
  rw [BitVec.toInt_sub] at hv hneg
  rw [bne_iff_ne, ne_eq, Bool.eq_iff_iff, hv, hneg]
  omega

end

/-- Flags on which EQ and LT compare two integers compare them in the other four conditions too. -/
theorem condHolds_compare {f : Flags} {x y : Int} (hz : f.z = true ↔ x = y) (hlt : (f.n != f.v) = true ↔ x < y) :
    (condHolds f .eq = true ↔ x = y) ∧ (condHolds f .ne = true ↔ x ≠ y) ∧ (condHolds f .ge = true ↔ y ≤ x) ∧
    (condHolds f .lt = true ↔ x < y) ∧ (condHolds f .gt = true ↔ y < x) ∧ (condHolds f .le = true ↔ x ≤ y) := by
  have hne : (!f.z) = true ↔ x ≠ y := by rw [Bool.not_eq_true', ← Bool.not_eq_true, hz]
  have hge : (f.n == f.v) = true ↔ y ≤ x := by rw [← not_lt, ← hlt]; simp
  have hgt : (!f.z && (f.n == f.v)) = true ↔ y < x := by rw [Bool.and_eq_true, hne, hge]; omega
  have hle : (!(!f.z && (f.n == f.v))) = true ↔ x ≤ y := by rw [Bool.not_eq_true', ← Bool.not_eq_true, hgt, not_lt]
  exact ⟨hz, hne, hge, hlt, hgt, hle⟩

/-- Settles O46: after a compare Z says equal and N unlike V says less, at either width. -/
theorem conditionMeaning : Obligations.ConditionMeaning := by
  refine ⟨fun f => ⟨rfl, rfl, rfl, rfl, rfl, rfl, rfl⟩, ?_⟩
  rintro w a b _ rfl
  exact condHolds_compare (subWithFlags_z_iff a b) (subWithFlags_lt_iff a b (by cases w <;> decide))

/-! ### The flags as formulas on numbers (R32 to R34) -/

section
variable {n : Nat} (a b : BitVec n)

theorem addWithFlags_flags : (addWithFlags a b).flags = addFlagsOf n a.toNat b.toNat := by
  simp only [addWithFlags, addFlagsOf, BitVec.msb_eq_decide, ← BitVec.toNat_add, ← BitVec.toNat_inj, BitVec.toNat_zero]

theorem subWithFlags_flags : (subWithFlags a b).flags = subFlagsOf n a.toNat b.toNat := by
  have hr : (a.toNat + (2 ^ n - b.toNat)) % 2 ^ n = (a - b).toNat := (toNat_addSub_true a b).symm
  simp only [subWithFlags, subFlagsOf, BitVec.msb_eq_decide, hr, ← BitVec.toNat_inj, BitVec.toNat_zero]

theorem logicalFlags_eq : logicalFlags a = logicalFlagsOf n a.toNat := by
  simp only [logicalFlags, logicalFlagsOf, BitVec.msb_eq_decide, ← BitVec.toNat_inj, BitVec.toNat_zero]

end

end Sys2Proof.Machine
end

section
/-! PROOFS for 41_dp_immediate.md, 42_dp_register.md and 43_branch.md: the flag-setting instructions (R161, R163, R184, R186,
R193, R194), SUB undone by ADD, the shifts (R182), B.cond (R221), and what a 32-bit instruction reads (R167, R197). -/

namespace Sys2Proof.Machine

/-! ### How an instruction that writes the flags ends -/

/-- An instruction that only writes the flags `f`, writes `v` at its width and advances, with `v` and `f` as numbers. -/
theorem completes_of_writeFlags {i : Instr} {s : State} {f g : Flags} {w : Width} {rd : Reg} {v : BitVec w.bits} {x : Nat}
    (hi : exec i s = .next ((s.setFlags f).writeRegAt w rd v).advance) (hv : v.toNat = x) (hf : f = g) :
    ∃ t, exec i s = .next t ∧ Effect s t [(rd, BitVec.ofNat 64 x)] (s.pc + 4#64) g ∧ MemoryKept s t := by
  refine ⟨_, hi, ?_, fun a => by simp⟩
  rw [← hv, BitVec.ofNat_toNat, ← hf]
  exact Effect.writeFlags s f w rd v

/-! ### ADDS and SUBS (immediate) -/

/-- Settles O34: as O33, with the flags of the same two operands. -/
theorem addsSubsImmediateResult : Obligations.AddsSubsImmediateResult := by
  rintro w sh imm12 rn rd s _ rfl
  have hrn := s.toNat_readRegAt_eq_regNat w rn
  have himm := toNat_arithmeticImmediate w sh imm12
  refine ⟨⟨Laws.TableFields.addsImm w sh imm12 rn rd, completes_of_writeFlags rfl ?sum ?sumFlags⟩,
    ⟨Laws.TableFields.subsImm w sh imm12 rn rd, completes_of_writeFlags rfl ?difference ?differenceFlags⟩⟩
  case sum => rw [toNat_addSub_false, hrn, himm]
  case sumFlags => exact (addWithFlags_flags _ _).trans (by rw [hrn, himm])
  case difference => rw [toNat_addSub_true, hrn, himm]
  case differenceFlags => exact (subWithFlags_flags _ _).trans (by rw [hrn, himm])

/-- Settles O36: the difference is read back at the width it was written with. -/
theorem subThenAddRestores : Obligations.SubThenAddRestores := by
  intro w sh imm12 rn rd s hrd
  refine ⟨_, _, rfl, rfl, ?_⟩
  have hread (v : BitVec w.bits) : (s.writeRegAt w rd v).advance.readRegAt w rd = v := by
    rw [State.advance_readRegAt, State.readRegAt, State.readReg_writeRegAt, if_neg hrd, if_pos rfl,
      BitVec.setWidth_setWidth_of_le _ (width_bits_le w), BitVec.setWidth_eq]
  rw [State.advance_readReg, State.readReg_writeRegAt, if_neg hrd, if_pos rfl, hread,
    BitVec.toNat_setWidth_of_le (width_bits_le w), ← s.toNat_readRegAt_eq_regNat]
  exact congrArg _ (BitVec.sub_add_cancel _ _)

/-! ### Shifts (R182) -/

theorem shiftOp_zero {n : Nat} (v : BitVec n) (shift : ShiftType) : shiftOp v shift 0 = v := by
  cases shift with
  | lsl => exact BitVec.shiftLeft_zero v
  | lsr => exact BitVec.ushiftRight_zero v
  | asr => exact BitVec.sshiftRight_zero
  | ror => simp [shiftOp]

/-- Settles O37: the formulas of R182, one per shift. -/
theorem shiftOpMeaning : Obligations.ShiftOpMeaning :=
  fun _ v shift _ h => ⟨toNat_shiftOp v shift h, shiftOp_zero v shift⟩

/-! ### ADDS, SUBS, ANDS, BICS (shifted register) -/

/-- Settles O39: as O38, with the flags of the same two operands. -/
theorem addsSubsRegisterResult : Obligations.AddsSubsRegisterResult := by
  rintro w shift rm imm6 rn rd s _ rfl
  refine ⟨⟨Laws.TableFields.addsReg w shift rm imm6 rn rd, Laws.TableFields.subsReg w shift rm imm6 rn rd⟩,
    fun ⟨hamount, hshift⟩ => ?legal, fun h => ?illegal⟩
  case legal =>
    have hl := arithmeticOperandLegal hamount hshift
    have hrn := s.toNat_readRegAt_eq_regNat w rn
    have hop := s.toNat_shiftedReg rm shift hamount
    refine ⟨completes_of_writeFlags (exec_of_ifLegal rfl hl) ?sum ?sumFlags,
      completes_of_writeFlags (exec_of_ifLegal rfl hl) ?difference ?differenceFlags⟩
    case sum => rw [toNat_addSub_false, hrn, hop]
    case sumFlags => exact (addWithFlags_flags _ _).trans (by rw [hrn, hop])
    case difference => rw [toNat_addSub_true, hrn, hop]
    case differenceFlags => exact (subWithFlags_flags _ _).trans (by rw [hrn, hop])
  case illegal =>
    have hl := arithmeticOperandLegal_eq_false h
    exact ⟨takesUndefined_of_ifLegal rfl hl, takesUndefined_of_ifLegal rfl hl⟩

/-- Settles O42: as O40 and O41, with N and Z of the result. -/
theorem andsBicsResult : Obligations.AndsBicsResult := by
  rintro w shift rm imm6 rn rd s _ rfl
  refine ⟨⟨Laws.TableFields.ands w shift rm imm6 rn rd, Laws.TableFields.bics w shift rm imm6 rn rd⟩,
    fun h => ?legal, fun h => ?illegal⟩
  case legal =>
    have hl : shiftAmountLegal w imm6 = true := shiftAmountLegal_iff.2 h
    have hrn := s.toNat_readRegAt_eq_regNat w rn
    have hands : (s.readRegAt w rn &&& s.shiftedReg w rm shift imm6).toNat =
        s.regNat w rn &&& s.operandNat w rm shift imm6 := by
      rw [BitVec.toNat_and, hrn, s.toNat_shiftedReg rm shift h]
    have hbics : (s.readRegAt w rn &&& ~~~s.shiftedReg w rm shift imm6).toNat =
        s.regNat w rn &&& complementOf w.bits (s.operandNat w rm shift imm6) := by
      rw [BitVec.toNat_and, hrn, s.toNat_not_shiftedReg rm shift h]
    exact ⟨completes_of_writeFlags (exec_of_ifLegal rfl hl) hands ((logicalFlags_eq _).trans (by rw [hands])),
      completes_of_writeFlags (exec_of_ifLegal rfl hl) hbics ((logicalFlags_eq _).trans (by rw [hbics]))⟩
  case illegal =>
    have hl : shiftAmountLegal w imm6 = false := shiftAmountLegal_eq_false h
    exact ⟨takesUndefined_of_ifLegal rfl hl, takesUndefined_of_ifLegal rfl hl⟩

/-! ### B.cond -/

/-- The condition codes of R222 are all that name a condition. -/
theorem condOfField_eq_none {f : BitVec 4} (h : f.toNat ∉ [0, 1, 10, 11, 12, 13, 14]) : Cond.ofField f = none := by
  revert f; decide

/-- Settles O45: B.cond sets `pc` by its condition; without a condition its format is undefined, whatever the flags. -/
theorem branchCondResult : Obligations.BranchCondResult := by
  refine ⟨fun simm19 cond s target htarget => ⟨Laws.TableFields.bCond simm19 cond, _, rfl, ?effect, fun a => ?kept⟩,
    fun halt word hne h h4 hcond => ?undefined⟩
  case effect =>
    rw [State.pcRelative_of_toNat htarget]
    split
    · exact Effect.jump s target
    · exact Effect.jump s (s.pc + 4#64)
  case kept => split <;> rfl
  case undefined =>
    rw [decodeWith_branch hne (bit_of_field_eq h (i := 4) (by decide)) (bit_of_field_eq h (i := 3) (by decide))
      (bit_of_field_eq h (i := 2) (by decide)), decodeBranch_condForm h h4, condOfField_eq_none hcond]
    exact ⟨_, rfl⟩

/-! ### What a 32-bit data-processing instruction reads (R167, R197) -/

/-- Two states with the same flags and the same low halves of all registers. -/
structure LowHalvesAgree (s s' : State) : Prop where
  low : ∀ r, s.readRegAt .w32 r = s'.readRegAt .w32 r
  flags : s.flags = s'.flags

/-- The instruction passes its check and then writes `rd` at 32 bits and the flags, both with what the low halves and the
flags before determine. -/
def ReadsLowHalves (i : Instr) (rd : Reg) : Prop :=
  ∃ (v : State → BitVec 32) (f : State → Flags),
    (∀ s, exec i s = ifLegal i s (.next ((s.setFlags (f s)).writeRegAt .w32 rd (v s)).advance)) ∧
    ∀ s s', LowHalvesAgree s s' → v s = v s' ∧ f s = f s'

section
variable {i : Instr} {rd : Reg}

theorem shiftedReg_congr {s s' : State} (h : LowHalvesAgree s s') (rm : Reg) (shift : ShiftType) (imm6 : BitVec 6) :
    s.shiftedReg .w32 rm shift imm6 = s'.shiftedReg .w32 rm shift imm6 := by
  rw [State.shiftedReg, State.shiftedReg, h.low]

theorem ReadsLowHalves.write (v : State → BitVec 32)
    (hi : ∀ s, exec i s = ifLegal i s (.next (s.writeRegAt .w32 rd (v s)).advance))
    (hv : ∀ s s', LowHalvesAgree s s' → v s = v s') : ReadsLowHalves i rd :=
  ⟨v, State.flags, hi, fun s s' h => ⟨hv s s' h, h.flags⟩⟩

theorem ReadsLowHalves.arithmeticFlags (r : State → AddSubResult 32)
    (hi : ∀ s, exec i s = ifLegal i s (.next ((s.setFlags (r s).flags).writeRegAt .w32 rd (r s).result).advance))
    (hr : ∀ s s', LowHalvesAgree s s' → r s = r s') : ReadsLowHalves i rd :=
  ⟨_, _, hi, fun s s' h => ⟨congrArg AddSubResult.result (hr s s' h), congrArg AddSubResult.flags (hr s s' h)⟩⟩

theorem ReadsLowHalves.logicalFlags (v : State → BitVec 32)
    (hi : ∀ s, exec i s = ifLegal i s (.next ((s.setFlags (logicalFlags (v s))).writeRegAt .w32 rd (v s)).advance))
    (hv : ∀ s s', LowHalvesAgree s s' → v s = v s') : ReadsLowHalves i rd :=
  ⟨_, _, hi, fun s s' h => ⟨hv s s' h, congrArg Machine.logicalFlags (hv s s' h)⟩⟩

/-- An operation `op` on a register and a shifted register looks at the low halves of the two (R180). -/
theorem shiftedOperands_congr {α : Type} (op : BitVec 32 → BitVec 32 → α) {rn rm : Reg} {shift : ShiftType}
    {imm6 : BitVec 6} (s s' : State) (h : LowHalvesAgree s s') :
    op (s.readRegAt .w32 rn) (s.shiftedReg .w32 rm shift imm6) =
      op (s'.readRegAt .w32 rn) (s'.shiftedReg .w32 rm shift imm6) := by
  rw [h.low, shiftedReg_congr h]

/-- From states that agree on what it reads, such an instruction leaves the same destination, its upper half 0. -/
theorem ReadsLowHalves.completes (h : ReadsLowHalves i rd) {s s' t : State} (hs : LowHalvesAgree s s')
    (hn : s'.fault = none) (he : exec i s = .next t) (ht : t.fault = none) :
    ∃ t', exec i s' = .next t' ∧ t'.fault = none ∧ t'.readReg rd = t.readReg rd ∧ (t.readReg rd).toNat < 2 ^ 32 ∧
      t'.flags = t.flags := by
  obtain ⟨v, f, hi, hvf⟩ := h
  obtain ⟨hv, hf⟩ := hvf s s' hs
  have hl : i.wellFormed = true := by
    by_contra hill
    cases (takesUndefined_of_ifLegal (hi s) (Bool.eq_false_iff.2 hill)).symm.trans he
    cases ht
  cases (exec_of_ifLegal (hi s) hl).symm.trans he
  refine ⟨_, exec_of_ifLegal (hi s') hl, by simpa using hn, ?same, ?narrow, by simp [hf]⟩
  case same => simp [State.readReg_writeRegAt, hv]
  case narrow =>
    have hlt : (v s).toNat < 2 ^ 32 := (v s).isLt
    rw [State.advance_readReg, State.readReg_writeRegAt]
    split_ifs
    · decide
    · rw [BitVec.toNat_setWidth_of_le (by decide)]
      exact hlt
    · contradiction

end

/-- Settles O55: every such instruction only reads views at 32 bits, writes at 32 bits, and passes the flags on or sets
them from what it read. -/
theorem narrowInstructionsIgnoreUpperHalves : Obligations.NarrowInstructionsIgnoreUpperHalves := by
  intro i rd s s' t hform hlow hflags _ hn' he ht
  have hs : LowHalvesAgree s s' := ⟨fun r => BitVec.eq_of_toNat_eq (by
    rw [s.toNat_readRegAt_eq_regNat, s'.toNat_readRegAt_eq_regNat, hlow r]), hflags⟩
  refine ReadsLowHalves.completes ?_ hs hn' he ht
  rcases hform with ⟨sh, imm12, rn, h⟩ | ⟨hw, imm16, h⟩ | ⟨shift, rm, imm6, rn, h⟩ | ⟨rm, ra, rn, h⟩
  · rcases h with rfl | rfl | rfl | rfl
    · exact .write _ (fun _ => rfl) fun s s' h => by simp only [h.low]
    · exact .arithmeticFlags _ (fun _ => rfl) fun s s' h => by simp only [h.low]
    · exact .write _ (fun _ => rfl) fun s s' h => by simp only [h.low]
    · exact .arithmeticFlags _ (fun _ => rfl) fun s s' h => by simp only [h.low]
  · rcases h with rfl | rfl | rfl
    · exact .write _ (fun _ => rfl) fun _ _ _ => rfl
    · exact .write _ (fun _ => rfl) fun _ _ _ => rfl
    · exact .write _ (fun _ => rfl) fun s s' h => by simp only [h.low]
  · rcases h with rfl | rfl | rfl | rfl | rfl | rfl | rfl | rfl | rfl | rfl | rfl | rfl
    · exact .write _ (fun _ => rfl) (shiftedOperands_congr fun a b => (addSub a b false).result)
    · exact .arithmeticFlags _ (fun _ => rfl) (shiftedOperands_congr fun a b => addSub a b false)
    · exact .write _ (fun _ => rfl) (shiftedOperands_congr fun a b => (addSub a b true).result)
    · exact .arithmeticFlags _ (fun _ => rfl) (shiftedOperands_congr fun a b => addSub a b true)
    · exact .write _ (fun _ => rfl) (shiftedOperands_congr fun a b => a &&& b)
    · exact .write _ (fun _ => rfl) (shiftedOperands_congr fun a b => a &&& ~~~b)
    · exact .write _ (fun _ => rfl) (shiftedOperands_congr fun a b => a ||| b)
    · exact .write _ (fun _ => rfl) (shiftedOperands_congr fun a b => a ||| ~~~b)
    · exact .write _ (fun _ => rfl) (shiftedOperands_congr fun a b => a ^^^ b)
    · exact .write _ (fun _ => rfl) (shiftedOperands_congr fun a b => a ^^^ ~~~b)
    · exact .logicalFlags _ (fun _ => rfl) (shiftedOperands_congr fun a b => a &&& b)
    · exact .logicalFlags _ (fun _ => rfl) (shiftedOperands_congr fun a b => a &&& ~~~b)
  · rcases h with rfl | rfl
    · exact .write _ (fun _ => rfl) fun s s' h => by simp only [h.low]
    · exact .write _ (fun _ => rfl) fun s s' h => by simp only [h.low]

end Sys2Proof.Machine
end

section
/-! PROOFS for 30_encoding.md sections 1 and 9: the decoders on bytes and table words, and the words the spec writes out. -/

namespace Sys2Proof

open Machine

/-! ### The decoders on bytes and on table words (log entry 6) -/

/-- The decoder on bytes reads the four bytes of a word and leaves the rest. -/
theorem decodeBytes_bytesOfWord (w : Word) (rest : List Byte) :
    decodeBytes (bytesOfWord w ++ rest) = some (decode w, rest) :=
  calc decodeBytes (bytesOfWord w ++ rest)
      = some (decode (wordOfBytes (field w 0 8) (field w 8 8) (field w 16 8) (field w 24 8)), rest) := rfl
    _ = some (decode w, rest) := by rw [wordOfBytes_fields]

/-- The decoder on table words decodes the low `nbits` bits with zeros above. -/
theorem decodeTableWord_eq_some {nbits w : Nat} {i : Instr} :
    decodeTableWord nbits w = some i ↔ decode (BitVec.ofNat 32 (w % 2 ^ nbits)) = .ok i := by
  have h := decodeBytes_bytesOfWord (BitVec.ofNat 32 (w % 2 ^ nbits)) []
  rw [List.append_nil] at h
  rw [decodeTableWord, h]
  cases decode (BitVec.ofNat 32 (w % 2 ^ nbits)) <;> simp

/-- Settles O18: the table-word decoder is the word decoder on the low bits, and 32 low bits are the word. -/
theorem decodersAgree : Obligations.DecodersAgree := by
  refine fun w rest => ⟨decodeBytes_bytesOfWord w rest, fun i => ?whole, fun nbits hn => ?low⟩
  case whole =>
    have hw : BitVec.ofNat 32 (w.toNat % 2 ^ 32) = w := by
      rw [Nat.mod_eq_of_lt w.isLt, BitVec.ofNat_toNat, BitVec.setWidth_eq]
    rw [decodeTableWord_eq_some, hw]
  case low =>
    have hlow : w.toNat % 2 ^ nbits % 2 ^ 32 = w.toNat % 2 ^ nbits :=
      Nat.mod_eq_of_lt ((Nat.mod_lt _ (Nat.two_pow_pos nbits)).trans_le (Nat.pow_le_pow_right (by decide) hn))
    ext i
    rw [decodeTableWord_eq_some, decodeTableWord_eq_some, hlow]

/-- Settles O17: the thirteen words and the two rejected ones, each evaluated. -/
theorem specWordsDecode : Obligations.SpecWordsDecode := by
  refine ⟨?_, ?_, ?_, ?_, ?_, ?_, ?_, ?_, ?_, ?_, ?_, ?_, ?_, ?_, ?_⟩
  all_goals decide

end Sys2Proof
end

section
/-! PROOFS for 70_reset_and_hazards.md section 3 (R306): the content of the dump, and the dump from the listed bytes alone. -/

namespace Sys2Proof.Machine

/-! ### The words of the dump -/

section
variable {m : Memory}

/-- The scan finds a word at an address exactly if the address is one of an aligned word and the word there is not zero. -/
theorem Memory.wordEntry_eq_some {j a : Nat} {v : Word} :
    m.wordEntry j = some (a, v) ↔ a = 4 * j ∧ m.readBytes a 32 4 = v ∧ v ≠ 0#32 := by
  simp only [Memory.wordEntry]
  split
  next h =>
    refine ⟨fun h' => (nomatch h'), ?_⟩
    rintro ⟨rfl, rfl, hne⟩
    exact absurd h hne
  next h =>
    rw [Option.some.injEq, Prod.mk.injEq]
    constructor
    · rintro ⟨rfl, rfl⟩; exact ⟨rfl, rfl, h⟩
    · rintro ⟨rfl, rfl, _⟩; exact ⟨rfl, rfl⟩

theorem Memory.mem_nonzeroWords {a : Nat} {v : Word} :
    (a, v) ∈ m.nonzeroWords ↔ a % 4 = 0 ∧ a + 4 ≤ Config.memSize ∧ m.readBytes a 32 4 = v ∧ v ≠ 0#32 := by
  have hmem : Config.memSize = 4 * (Config.memSize / 4) := by decide
  simp only [Memory.nonzeroWords, List.mem_filterMap, List.mem_range, Memory.wordEntry_eq_some]
  constructor
  · rintro ⟨j, hj, rfl, hv⟩; exact ⟨by omega, by omega, hv⟩
  · rintro ⟨ha, hin, hv⟩; exact ⟨a / 4, by omega, by omega, hv⟩

theorem Memory.pairwise_nonzeroWords : m.nonzeroWords.Pairwise (fun p q => p.1 < q.1) := by
  refine List.Pairwise.filterMap _ ?_ List.pairwise_lt_range
  intro j k hjk p hp q hq
  obtain ⟨hp, _⟩ := Memory.wordEntry_eq_some.1 hp
  obtain ⟨hq, _⟩ := Memory.wordEntry_eq_some.1 hq
  omega

end

theorem observe_eq_some {s : State} {o : Observation} :
    s.observe = some o ↔ (s.halted = true ∧ s.fault = none) ∧ s.dump = o := by
  unfold State.observe State.runEnd
  cases s.fault <;> cases s.halted <;> simp

theorem observe_eq_none {s : State} : s.observe = none ↔ ¬(s.halted = true ∧ s.fault = none) := by
  unfold State.observe State.runEnd
  cases s.fault <;> cases s.halted <;> simp

/-- The read of a word inside memory, by the number of its address. -/
theorem memRead_ofNat {s : State} {a : Nat} {v : Word} (h : a + 4 ≤ Config.memSize) :
    s.memRead (BitVec.ofNat 64 a) .w32 .load = .ok v ↔ s.mem.readBytes a 32 4 = v := by
  have hmem : Config.memSize = 0x200000 := rfl
  have ha : (BitVec.ofNat 64 a).toNat = a := by
    rw [BitVec.toNat_ofNat]
    omega
  rw [State.memRead_of_le (w := .w32) s .load (by rw [ha]; exact h), ha, Except.ok.injEq]

/-- Settles O56: the state of a normal end alone is observed; the words are those the scan keeps. -/
theorem observationContent : Obligations.ObservationContent := by
  intro s
  have hregisters : s.dump.registers = s.x.toList := rfl
  have hwords : s.dump.words = s.mem.nonzeroWords := by rw [State.dump]
  rw [hregisters, hwords]
  refine ⟨?observed, observe_eq_none, s.x.length_toList, fun i => ?register, rfl, rfl, fun a v => ?word,
    Memory.pairwise_nonzeroWords⟩
  case observed => simp only [observe_eq_some, and_true]
  case register => simp [State.readReg]
  case word =>
    refine Memory.mem_nonzeroWords.trans (and_congr_right' (and_congr_right fun hin => ?_))
    rw [memRead_ofNat hin]

/-! ### The dump from the listed bytes -/

/-- The numbers of the words that have a listed byte. -/
theorem Memory.mem_listedWords {m : Memory} {j : Nat} : j ∈ m.listedWords ↔ ∃ c ∈ m, c.1 / 4 = j := by
  induction m using Memory.listedWords.induct with
  | case1 => simp [Memory.listedWords]
  | case2 a u => simp [Memory.listedWords, eq_comm]
  | case3 a u b v m h ih =>
    rw [Memory.listedWords, if_pos h, ih]
    simp [h]
  | case4 a u b v m h ih =>
    rw [Memory.listedWords, if_neg h, List.mem_cons, ih]
    simp [eq_comm]

/-- The canonical form, one listed byte at a time. -/
theorem Memory.wfFrom_cons {lo a : Nat} {v : Byte} {m : Memory} :
    Memory.wfFrom lo ((a, v) :: m) = true ↔
      (lo ≤ a ∧ a < Config.memSize ∧ v ≠ unlistedByte) ∧ Memory.wfFrom (a + 1) m = true := by
  simp [Memory.wfFrom]

/-- The addresses listed in a canonical memory. -/
theorem Memory.bounds_of_mem {m : Memory} {lo : Nat} (h : Memory.wfFrom lo m = true) {c : Host.Cell} (hc : c ∈ m) :
    lo ≤ c.1 ∧ c.1 < Config.memSize := by
  induction m generalizing lo with
  | nil => cases hc
  | cons d m ih =>
    obtain ⟨a, v⟩ := d
    obtain ⟨⟨hlo, hsize, _⟩, hm⟩ := Memory.wfFrom_cons.1 h
    rcases List.mem_cons.1 hc with rfl | hc
    · exact ⟨hlo, hsize⟩
    · have := ih hm hc
      omega

/-- Addresses rise strictly, so the word numbers do where they are kept. -/
theorem Memory.pairwise_listedWords {m : Memory} {lo : Nat} (h : Memory.wfFrom lo m = true) :
    m.listedWords.Pairwise (· < ·) := by
  induction m using Memory.listedWords.induct generalizing lo with
  | case1 => exact List.Pairwise.nil
  | case2 a u => exact List.pairwise_singleton _ _
  | case3 a u b v m hab ih =>
    rw [Memory.listedWords, if_pos hab]
    exact ih (Memory.wfFrom_cons.1 h).2
  | case4 a u b v m hab ih =>
    have htail : Memory.wfFrom (a + 1) ((b, v) :: m) = true := (Memory.wfFrom_cons.1 h).2
    obtain ⟨⟨hlt, hb⟩, hm⟩ := Memory.wfFrom_cons.1 htail
    have hfrom : Memory.wfFrom b ((b, v) :: m) = true := Memory.wfFrom_cons.2 ⟨⟨le_refl b, hb⟩, hm⟩
    rw [Memory.listedWords, if_neg hab, List.pairwise_cons]
    refine ⟨fun j hj => ?_, ih htail⟩
    obtain ⟨c, hc, rfl⟩ := Memory.mem_listedWords.1 hj
    have := (Memory.bounds_of_mem hfrom hc).1
    omega

/-- An address that is not listed reads as 0. -/
theorem Memory.byte_of_not_listed {m : Memory} {a : Nat} (h : ∀ c ∈ m, c.1 ≠ a) : m.byte a = unlistedByte := by
  induction m with
  | nil => rfl
  | cons d m ih =>
    obtain ⟨b, v⟩ := d
    rw [Memory.byte, if_neg (h (b, v) List.mem_cons_self).symm]
    exact ih fun c hc => h c (List.mem_cons_of_mem _ hc)

/-- A word without a listed byte has no entry in the dump. -/
theorem Memory.wordEntry_of_not_listed {m : Memory} {j : Nat} (h : j ∉ m.listedWords) : m.wordEntry j = none := by
  have hzero : m.readBytes (4 * j) 32 4 = Memory.readBytes [] (4 * j) 32 4 := by
    refine Memory.readBytes_congr 32 fun i hi => Memory.byte_of_not_listed fun c hc he => h ?_
    exact Memory.mem_listedWords.2 ⟨c, hc, by omega⟩
  rw [Memory.wordEntry, hzero]
  exact if_pos (by simp [Memory.readBytes, unlistedByte])

/-- The listed word numbers are those of memory that are listed, in rising order. -/
theorem Memory.listedWords_eq_filter {m : Memory} (h : m.wf = true) :
    m.listedWords = (List.range (Config.memSize / 4)).filter (· ∈ m.listedWords) := by
  refine (Memory.pairwise_listedWords h).eq_of_mem_iff (List.pairwise_lt_range.filter _) fun j => ?_
  rw [List.mem_filter, List.mem_range, decide_eq_true_iff, iff_and_self]
  intro hj
  obtain ⟨c, hc, rfl⟩ := Memory.mem_listedWords.1 hj
  have hin := (Memory.bounds_of_mem h hc).2
  have hmem : Config.memSize = 0x200000 := rfl
  omega

/-- Settles O57: the scan's word numbers that are not listed give no entry. -/
theorem fastDumpIsTheScan : Obligations.FastDumpIsTheScan := by
  intro m h
  rw [Memory.nonzeroWordsFast, Memory.listedWords_eq_filter h, List.filterMap_filter, Memory.nonzeroWords]
  congr 1
  funext j
  split
  next => rfl
  next hj => exact (Memory.wordEntry_of_not_listed (by simpa using hj)).symm

end Sys2Proof.Machine
end

section
/-! PROOFS for 30_encoding.md section 11: what the range checks accept (R132), and that a branch goes to its label. -/

namespace Sys2Proof.Machine

/-! ### The integers that a field holds -/

theorem exists_toNat_eq_iff {n : Nat} {v : Int} : (∃ f : BitVec n, (f.toNat : Int) = v) ↔ 0 ≤ v ∧ v < 2 ^ n := by
  constructor
  · rintro ⟨f, rfl⟩
    exact ⟨Int.natCast_nonneg _, by exact_mod_cast f.isLt⟩
  · rintro ⟨h0, h1⟩
    refine ⟨BitVec.ofNat n v.toNat, ?_⟩
    have hv : v.toNat < 2 ^ n := (Int.toNat_lt h0).2 (by exact_mod_cast h1)
    rw [BitVec.toNat_ofNat, Nat.mod_eq_of_lt hv, Int.toNat_of_nonneg h0]

theorem toInt_ofInt_of_range {n : Nat} (hn : 0 < n) {d : Int} (hlo : -2 ^ (n - 1) ≤ d) (hhi : d < 2 ^ (n - 1)) :
    (BitVec.ofInt n d).toInt = d := by
  have hpow : (2 : Int) ^ n = 2 * 2 ^ (n - 1) := (mul_pow_sub_one hn.ne' 2).symm
  rw [BitVec.toInt_ofInt]
  refine Int.bmod_eq_of_le ?_ ?_
  all_goals push_cast; omega

theorem exists_toInt_eq_iff {n : Nat} (hn : 0 < n) {d : Int} :
    (∃ f : BitVec n, f.toInt = d) ↔ -2 ^ (n - 1) ≤ d ∧ d < 2 ^ (n - 1) := by
  constructor
  · rintro ⟨f, rfl⟩
    exact ⟨f.le_toInt, f.toInt_lt⟩
  · rintro ⟨hlo, hhi⟩
    exact ⟨_, toInt_ofInt_of_range hn hlo hhi⟩

/-! ### Range checks (R132): each gives the field that holds the value, if one does -/

theorem checkWordOffset_eq_some {n : Nat} (hn : 0 < n) {target current : Int} {f : BitVec n} :
    checkWordOffset n target current = some f ↔ f.toInt = (target - current) / 4 := by
  have hd : (target - current) >>> (2 : Nat) = (target - current) / 4 := Int.shiftRight_eq_div_pow ..
  simp only [checkWordOffset, hd]
  split
  next h =>
    have hfield := toInt_ofInt_of_range hn h.1 h.2
    rw [Option.some.injEq]
    exact ⟨fun e => e ▸ hfield, fun e => BitVec.eq_of_toInt_eq (hfield.trans e.symm)⟩
  next h => exact ⟨fun e => (nomatch e), fun e => absurd ((exists_toInt_eq_iff hn).1 ⟨f, e⟩) h⟩

theorem checkIndexOffset_eq_some {o : Int} {f : BitVec 9} : checkIndexOffset o = some f ↔ f.toInt = o := by
  have hrange : (-256 ≤ o ∧ o ≤ 255) ↔ (-2 ^ (9 - 1) ≤ o ∧ o < 2 ^ (9 - 1)) := by omega
  simp only [checkIndexOffset, hrange]
  split
  next h =>
    have hfield := toInt_ofInt_of_range (n := 9) (by decide) h.1 h.2
    rw [Option.some.injEq]
    exact ⟨fun e => e ▸ hfield, fun e => BitVec.eq_of_toInt_eq (hfield.trans e.symm)⟩
  next h => exact ⟨fun e => (nomatch e), fun e => absurd ((exists_toInt_eq_iff (by decide)).1 ⟨f, e⟩) h⟩

theorem checkWideMoveShift_eq_some {a : Int} {f : BitVec 2} :
    checkWideMoveShift a = some f ↔ (16 * f.toNat : Int) = a := by
  unfold checkWideMoveShift
  split
  next h => rw [checkUnsigned_eq_some]; omega
  next h => exact ⟨fun e => (nomatch e), fun e => absurd (by omega) h⟩

theorem checkScaledOffset_eq_some {w : Width} {o : Int} {f : BitVec 12} :
    checkScaledOffset w o = some f ↔ (f.toNat * w.bytes : Int) = o := by
  unfold checkScaledOffset
  split
  next h =>
    rw [checkUnsigned_eq_some]
    rcases bytes_cases w with hw | hw <;> rw [hw] at h ⊢ <;> omega
  next h =>
    refine ⟨fun e => (nomatch e), fun e => absurd ?_ h⟩
    rw [← e]
    exact Int.mul_emod_left ..

/-- A check whose accepted fields are those with a property, which some field has exactly if the value is in range. -/
theorem accepts_iff_range {α : Type} {c : Option α} {p : α → Prop} {range : Prop} (hc : ∀ f, c = some f ↔ p f)
    (hr : (∃ f, p f) ↔ range) : (range → ∃ f, c = some f ∧ p f) ∧ (¬range → c = none) := by
  constructor
  · intro h
    obtain ⟨f, hf⟩ := hr.2 h
    exact ⟨f, (hc f).2 hf, hf⟩
  · intro h
    rw [Option.eq_none_iff_forall_ne_some]
    exact fun f hf => h (hr.1 ⟨f, (hc f).1 hf⟩)

theorem exists_wideMoveShift_iff {a : Int} :
    (∃ f : BitVec 2, (16 * f.toNat : Int) = a) ↔ a % 16 = 0 ∧ 0 ≤ a ∧ a ≤ 48 := by
  constructor
  · rintro ⟨f, rfl⟩
    have := f.isLt
    omega
  · rintro ⟨h16, h0, h48⟩
    obtain ⟨f, hf⟩ := (exists_toNat_eq_iff (n := 2) (v := a / 16)).2 (by omega)
    exact ⟨f, by omega⟩

theorem exists_scaledOffset_iff {w : Width} {o : Int} :
    (∃ f : BitVec 12, (f.toNat * w.bytes : Int) = o) ↔ o % w.bytes = 0 ∧ 0 ≤ o ∧ o < 4096 * w.bytes := by
  constructor
  · rintro ⟨f, rfl⟩
    have := f.isLt
    rcases bytes_cases w with h | h <;> rw [h] <;> omega
  · rcases bytes_cases w with h | h <;> rw [h] <;> intro hrange
    all_goals
      obtain ⟨f, hf⟩ := (exists_toNat_eq_iff (n := 12) (v := o / w.bytes)).2 (by rw [h]; omega)
      rw [h] at hf
      exact ⟨f, by omega⟩

theorem exists_indexOffset_iff {o : Int} : (∃ f : BitVec 9, f.toInt = o) ↔ -256 ≤ o ∧ o ≤ 255 := by
  rw [exists_toInt_eq_iff (by decide)]
  omega

/-- The bytes from `current` to a target that a word offset of `n` bits reaches. -/
theorem exists_wordOffset_iff {n : Nat} (hn : n = 19 ∨ n = 26) {target current : Int} (h4 : (target - current) % 4 = 0) :
    (∃ f : BitVec n, current + 4 * f.toInt = target) ↔
      -2 ^ (n + 1) ≤ target - current ∧ target - current < 2 ^ (n + 1) := by
  have hd (f : BitVec n) : current + 4 * f.toInt = target ↔ f.toInt = (target - current) / 4 := by omega
  simp only [hd]
  rcases hn with rfl | rfl <;> rw [exists_toInt_eq_iff (by decide)] <;> omega

/-! ### What an accepted field means -/

/-- The scaled offset loses no bit (30_encoding.md R111). -/
theorem toNat_scaledOffset (w : Width) (imm12 : BitVec 12) : (scaledOffset w imm12).toNat = imm12.toNat * w.bytes := by
  have h := imm12.isLt
  have hbytes : w.bytes ≤ 8 := by have := bytes_cases w; omega
  have hprod : imm12.toNat * w.bytes ≤ 4096 * 8 := Nat.mul_le_mul h.le hbytes
  rw [scaledOffset, BitVec.toNat_mul, BitVec.toNat_setWidth_of_le (by decide), BitVec.toNat_ofNat,
    Nat.mod_eq_of_lt (show w.bytes < 2 ^ 64 by omega), Nat.mod_eq_of_lt (by omega)]

/-- A word offset that leads from `pc` to an address below 2^20 leads there at run time. -/
theorem State.toNat_pcRelative_of_reaches {s : State} {n target : Nat} {f : BitVec n}
    (h : (s.pc.toNat : Int) + 4 * f.toInt = target) (ht : target < 2 ^ 20) : (s.pcRelative f).toNat = target := by
  have := s.toNat_pcRelative f
  omega

/-- The check accepts a label that resolves below 2^20 from a `pc` below 2^20. -/
theorem exists_checkWordOffset {n : Nat} (hn : n = 19 ∨ n = 26) {target : Nat} {s : State} (ht4 : target % 4 = 0)
    (hp4 : s.pc.toNat % 4 = 0) (ht : target < 2 ^ 20) (hp : s.pc.toNat < 2 ^ 20) :
    ∃ f : BitVec n, checkWordOffset n target s.pc.toNat = some f ∧ (s.pcRelative f).toNat = target := by
  have hpos : 0 < n := by omega
  obtain ⟨f, hf⟩ := (exists_wordOffset_iff hn (target := target) (current := s.pc.toNat) (by omega)).2
    (by rcases hn with rfl | rfl <;> omega)
  exact ⟨f, (checkWordOffset_eq_some hpos).2 (by omega), State.toNat_pcRelative_of_reaches hf ht⟩

/-- Settles O59: each check accepts the values that a field holds, and a branch to a label goes where its offset leads. -/
theorem encoderRangeChecks : Obligations.EncoderRangeChecks := by
  refine ⟨fun v => accepts_iff_range (fun _ => checkUnsigned_eq_some) exists_toNat_eq_iff,
    fun a => accepts_iff_range (fun _ => checkWideMoveShift_eq_some) exists_wideMoveShift_iff,
    fun n target current hn h4 => accepts_iff_range (fun f => ?word) (exists_wordOffset_iff hn h4),
    fun w o => ?scaled, fun o => ?index,
    fun labels name target s hlabel ht4 hp4 ht hp => ⟨?b, fun cond hcond => ?bCond⟩⟩
  case word =>
    rw [checkWordOffset_eq_some (by omega)]
    omega
  case scaled =>
    simp only [toNat_scaledOffset, Nat.cast_mul]
    exact accepts_iff_range (fun _ => checkScaledOffset_eq_some) exists_scaledOffset_iff
  case index =>
    simp only [byteOffset, BitVec.toInt_signExtend_of_le (show 9 ≤ 64 by decide)]
    exact accepts_iff_range (fun _ => checkIndexOffset_eq_some) exists_indexOffset_iff
  case b =>
    obtain ⟨f, hf, hpc⟩ := exists_checkWordOffset (n := 26) (.inr rfl) ht4 hp4 ht hp
    exact ⟨.b f, _, by simp [slotInstr, hlabel, hf], rfl, hpc⟩
  case bCond =>
    obtain ⟨f, hf, hpc⟩ := exists_checkWordOffset (n := 19) (.inl rfl) ht4 hp4 ht hp
    exact ⟨.bCond f cond, s.setPc (s.pcRelative f), by simp [slotInstr, hlabel, hf], by simp [exec, execBCond, hcond], hpc⟩

end Sys2Proof.Machine
end

section
/-! PROOFS for 30_encoding.md section 11: the encoder gives an instruction exactly if the line stands for it (R130, R131), and
a local error emits the zero word with a diagnostic (R132). -/

namespace Sys2Proof.Machine

/-! ### Lines that stand for an instruction (R130, R131) -/

section
variable {labels : String → Option Nat} {a : Nat} {j : Instr}

/-- The encoder's answer for an arithmetic operand is the line's. -/
theorem arithmeticLine_iff {m : ArithmeticMnemonic} {rd rn : SourceReg} {op : SourceOperand} :
    ArithmeticLine m rd rn op j ↔
      rn.width = rd.width ∧ arithmeticOperand rd.width op (m.immediateForm rd.width rd.reg rn.reg)
        (m.registerForm rd.width rd.reg rn.reg) = some j := by
  refine and_congr_right fun _ => ?_
  cases op with
  | immediate v shift =>
    simp only [arithmeticOperand, Option.bind_eq_bind, Option.bind_eq_some_iff, checkImmediateShift_eq_some,
      checkArithmeticImmediate, checkUnsigned_eq_some, Option.some.injEq]
    constructor
    · rintro ⟨flag, imm12, hv, hshift, hj⟩; exact ⟨flag, hshift, imm12, hv, by cases m <;> exact hj.symm⟩
    · rintro ⟨flag, hshift, imm12, hv, rfl⟩; exact ⟨flag, imm12, hv, hshift, by cases m <;> rfl⟩
  | register r shift =>
    rw [arithmeticOperand, onRegister_eq_some]
    refine and_congr_right fun _ => exists₂_congr fun t amount => and_congr_right fun _ => ?_
    rw [forall_prop_of_true rfl]
    cases m <;> rfl

/-- The encoder's answer for a logical operand is the line's. -/
theorem logicalLine_iff {m : LogicalMnemonic} {rd rn : SourceReg} {op : SourceOperand} :
    LogicalLine m rd rn op j ↔
      rn.width = rd.width ∧ logicalOperand rd.width op (m.registerForm rd.width rd.reg rn.reg) = some j := by
  refine and_congr_right fun _ => ?_
  cases op with
  | immediate v shift => simp [logicalOperand]
  | register r shift =>
    rw [logicalOperand, onRegister_eq_some]
    refine and_congr_right fun _ => exists₂_congr fun t amount => and_congr_right fun _ => ?_
    rw [and_iff_right (fun h => nomatch h)]
    cases m <;> rfl

/-- A shorthand of R131 whose operands have one width is the line of its expansion. -/
theorem arithmeticOperand_eq_some {m : ArithmeticMnemonic} {rd rn : SourceReg} {op : SourceOperand}
    (h : rn.width = rd.width) :
    arithmeticOperand rd.width op (m.immediateForm rd.width rd.reg rn.reg) (m.registerForm rd.width rd.reg rn.reg) = some j ↔
      ArithmeticLine m rd rn op j :=
  (arithmeticLine_iff.trans (and_iff_right h)).symm

theorem logicalOperand_eq_some {m : LogicalMnemonic} {rd rn : SourceReg} {op : SourceOperand} (h : rn.width = rd.width) :
    logicalOperand rd.width op (m.registerForm rd.width rd.reg rn.reg) = some j ↔ LogicalLine m rd rn op j :=
  (logicalLine_iff.trans (and_iff_right h)).symm

theorem checkHalfWord_eq_some {shift : Option SourceShift} {hw : BitVec 2} :
    checkHalfWord shift = some hw ↔
      (shift = none ∧ hw = 0#2) ∨ shift = some { type := .lsl, amount := 16 * hw.toNat } := by
  cases shift with
  | none => simp [checkHalfWord, eq_comm (a := 0#2)]
  | some sh =>
    obtain ⟨t, amount⟩ := sh
    simp only [checkHalfWord]
    split
    next h => simp [checkWideMoveShift_eq_some, h, eq_comm (a := amount)]
    next h => simp [h]

/-- The encoder's answer for an address is the line's. -/
theorem accessInstr_eq_some {load : Bool} {rt : SourceReg} {address : SourceAddress} :
    accessInstr labels a load rt address = some j ↔ AccessLine labels a load rt address j := by
  cases address with
  | base xn =>
    simp only [accessInstr, Option.bind_eq_bind, Option.bind_eq_some_iff, registerAt_eq_some, Option.some.injEq]
    constructor
    · rintro ⟨_, ⟨hw, rfl⟩, rfl⟩; exact ⟨hw, rfl⟩
    · rintro ⟨hw, rfl⟩; exact ⟨_, ⟨hw, rfl⟩, rfl⟩
  | offset xn imm =>
    simp only [accessInstr, Option.bind_eq_bind, Option.bind_eq_some_iff, registerAt_eq_some,
      checkScaledOffset_eq_some, Option.some.injEq]
    constructor
    · rintro ⟨_, ⟨hw, rfl⟩, f, hf, rfl⟩; exact ⟨hw, f, hf, rfl⟩
    · rintro ⟨hw, f, hf, rfl⟩; exact ⟨_, ⟨hw, rfl⟩, f, hf, rfl⟩
  | preIndexed xn imm | postIndexed xn imm =>
    simp only [accessInstr, Option.bind_eq_bind, Option.bind_eq_some_iff, registerAt_eq_some,
      checkIndexOffset_eq_some, Option.some.injEq]
    constructor
    · rintro ⟨_, ⟨hw, rfl⟩, f, hf, rfl⟩; exact ⟨hw, f, hf, rfl⟩
    · rintro ⟨hw, f, hf, rfl⟩; exact ⟨_, ⟨hw, rfl⟩, f, hf, rfl⟩
  | registerOffset xn xm =>
    simp only [accessInstr, Option.bind_eq_bind, Option.bind_eq_some_iff, registerAt_eq_some, Option.some.injEq]
    constructor
    · rintro ⟨_, ⟨hn, rfl⟩, _, ⟨hm, rfl⟩, rfl⟩; exact ⟨hn, hm, rfl⟩
    · rintro ⟨hn, hm, rfl⟩; exact ⟨_, ⟨hn, rfl⟩, _, ⟨hm, rfl⟩, rfl⟩
  | label name =>
    simp only [accessInstr, Option.bind_eq_bind, Option.bind_eq_some_iff, checkWordOffset_eq_some (n := 19) (by decide),
      Option.ite_none_right_eq_some, Option.some.injEq]
    constructor
    · rintro ⟨target, hlabel, f, hf, hload, rfl⟩; exact ⟨hload, target, f, hlabel, hf, rfl⟩
    · rintro ⟨hload, target, f, hlabel, hf, rfl⟩; exact ⟨target, hlabel, f, hf, hload, rfl⟩
  | integer v =>
    simp only [accessInstr, Option.bind_eq_bind, Option.bind_eq_some_iff, checkWordOffset_eq_some (n := 19) (by decide),
      Option.ite_none_right_eq_some, Option.some.injEq]
    constructor
    · rintro ⟨f, hf, hload, rfl⟩; exact ⟨hload, f, hf, rfl⟩
    · rintro ⟨hload, f, hf, rfl⟩; exact ⟨f, hf, hload, rfl⟩

/-- The encoder gives an instruction exactly if the line stands for it. -/
theorem slotInstr_eq_some {i : SourceInstr} : slotInstr labels a i = some j ↔ LineStandsFor labels a i j := by
  cases i with
  | arithmetic m rd rn op =>
    refine Iff.trans ?_ arithmeticLine_iff.symm
    simp only [slotInstr, Option.bind_eq_bind, Option.bind_eq_some_iff, registerAt_eq_some]
    constructor
    · rintro ⟨_, ⟨hw, rfl⟩, h⟩; exact ⟨hw, h⟩
    · rintro ⟨hw, h⟩; exact ⟨_, ⟨hw, rfl⟩, h⟩
  | logical m rd rn op =>
    refine Iff.trans ?_ logicalLine_iff.symm
    simp only [slotInstr, Option.bind_eq_bind, Option.bind_eq_some_iff, registerAt_eq_some]
    constructor
    · rintro ⟨_, ⟨hw, rfl⟩, h⟩; exact ⟨hw, h⟩
    · rintro ⟨hw, h⟩; exact ⟨_, ⟨hw, rfl⟩, h⟩
  | wide m rd imm shift =>
    simp only [slotInstr, Option.bind_eq_bind, Option.bind_eq_some_iff, checkHalfWord_eq_some, checkUnsigned_eq_some,
      Option.some.injEq]
    constructor
    · rintro ⟨hw, hshift, imm16, himm, rfl⟩; exact ⟨hw, imm16, himm, hshift, by cases m <;> rfl⟩
    · rintro ⟨hw, imm16, himm, hshift, hj⟩; exact ⟨hw, hshift, imm16, himm, by cases m <;> exact hj.symm⟩
  | madd rd rn rm ra | msub rd rn rm ra =>
    simp only [slotInstr, Option.bind_eq_bind, Option.bind_eq_some_iff, registerAt_eq_some, Option.some.injEq]
    constructor
    · rintro ⟨_, ⟨hn, rfl⟩, _, ⟨hm, rfl⟩, _, ⟨ha, rfl⟩, rfl⟩; exact ⟨hn, hm, ha, rfl⟩
    · rintro ⟨hn, hm, ha, rfl⟩; exact ⟨_, ⟨hn, rfl⟩, _, ⟨hm, rfl⟩, _, ⟨ha, rfl⟩, rfl⟩
  | mul rd rn rm | mneg rd rn rm =>
    simp only [slotInstr, Option.bind_eq_bind, Option.bind_eq_some_iff, registerAt_eq_some, Option.some.injEq]
    constructor
    · rintro ⟨_, ⟨hn, rfl⟩, _, ⟨hm, rfl⟩, rfl⟩; exact ⟨hn, hm, rfl, rfl⟩
    · rintro ⟨hn, hm, _, rfl⟩; exact ⟨_, ⟨hn, rfl⟩, _, ⟨hm, rfl⟩, rfl⟩
  | b name =>
    simp only [slotInstr, Option.bind_eq_bind, Option.bind_eq_some_iff, checkWordOffset_eq_some (n := 26) (by decide),
      Option.some.injEq]
    constructor
    · rintro ⟨target, hlabel, f, hf, rfl⟩; exact ⟨target, f, hlabel, hf, rfl⟩
    · rintro ⟨target, f, hlabel, hf, rfl⟩; exact ⟨target, hlabel, f, hf, rfl⟩
  | bCond cond name =>
    simp only [slotInstr, Option.bind_eq_bind, Option.bind_eq_some_iff, checkWordOffset_eq_some (n := 19) (by decide),
      Option.some.injEq]
    constructor
    · rintro ⟨target, hlabel, f, hf, rfl⟩; exact ⟨target, f, hlabel, hf, rfl⟩
    · rintro ⟨target, f, hlabel, hf, rfl⟩; exact ⟨target, hlabel, f, hf, rfl⟩
  | br xn =>
    simp only [slotInstr, Option.map_eq_some_iff, registerAt_eq_some]
    constructor
    · rintro ⟨_, ⟨hw, rfl⟩, rfl⟩; exact ⟨hw, rfl⟩
    · rintro ⟨hw, rfl⟩; exact ⟨_, ⟨hw, rfl⟩, rfl⟩
  | ldr rt address => exact accessInstr_eq_some
  | str rt address => exact accessInstr_eq_some
  | cmp rn op => exact arithmeticOperand_eq_some (m := .subs) (rd := zeroAt rn) (rn := rn) rfl
  | cmn rn op => exact arithmeticOperand_eq_some (m := .adds) (rd := zeroAt rn) (rn := rn) rfl
  | tst rn op => exact logicalOperand_eq_some (m := .ands) (rd := zeroAt rn) (rn := rn) rfl
  | neg rd op => exact arithmeticOperand_eq_some (m := .sub) (rd := rd) (rn := zeroAt rd) rfl
  | negs rd op => exact arithmeticOperand_eq_some (m := .subs) (rd := rd) (rn := zeroAt rd) rfl
  | mvn rd op => exact logicalOperand_eq_some (m := .orn) (rd := rd) (rn := zeroAt rd) rfl
  | mov rd op =>
    cases op with
    | immediate v shift => exact ⟨fun h => (nomatch h), fun ⟨_, h, _⟩ => (nomatch h)⟩
    | register r shift =>
      cases shift with
      | some sh => exact ⟨fun h => (nomatch h), fun ⟨_, h, _⟩ => (nomatch h)⟩
      | none =>
        simp only [slotInstr, Option.map_eq_some_iff, registerAt_eq_some]
        constructor
        · rintro ⟨_, ⟨hw, rfl⟩, rfl⟩; exact ⟨r, rfl, rfl, hw, _, _, ⟨rfl, rfl⟩, rfl⟩
        · rintro ⟨_, _, _, hw, _, _, ⟨rfl, rfl⟩, rfl⟩; exact ⟨_, ⟨hw, rfl⟩, rfl⟩

theorem slotInstr_eq_none {i : SourceInstr} (h : ∀ j, ¬LineStandsFor labels a i j) : slotInstr labels a i = none :=
  Option.eq_none_iff_forall_ne_some.2 fun j hj => h j (slotInstr_eq_some.1 hj)

/-! ### Words and diagnostics of a line among others (R132, R134) -/

section
variable {addr : Nat} {before after : List SourceLine} {i : SourceInstr}

theorem assembleFrom_line (haddr : addr = a + 4 * slotCount before) :
    assembleFrom labels a (before ++ .instruction i :: after) =
      assembleFrom labels a before ++ emittedWord (slotInstr labels addr i) :: assembleFrom labels (addr + 4) after := by
  rw [assembleFrom_append, ← haddr, assembleFrom]

theorem getElem?_assembleFrom_line (haddr : addr = a + 4 * slotCount before) :
    (assembleFrom labels a (before ++ .instruction i :: after))[slotCount before]? =
      some (emittedWord (slotInstr labels addr i)) := by
  rw [assembleFrom_line haddr, List.getElem?_append_right (by simp)]
  simp

/-- A line's address has a diagnostic exactly if the line is a local error: every other line has another address. -/
theorem mem_localErrorsFrom_line (haddr : addr = a + 4 * slotCount before) :
    addr ∈ localErrorsFrom labels a (before ++ .instruction i :: after) ↔ slotInstr labels addr i = none := by
  have hbefore : addr ∉ localErrorsFrom labels a before := fun h => by
    have := bounds_of_mem_localErrorsFrom h
    omega
  have hafter : addr ∉ localErrorsFrom labels (addr + 4) after := fun h => by
    have := bounds_of_mem_localErrorsFrom h
    omega
  rw [localErrorsFrom_append, ← haddr, localErrorsFrom, List.mem_append, or_iff_right hbefore]
  split
  next h => simp [h]
  next h => simp [h, hafter]

end

/-! ### The local errors one by one (R132) -/

theorem not_arithmeticLine_ror {m : ArithmeticMnemonic} {rd rn q : SourceReg} {amount : Int} :
    ¬ArithmeticLine m rd rn (.register q (some ⟨.ror, amount⟩)) j :=
  fun ⟨_, _, _, _, ⟨ht, _⟩, hror, _⟩ => hror ht

/-- The addresses that have `n` as base or as offset register need it at 64 bits. -/
theorem not_accessLine_of_narrow {load : Bool} {r n x : SourceReg} {v : Int} {address : SourceAddress} (hn : n.width = .w32)
    (haddress : address ∈ [SourceAddress.base n, .offset n v, .preIndexed n v, .postIndexed n v, .registerOffset n x,
      .registerOffset x n]) : ¬AccessLine labels a load r address j := by
  have hne : n.width ≠ .w64 := by simp [hn]
  simp only [List.mem_cons, List.not_mem_nil, or_false] at haddress
  rcases haddress with rfl | rfl | rfl | rfl | rfl | rfl
  · exact fun ⟨h, _⟩ => hne h
  · exact fun ⟨h, _⟩ => hne h
  · exact fun ⟨h, _⟩ => hne h
  · exact fun ⟨h, _⟩ => hne h
  · exact fun ⟨h, _⟩ => hne h
  · exact fun ⟨_, h, _⟩ => hne h

/-- The multiplies, and the shorthands of R131, with one register `n` of another width than the rest stand for nothing. -/
theorem not_lineStandsFor_of_widths {r n q x : SourceReg} {sh : Option SourceShift} {i : SourceInstr}
    (hne : n.width ≠ r.width)
    (hi : i ∈ [SourceInstr.madd r n q x, .madd r q n x, .madd r q x n, .msub r n q x, .msub r q n x, .msub r q x n,
      .mul r n q, .mul r q n, .mneg r n q, .mneg r q n, .cmp r (.register n sh), .cmn r (.register n sh),
      .tst r (.register n sh), .neg r (.register n sh), .negs r (.register n sh), .mvn r (.register n sh),
      .mov r (.register n sh)]) : ¬LineStandsFor labels a i j := by
  simp only [List.mem_cons, List.not_mem_nil, or_false] at hi
  rcases hi with rfl | rfl | rfl | rfl | rfl | rfl | rfl | rfl | rfl | rfl | rfl | rfl | rfl | rfl | rfl | rfl | rfl
  · exact fun ⟨h, _⟩ => hne h
  · exact fun ⟨_, h, _⟩ => hne h
  · exact fun ⟨_, _, h, _⟩ => hne h
  · exact fun ⟨h, _⟩ => hne h
  · exact fun ⟨_, h, _⟩ => hne h
  · exact fun ⟨_, _, h, _⟩ => hne h
  · exact fun ⟨h, _⟩ => hne h
  · exact fun ⟨_, h, _⟩ => hne h
  · exact fun ⟨h, _⟩ => hne h
  · exact fun ⟨_, h, _⟩ => hne h
  · exact fun ⟨_, h, _⟩ => hne h
  · exact fun ⟨_, h, _⟩ => hne h
  · exact fun ⟨_, h, _⟩ => hne h
  · exact fun ⟨_, h, _⟩ => hne h
  · exact fun ⟨_, h, _⟩ => hne h
  · exact fun ⟨_, h, _⟩ => hne h
  · rintro ⟨rm, h, _, hw, _⟩
    cases h
    exact hne hw

/-- A word offset is in the signed range of its field. -/
theorem not_wordOffset {n : Nat} {target : Int}
    (h : ¬(-2 ^ (n - 1) ≤ (target - a) / 4 ∧ (target - a) / 4 < 2 ^ (n - 1))) (f : BitVec n) : ¬WordOffset f target a := by
  intro hf
  rw [← show f.toInt = (target - a) / 4 from hf] at h
  exact h ⟨f.le_toInt, f.toInt_lt⟩

end

/-- Settles O60: a line's word and diagnostic by its place, its instruction by `slotInstr_eq_some`, and each local error as
a line that stands for no instruction. -/
theorem localErrorsEmitZeroWord : Obligations.LocalErrorsEmitZeroWord := by
  refine ⟨fun labels a addr before after i haddr => ⟨assembleFrom_line haddr, length_assembleFrom .., ?stands, ?error⟩,
    fun labels a i j => slotInstr_eq_some, ?unresolved, ?outOfRange, ?unsupported, ?narrow, ?widths, ?values, ?zeroWord⟩
  case stands =>
    intro j hj
    rw [getElem?_assembleFrom_line haddr, mem_localErrorsFrom_line haddr, slotInstr_eq_some.2 hj]
    exact ⟨rfl, by simp⟩
  case error =>
    intro hno
    rw [getElem?_assembleFrom_line haddr, mem_localErrorsFrom_line haddr, slotInstr_eq_none hno]
    exact ⟨rfl, rfl⟩
  case unresolved =>
    intro labels a name rt cond hname
    have hno (target : Nat) : labels name ≠ some target := by simp [hname]
    exact ⟨slotInstr_eq_none fun _ ⟨target, _, h, _⟩ => hno target h,
      slotInstr_eq_none fun _ ⟨target, _, h, _⟩ => hno target h,
      slotInstr_eq_none fun _ ⟨_, target, _, h, _⟩ => hno target h⟩
  case outOfRange =>
    intro labels a target name rt cond hname
    refine ⟨fun h => slotInstr_eq_none ?_, fun h => ⟨slotInstr_eq_none ?_, slotInstr_eq_none ?_⟩⟩
    · rintro j ⟨u, f, hu, hf, _⟩
      cases hname.symm.trans hu
      exact not_wordOffset h f hf
    · rintro j ⟨u, f, hu, hf, _⟩
      cases hname.symm.trans hu
      exact not_wordOffset h f hf
    · rintro j ⟨_, u, f, hu, hf, _⟩
      cases hname.symm.trans hu
      exact not_wordOffset h f hf
  case unsupported =>
    intro labels a r n v sh name
    have hnone {i : SourceInstr} (h : ∀ j, ¬LineStandsFor labels a i j) := slotInstr_eq_none h
    refine ⟨fun m => hnone fun _ ⟨_, h⟩ => h, hnone fun _ ⟨_, h⟩ => h, hnone fun _ ⟨_, h⟩ => h,
      hnone fun _ ⟨_, h, _⟩ => (nomatch h), hnone fun _ ⟨h, _⟩ => (nomatch h), hnone fun _ ⟨h, _⟩ => (nomatch h),
      fun q amount => ⟨fun m => hnone fun _ => not_arithmeticLine_ror, ?_⟩⟩
    exact ⟨hnone fun _ => not_arithmeticLine_ror (m := .subs) (rd := zeroAt n) (rn := n),
      hnone fun _ => not_arithmeticLine_ror (m := .adds) (rd := zeroAt n) (rn := n),
      hnone fun _ => not_arithmeticLine_ror (m := .sub) (rd := r) (rn := zeroAt r),
      hnone fun _ => not_arithmeticLine_ror (m := .subs) (rd := r) (rn := zeroAt r)⟩
  case narrow =>
    intro labels a r n x v hn
    exact ⟨slotInstr_eq_none fun _ ⟨h, _⟩ => (nomatch hn.symm.trans h), fun address haddress =>
      ⟨slotInstr_eq_none fun _ => not_accessLine_of_narrow hn haddress,
        slotInstr_eq_none fun _ => not_accessLine_of_narrow hn haddress⟩⟩
  case widths =>
    intro labels a r n q x op sh hne
    exact ⟨fun m => ⟨slotInstr_eq_none fun _ ⟨h, _⟩ => hne h, slotInstr_eq_none fun _ ⟨_, h, _⟩ => hne h⟩,
      fun m => ⟨slotInstr_eq_none fun _ ⟨h, _⟩ => hne h, slotInstr_eq_none fun _ ⟨_, h, _⟩ => hne h⟩,
      fun i hi => slotInstr_eq_none fun j => not_lineStandsFor_of_widths hne hi⟩
  case values =>
    intro labels a r n v
    refine ⟨fun h m sh => slotInstr_eq_none ?_, fun h m imm t => slotInstr_eq_none ?_,
      fun h => ⟨slotInstr_eq_none ?_, slotInstr_eq_none ?_⟩,
      fun h => ⟨slotInstr_eq_none ?_, slotInstr_eq_none ?_, slotInstr_eq_none ?_, slotInstr_eq_none ?_⟩⟩
    · exact fun j ⟨_, _, imm12, hv, _⟩ => h (exists_toNat_eq_iff.1 ⟨imm12, hv⟩)
    · rintro j ⟨hw, imm16, _, ⟨h', _⟩ | h', _⟩
      · cases h'
      · cases h'
        exact h (exists_wideMoveShift_iff.1 ⟨hw, rfl⟩)
    · exact fun j ⟨_, f, hf, _⟩ => h (exists_scaledOffset_iff.1 ⟨f, hf⟩)
    · exact fun j ⟨_, f, hf, _⟩ => h (exists_scaledOffset_iff.1 ⟨f, hf⟩)
    · exact fun j ⟨_, f, hf, _⟩ => h (exists_indexOffset_iff.1 ⟨f, hf⟩)
    · exact fun j ⟨_, f, hf, _⟩ => h (exists_indexOffset_iff.1 ⟨f, hf⟩)
    · exact fun j ⟨_, f, hf, _⟩ => h (exists_indexOffset_iff.1 ⟨f, hf⟩)
    · exact fun j ⟨_, f, hf, _⟩ => h (exists_indexOffset_iff.1 ⟨f, hf⟩)
  case zeroWord =>
    intro halt hne
    exact decodeWith_eq_unknownClass.2 ⟨hne.symm, by decide⟩

end Sys2Proof.Machine
end
